-- ==== Sys2Proof/Word.lean ====
section
/-! DEFINITION. The word types of the machine: bytes, addresses, working registers, descriptors
(spec 00_scope.md R11, 10_state.md R24, 30_encoding.md R101). -/

namespace Sys2Proof

/-- `u4`: fault and response codes, mode and display-mode fields. -/
abbrev Nibble := BitVec 4

/-- `u8`: the addressable unit of device memory and the value of one bus transaction (R71, R121). -/
abbrev Byte := BitVec 8

/-- `u16` or `s16`: a device address, a coordinate field of a descriptor (R39, R106). -/
abbrev Half := BitVec 16

/-- `s32`: a working register (R24). -/
abbrev Word := BitVec 32

/-- The 80-bit operation descriptor (R101). -/
abbrev Descriptor := BitVec 80

end Sys2Proof
end

