-- ==== Sys2Proof/Syntax.lean ====
section
/-! DEFINITION. The operations of the engine, one constructor per row of spec/opcode_table.json
(30_encoding.md R102, R103). -/

namespace Sys2Proof

/-- An operation with its operands as the descriptor carries them: `u8` values of `aux`, `s16` coordinates
and sizes of `a` to `d` (sign-extended where they are used, R106), the color as a Bool (R107) and the glyph
as its list of bytes, `glyph[0]` first (R108). -/
inductive Instr where
  /-- write a command byte (R152) -/
  | wrc (v : Byte)
  /-- write a data byte (R153) -/
  | wrd (v : Byte)
  /-- read a data byte (R154) -/
  | rdd
  /-- read the status port after a poll (R155) -/
  | rds
  /-- initialise the device (R156) -/
  | init
  /-- blank the display and release the bus (R300) -/
  | close
  /-- compute a text address (R217) -/
  | txa (x y : Half)
  /-- compute a graphic address and bit offset (R218) -/
  | gra (x y : Half)
  /-- compute a character-generator address (R219) -/
  | cga (slot : Byte)
  /-- set the address pointer to a text cell (R220) -/
  | sap (x y : Half)
  /-- set the cursor pointer (R221) -/
  | scp (x y : Half)
  /-- set the offset register (R222) -/
  | sor (v : Byte)
  /-- set or clear one pixel (R241) -/
  | spx (x y : Half) (color : Bool)
  /-- clear the text area (R243) -/
  | clt
  /-- clear the graphic area (R244) -/
  | clg
  /-- clear the external character-generator area (R245) -/
  | clc
  /-- define a character (R246) -/
  | defc (slot : Byte) (glyph : List Byte)
  /-- write one character at the device's address pointer (R260) -/
  | wch (ch : Byte)
  /-- draw a rectangle outline (R270) -/
  | rect (x y w h : Half) (color : Bool)
  /-- draw a circle outline (R280) -/
  | circ (cx cy r : Half) (color : Bool)
  /-- draw a line (R290) -/
  | line (x1 y1 x2 y2 : Half) (color : Bool)
deriving DecidableEq, Repr

end Sys2Proof
end

