-- ==== Sys2Proof/WellFormed.lean ====
section
/-! DEFINITION. Which terms of Instr are operations a descriptor can carry. The operand widths are in the
types; the one check left is that a glyph has eight bytes (00_scope.md R16, 30_encoding.md R108). -/

namespace Sys2Proof

/-- "Glyph: 8-byte bitmap definition" (R16): format G carries exactly eight glyph bytes (R108). -/
def Instr.wellFormed : Instr → Bool
  | .defc _ glyph => glyph.length == 8
  | .wrc _ | .wrd _ | .rdd | .rds | .init | .close | .txa _ _ | .gra _ _ | .cga _ | .sap _ _ | .scp _ _ | .sor _
  | .spx _ _ _ | .clt | .clg | .clc | .wch _ | .rect _ _ _ _ _ | .circ _ _ _ _ | .line _ _ _ _ _ => true

end Sys2Proof
end

