-- ==== Sys2Proof/Decode.lean ====
section
/-! DEFINITION. The descriptor's fields, formats and opcode table, the decoder and the encoder
(30_encoding.md R101 to R108). A descriptor is one 80-bit value and is never stored in byte-addressed memory, so
it has no byte order (20_memory.md R75): the decoder takes the value itself. -/

namespace Sys2Proof

/-! ## Fields (R101) -/

def Descriptor.opc (d : Descriptor) : Byte := d.extractLsb' 72 8
def Descriptor.aux (d : Descriptor) : Byte := d.extractLsb' 64 8
def Descriptor.a (d : Descriptor) : Half := d.extractLsb' 48 16
def Descriptor.b (d : Descriptor) : Half := d.extractLsb' 32 16
def Descriptor.c (d : Descriptor) : Half := d.extractLsb' 16 16
def Descriptor.d (d : Descriptor) : Half := d.extractLsb' 0 16

/-- `aux[0]`, descriptor bit 64: the color of SPX, RECT, CIRC and LINE (R107). -/
def Descriptor.color (d : Descriptor) : Bool := d.getLsbD 64

/-- The eight glyph bytes of format G, left to right in the hexadecimal form of the descriptor (R108). -/
def Descriptor.glyph (d : Descriptor) : List Byte :=
  [d.extractLsb' 56 8, d.extractLsb' 48 8, d.extractLsb' 40 8, d.extractLsb' 32 8,
   d.extractLsb' 24 8, d.extractLsb' 16 8, d.extractLsb' 8 8, d.extractLsb' 0 8]

/-! ## Formats, rows (R102 to R104) -/

/-- The seven formats (R102). -/
inductive Format where
  | N | V | P | PC | T | Q | G
deriving DecidableEq, Repr

/-- The mask of a format: a 1 in every bit of `opc` and of every reserved field (R104). -/
def Format.mask : Format → Descriptor
  | .N  => 0xFFFFFFFFFFFFFFFFFFFF
  | .V  => 0xFF00FFFFFFFFFFFFFFFF
  | .P  => 0xFFFF00000000FFFFFFFF
  | .PC => 0xFFFE00000000FFFFFFFF
  | .T  => 0xFFFE000000000000FFFF
  | .Q  => 0xFFFE0000000000000000
  | .G  => 0xFF000000000000000000

/-- One row of the opcode map (R103): the opcode, its format, and the operation read from a descriptor's
operand fields. -/
structure Row where
  opc    : Byte
  format : Format
  build  : Descriptor → Instr

/-- A row's match value: the opcode in bits 79 to 72 and zero elsewhere (R104). -/
def Row.matchValue (r : Row) : Descriptor := r.opc ++ (0 : BitVec 72)

/-- `(desc AND mask) = match` (R104). -/
def Row.admits (r : Row) (d : Descriptor) : Bool := (d &&& r.format.mask) == r.matchValue

/-- The opcode map (R103), in its order. -/
def opcodeMap : List Row :=
  [ ⟨0x01, .V,  fun d => .wrc d.aux⟩,
    ⟨0x02, .V,  fun d => .wrd d.aux⟩,
    ⟨0x03, .N,  fun _ => .rdd⟩,
    ⟨0x04, .N,  fun _ => .rds⟩,
    ⟨0x05, .N,  fun _ => .init⟩,
    ⟨0x06, .N,  fun _ => .close⟩,
    ⟨0x10, .P,  fun d => .txa d.a d.b⟩,
    ⟨0x11, .P,  fun d => .gra d.a d.b⟩,
    ⟨0x12, .V,  fun d => .cga d.aux⟩,
    ⟨0x13, .P,  fun d => .sap d.a d.b⟩,
    ⟨0x14, .P,  fun d => .scp d.a d.b⟩,
    ⟨0x15, .V,  fun d => .sor d.aux⟩,
    ⟨0x20, .PC, fun d => .spx d.a d.b d.color⟩,
    ⟨0x21, .N,  fun _ => .clt⟩,
    ⟨0x22, .N,  fun _ => .clg⟩,
    ⟨0x23, .N,  fun _ => .clc⟩,
    ⟨0x24, .G,  fun d => .defc d.aux d.glyph⟩,
    ⟨0x25, .V,  fun d => .wch d.aux⟩,
    ⟨0x30, .Q,  fun d => .rect d.a d.b d.c d.d d.color⟩,
    ⟨0x31, .T,  fun d => .circ d.a d.b d.c d.color⟩,
    ⟨0x32, .Q,  fun d => .line d.a d.b d.c d.d d.color⟩ ]

/-! ## The decoder -/

/-- Why a descriptor selects no operation (R104, R105). Both raise IllegalOperation (60_exceptions.md R311). -/
inductive DecodeError where
  /-- `opc` is not in the opcode map -/
  | reservedOpcode (opc : Byte)
  /-- `opc` is listed and a field its format reserves is not zero -/
  | reservedField (opc : Byte)
deriving DecidableEq, Repr

/-- The operation a descriptor selects, total on all 2^80 values (R104, R105). -/
def decode (d : Descriptor) : Except DecodeError Instr :=
  match opcodeMap.find? (fun r => r.opc == d.opc) with
  | none => .error (.reservedOpcode d.opc)
  | some r => if r.admits d then .ok (r.build d) else .error (.reservedField d.opc)

/-! ## The encoder -/

/-- A descriptor from its six fields (R101). -/
def descriptorOf (opc aux : Byte) (a b c d : Half) : Descriptor := opc ++ aux ++ a ++ b ++ c ++ d

/-- `aux` of a format whose bit 0 is the color and whose bits 7:1 are reserved (R102, R107). -/
def colorField (color : Bool) : Byte := if color then 1 else 0

/-- Two glyph bytes as one 16-bit field (R102, format G). -/
def glyphField (glyph : List Byte) (i : Nat) : Half := glyph.getD i 0 ++ glyph.getD (i + 1) 0

/-- The descriptor of an operation: reserved fields are zero (R102 to R104). -/
def encode : Instr → Descriptor
  | .wrc v              => descriptorOf 0x01 v 0 0 0 0
  | .wrd v              => descriptorOf 0x02 v 0 0 0 0
  | .rdd                => descriptorOf 0x03 0 0 0 0 0
  | .rds                => descriptorOf 0x04 0 0 0 0 0
  | .init               => descriptorOf 0x05 0 0 0 0 0
  | .close              => descriptorOf 0x06 0 0 0 0 0
  | .txa x y            => descriptorOf 0x10 0 x y 0 0
  | .gra x y            => descriptorOf 0x11 0 x y 0 0
  | .cga slot           => descriptorOf 0x12 slot 0 0 0 0
  | .sap x y            => descriptorOf 0x13 0 x y 0 0
  | .scp x y            => descriptorOf 0x14 0 x y 0 0
  | .sor v              => descriptorOf 0x15 v 0 0 0 0
  | .spx x y color      => descriptorOf 0x20 (colorField color) x y 0 0
  | .clt                => descriptorOf 0x21 0 0 0 0 0
  | .clg                => descriptorOf 0x22 0 0 0 0 0
  | .clc                => descriptorOf 0x23 0 0 0 0 0
  | .defc slot glyph    =>
      descriptorOf 0x24 slot (glyphField glyph 0) (glyphField glyph 2) (glyphField glyph 4) (glyphField glyph 6)
  | .wch ch             => descriptorOf 0x25 ch 0 0 0 0
  | .rect x y w h color => descriptorOf 0x30 (colorField color) x y w h
  | .circ cx cy r color => descriptorOf 0x31 (colorField color) cx cy r 0
  | .line x1 y1 x2 y2 color => descriptorOf 0x32 (colorField color) x1 y1 x2 y2

/-! ## The host's question -/

/-- The operation the decoder reads from a descriptor whose low `nbits` bits are `w`, bit 0 the least
significant, as spec/opcode_table.json numbers them (width 80: one descriptor is one word). -/
def decodeTableWord (nbits w : Nat) : Option Instr := (decode (BitVec.ofNat 80 (w % 2 ^ nbits))).toOption

end Sys2Proof
end

