-- ==== Sys2Proof/Config.lean ====
section
/-! DEFINITION. What an implementation fixes (spec 00_scope.md R7, R9; 30_encoding.md R118, R119) and the
free values: opaque constants that stand for what the spec leaves unspecified (10_state.md R49, R53). -/

namespace Sys2Proof

/-- The controller command bytes, each a named parameter (R118).
`modeSet` and `displayMode` hold the byte whose low four bits are 0. -/
structure Commands where
  setCursorPointer  : Byte
  setOffsetRegister : Byte
  setAddressPointer : Byte
  setTextHome       : Byte
  setTextArea       : Byte
  setGraphicHome    : Byte
  setGraphicArea    : Byte
  modeSet           : Byte
  displayMode       : Byte
  dataWriteInc      : Byte
  dataReadInc       : Byte
  dataWriteDec      : Byte
  dataReadDec       : Byte
  dataWriteNonvar   : Byte
  dataReadNonvar    : Byte
deriving DecidableEq, Repr

/-- The implementation parameters (R7, R9, R119). They are constant for the whole life of a model
instance: State carries them so that a claim can be about every configuration, and no step writes them. -/
structure Config where
  pixelsPerLine  : Nat
  numberOfLines  : Nat
  fontWidth      : Nat
  offsetReg      : Nat
  extCgGlyphs    : Nat
  textHome       : Nat
  /-- `POLL_LIMIT`: 0 is the source's unbounded poll. -/
  pollLimit      : Nat
  ramSize        : Nat
  cursorOn       : Bool
  /-- `RESET_KEEPS_MEM`: a hardware reset of the device leaves `T.MEM` unchanged. -/
  resetKeepsMem  : Bool
  cmd            : Commands
  dmGraphic      : Nibble
  dmText         : Nibble
  dmCursor       : Nibble
  dmBlink        : Nibble
  msOr           : Nibble
deriving DecidableEq, Repr

/-- The default command bytes of R118's table. -/
def Commands.default : Commands where
  setCursorPointer  := 0x21
  setOffsetRegister := 0x22
  setAddressPointer := 0x24
  setTextHome       := 0x40
  setTextArea       := 0x41
  setGraphicHome    := 0x42
  setGraphicArea    := 0x43
  modeSet           := 0x80
  displayMode       := 0x90
  dataWriteInc      := 0xC0
  dataReadInc       := 0xC1
  dataWriteDec      := 0xC2
  dataReadDec       := 0xC3
  dataWriteNonvar   := 0xC4
  dataReadNonvar    := 0xC5

/-- The configuration of the document's scenario with the defaults of R9, R118 and R119 (the setting of
95_test_vectors.md). `OFFSET_REG = 3` is DESIGN CHOICE, unsafe (log entry 5): the document gives no value and the
spec's examples use 3. -/
def Config.default : Config where
  pixelsPerLine := 240
  numberOfLines := 128
  fontWidth     := 8
  offsetReg     := 3
  extCgGlyphs   := 256
  textHome      := 0
  pollLimit     := 0
  ramSize       := 65536
  cursorOn      := false
  resetKeepsMem := false
  cmd           := Commands.default
  dmGraphic     := 0x8
  dmText        := 0x4
  dmCursor      := 0x2
  dmBlink       := 0x1
  msOr          := 0x0

/-- The registers that a reset leaves unspecified (R50, R53). -/
inductive FreeReg where
  | opc | aux | a | b | c | d | work (i : Fin 16) | tmp | bit
  | ap | curx | cury | offs | th | ta | gh | ga | disp | mode | d1 | d2 | rdl
deriving DecidableEq, Repr

/-- FREE VALUE (R50, R53, 93_implementation_defined.md U6; log entry 2, safe): what the `n`-th reset leaves in a register
it leaves unspecified. -/
opaque Config.unspecified : FreeReg → Nat → Word

/-- FREE VALUE (R53, R371; log entry 3, safe): what device memory holds at an address that nothing has
written since memory generation `g` began. It is fixed until written: the same at every re-read. -/
opaque Config.unwrittenByte (g addr : Nat) : Byte

/-- FREE VALUE (R171, R172, R174; log entry 1, safe): the byte the device's `n`-th free choice takes. -/
opaque Config.freeByte : Nat → Byte

end Sys2Proof
end

