-- ==== Sys2Proof/Machine/State.lean ====
section
/-! DEFINITION. The machine's state as plain data: engine, device, bus lines, host port (spec 10_state.md), the
model's own fields (configuration, free choices, observation logs), the outcomes' reasons, and the state right after
reset. -/

namespace Sys2Proof.Machine

/-! ## Engine -/

/-- `E.ST`, the top-level state (R21). -/
inductive TopState where
  | idle | run | fault
deriving DecidableEq, Repr

/-- Where the byte of a bus write comes from: a constant of the pseudocode, `E.TMP` (R240), or the glyph byte
`E.G[x[14]]` (R246). -/
inductive Source where
  | lit (v : Byte)
  | tmp
  | glyph
deriving DecidableEq, Repr

/-- One step of an operation's pseudocode. The first group makes bus transactions; the second works inside the
engine or on the bus lines and may put the steps it stands for before what remains. -/
inductive Micro where
  /-- the first pass of `Poll()`: it also sets `E.PCNT` to 0 (R141) -/
  | poll
  /-- a later pass of the same `Poll()` (R141) -/
  | pollAgain
  /-- `BusWrite(cd, v)` (R142) -/
  | busWrite (cd : Bool) (v : Source)
  /-- `E.TMP <- BusRead(0)` (R240) -/
  | readTmp
  /-- `E.RES <- zext_16(BusRead(cd))` (R154, R155) -/
  | readRes (cd : Bool)
  /-- `SetAP(A)` (R216) -/
  | setAP (addr : Half)
  /-- `SetPixel(x, y, c)` (R240) -/
  | setPixel (x y : Int) (color : Bool)
  /-- the update of `E.TMP` between the read and the write of a pixel (R240) -/
  | mergePixel (color : Bool)
  /-- `x[14] <- 0` -/
  | clearCount
  /-- `x[14] <- x[14] + 1` -/
  | bumpCount
  /-- `while x[14] < n` of `Fill` (R242) -/
  | fillLoop (n : Nat)
  /-- `while x[14] < 8` of DEFC (R246) -/
  | glyphLoop
  /-- `while x[14] < h` of RECT, the two vertical edges (R270) -/
  | rectVertical
  /-- `while x[14] < w` of RECT, the two horizontal edges (R270) -/
  | rectHorizontal
  /-- CIRC's initial values (R280) -/
  | circleStart
  /-- `while X >= Y` of CIRC with its eight points (R280) -/
  | circleLoop
  /-- the updates at the end of a step of CIRC (R280) -/
  | circleStep
  /-- LINE's initial values, sign folding and start pixel (R290) -/
  | lineStart
  /-- LINE's two conditions: more than one point, and the driving axis (R290) -/
  | lineBranch
  /-- one pass of the x-driven `repeat`, up to its `SetPixel` (R290) -/
  | lineStepX
  /-- `until CURX = x2` (R290) -/
  | lineUntilX
  /-- one pass of the y-driven `repeat`, up to its `SetPixel` (R290) -/
  | lineStepY
  /-- `until CURY = y2` (R290) -/
  | lineUntilY
  /-- `Bus.SetReset(asserted)` of INIT (R156 step 1) -/
  | assertReset
  /-- INIT's settle step: no transaction, no duration (R156, R351) -/
  | settle
  /-- `Bus.SetReset(deasserted)` of INIT (R156 step 1) -/
  | releaseReset
  /-- the seven Bus calls that end CLOSE, one step (R300) -/
  | quiesce
deriving DecidableEq, Repr

/-- Engine state `E.*` (R21 to R28). -/
structure Engine where
  /-- `E.ST` (R21) -/
  st   : TopState
  /-- `E.SEQ`: what remains of the running operation's pseudocode; `[]` is `SEQ_IDLE` (R22) -/
  seq  : List Micro
  /-- the descriptor latch (R23); `E.G[0..7]` are the 64 bits of `a`, `b`, `c`, `d` -/
  opc  : Byte
  aux  : Byte
  a    : Half
  b    : Half
  c    : Half
  d    : Half
  /-- the working registers `x[0]` to `x[15]` (R24) -/
  x    : Vector Word 16
  /-- `E.TMP` and `E.BIT` (R25) -/
  tmp  : Byte
  bit  : Byte
  /-- the result registers (R26) -/
  res  : Half
  bof  : Byte
  /-- the fault registers (R27) -/
  err  : Nibble
  eop  : Byte
  /-- the poll counter (R28, R327) -/
  pcnt : Word
deriving DecidableEq, Repr

/-! ## Device -/

/-- `T.RDYS` (R44). -/
inductive Readiness where
  | busy | ready
deriving DecidableEq, Repr

/-- Device memory: the bytes written since the current memory generation began, addresses strictly rising. An address
that is not listed reads as no value here; the device then presents a free byte (R45, R53, R371; log entry 3). -/
abbrev Memory := List Host.Cell

/-- Device state `T.*` (R39 to R45). -/
structure Device where
  /-- the address pointer (R39) -/
  ap   : Half
  /-- the cursor pointer and the offset register (R40) -/
  curx : Byte
  cury : Byte
  offs : Byte
  /-- the mode registers (R41) -/
  th   : Half
  ta   : Half
  gh   : Half
  ga   : Half
  disp : Nibble
  mode : Nibble
  /-- the operand latch: two bytes and their count `T.NOP` (R42) -/
  d1   : Byte
  d2   : Byte
  nop  : Fin 3
  /-- the read latch and `T.RDV`, a read is pending (R43) -/
  rdl  : Byte
  rdv  : Bool
  /-- readiness (R44) -/
  rdy  : Readiness
  /-- `T.MEM` (R45) -/
  mem  : Memory
deriving DecidableEq, Repr

/-! ## Bus lines -/

/-- A line that is asserted or deasserted: the reset line and the strobes (R47). -/
inductive Level where
  | asserted | deasserted
deriving DecidableEq, Repr

/-- Chip-select: low is selected (R47). -/
inductive ChipSelect where
  | low | high
deriving DecidableEq, Repr

/-- Who drives the data lines (R47). -/
inductive Direction where
  | output | input
deriving DecidableEq, Repr

/-- The levels last driven on the Bus capability's lines (R47). `cd` true is 1, command or status. -/
structure Bus where
  reset : Level
  ce    : ChipSelect
  cd    : Bool
  wr    : Level
  rd    : Level
  dir   : Direction
  dout  : Byte
deriving DecidableEq, Repr

/-! ## Host port -/

/-- One response (R48, R109). -/
structure Response where
  code : Nibble
  data : Half
  bof  : BitVec 3
deriving DecidableEq, Repr

/-- The host port (R48). The outputs `req_ready` and `fault` are views of `E.ST`, `rsp_data` and `rsp_bof` views of `E.RES` and
`E.BOF` (Machine/Flags.lean); what the host is about to drive on the inputs stands in two lists (log entry 7). -/
structure HostPort where
  /-- the level of the `rst` input at the coming steps, the next one first; deasserted after the list's end -/
  rst      : List Bool
  /-- the descriptors the host has still to present on `req_desc`, in order; `req_valid` is 1 while there is one -/
  req      : List Descriptor
  rspValid : Bool
  rspCode  : Nibble
deriving DecidableEq, Repr

/-! ## The model's own fields -/

/-- The free choices (R49; log entries 1 to 3): the bytes the device's coming free choices take (`given`, the
next first), what every later one takes if that is fixed (`after`), and three counters that pick the opaque free values. -/
structure Choices where
  given  : List Byte
  after  : Option Byte
  /-- how many free choices the device has made -/
  drawn  : Nat
  /-- how many resets have left registers unspecified -/
  resets : Nat
  /-- the memory generation: it grows when a hardware reset leaves `T.MEM` unspecified (R53) -/
  memGen : Nat
deriving DecidableEq, Repr

/-- One bus transaction (R121), as the trace notation writes it (R14). -/
inductive Transaction where
  | statusRead (s : Byte)
  | commandWrite (k : Byte)
  | dataWrite (v : Byte)
  | dataRead (v : Byte)
deriving DecidableEq, Repr

/-- The whole state. `trace` and `responses` are observations (R14, R330, R375(e)), newest first: no rule reads them. -/
structure State where
  cfg       : Config
  eng       : Engine
  dev       : Device
  bus       : Bus
  host      : HostPort
  free      : Choices
  trace     : List Transaction
  responses : List Response
deriving DecidableEq, Repr

/-! ## Why a step may have no successor -/

/-- Where the machine stops with a fault. -/
inductive Fault where
  /-- SAFE. A data command of the device accesses an address at or above `RAM_SIZE`, which is not populated (20_memory.md R80,
  93_implementation_defined.md U8). Raised by the device's memory commands; no engine operation but a raw sequence or a mispositioned WCH
  can reach it under `GeomOK`. -/
  | unpopulatedAddress (addr : Nat)
deriving DecidableEq, Repr

/-- Where the spec gives a step no meaning. -/
inductive Refusal where
  /-- SAFE. An operation that has no meaning yet; raised by exec's arms only. -/
  | notModelled (mnemonic : String)
  /-- SAFE. A bus transaction while the device's reset line is asserted (R194, R354, U7): an operation accepted then, other than INIT and the
  transfer-free ones, ends so at its first status read; raised by status reads and by every transfer. -/
  | deviceHeldInReset
  /-- SAFE. A transfer made while the device is busy (R193, U5); raised by command write, data write and data read. The engine cannot
  cause it. -/
  | transferWhileBusy
  /-- SAFE. A third data byte with no command between (R173, U4); raised by data write. -/
  | operandLatchFull
  /-- SAFE. A command whose operand count differs from the bytes in the operand latch (R192, U4); raised by command write. -/
  | operandCountMismatch
  /-- SAFE. A command byte the spec does not list (R123, R191, U3); raised by command write. -/
  | unknownCommand (k : Byte)
deriving DecidableEq, Repr

/-! ## Reset -/

/-- The engine after engine reset (R50). The latch, `x[0]` to `x[15]`, `E.TMP` and `E.BIT` are unspecified there: zero is
DESIGN CHOICE, unsafe (log entry 4). -/
def Engine.reset : Engine where
  st := .idle
  seq := []
  opc := 0
  aux := 0
  a := 0
  b := 0
  c := 0
  d := 0
  x := Vector.replicate 16 0
  tmp := 0
  bit := 0
  res := 0
  bof := 0
  err := 0
  eop := 0
  pcnt := 0

/-- The device while its reset line is asserted (R53): `T.NOP = 0`, `T.RDV = 0`, `T.RDYS = BUSY` and nothing written in memory. Every
other register is unspecified there: zero is DESIGN CHOICE, unsafe (log entry 4). -/
def Device.reset : Device where
  ap := 0
  curx := 0
  cury := 0
  offs := 0
  th := 0
  ta := 0
  gh := 0
  ga := 0
  disp := 0
  mode := 0
  d1 := 0
  d2 := 0
  nop := 0
  rdl := 0
  rdv := false
  rdy := .busy
  mem := []

/-- The quiescent Bus state (R51). -/
def Bus.quiescent : Bus where
  reset := .asserted
  ce := .high
  cd := true
  wr := .deasserted
  rd := .deasserted
  dir := .input
  dout := 0

/-- The machine right after reset: engine reset just released (R50 to R53, R352), the host presenting nothing. -/
def State.reset : State where
  cfg := Config.default
  eng := Engine.reset
  dev := Device.reset
  bus := Bus.quiescent
  host := { rst := [], req := [], rspValid := false, rspCode := 0 }
  free := { given := [], after := none, drawn := 0, resets := 0, memGen := 0 }
  trace := []
  responses := []

end Sys2Proof.Machine
end

