-- ==== Sys2Proof/Machine/Geometry.lean ====
section
/-! DEFINITION. The derived geometry constants and the well-formedness of a configuration
(00_scope.md R7, R8, R10; 30_encoding.md R118, R119). -/

namespace Sys2Proof

/-! ## Derived constants (R8) -/

def Config.textArea (g : Config) : Nat := g.pixelsPerLine / g.fontWidth
def Config.graphicArea (g : Config) : Nat := g.pixelsPerLine / g.fontWidth
def Config.textRows (g : Config) : Nat := g.numberOfLines / 8
def Config.textSize (g : Config) : Nat := g.textArea * g.textRows
def Config.graphicSize (g : Config) : Nat := g.graphicArea * g.numberOfLines
def Config.graphicHome (g : Config) : Nat := g.textHome + g.textSize
def Config.extCgSize (g : Config) : Nat := g.extCgGlyphs * 8
def Config.extCgHome (g : Config) : Nat := g.offsetReg * 2048

/-! ## Well-formed configurations -/

/-- `GeomOK` (R10). -/
def Config.geomOK (g : Config) : Bool :=
  (g.fontWidth == 6 || g.fontWidth == 8)
    && decide (1 ≤ g.textArea) && decide (g.textArea ≤ 255) && decide (1 ≤ g.textRows)
    && decide (g.graphicHome + g.graphicSize ≤ g.ramSize) && decide (g.extCgHome + g.extCgSize ≤ g.ramSize)
    && decide (g.textHome + g.textSize ≤ 65536) && decide (g.ramSize ≤ 65536)

/-- The legal values of R7's parameters, and the largest `POLL_LIMIT` (R327). -/
def Config.valuesOK (g : Config) : Bool :=
  decide (1 ≤ g.pixelsPerLine) && decide (g.pixelsPerLine ≤ 32767)
    && decide (1 ≤ g.numberOfLines) && decide (g.numberOfLines ≤ 32767)
    && decide (g.offsetReg ≤ 31) && decide (1 ≤ g.extCgGlyphs) && decide (g.extCgGlyphs ≤ 256)
    && decide (g.pollLimit ≤ 2 ^ 32 - 1)

/-- The commands a byte must equal to be decoded as, in the order of R118's table. -/
def Commands.exact (k : Commands) : List Byte :=
  [k.setCursorPointer, k.setOffsetRegister, k.setAddressPointer, k.setTextHome, k.setTextArea, k.setGraphicHome,
   k.setGraphicArea, k.dataWriteInc, k.dataReadInc, k.dataWriteDec, k.dataReadDec, k.dataWriteNonvar, k.dataReadNonvar]

/-- The high four bits of a command byte (R118). -/
def highNibble (k : Byte) : Nibble := k.extractLsb' 4 4

/-- The low four bits of a command byte, the argument of the two mode commands (R118). -/
def lowNibble (k : Byte) : Nibble := k.extractLsb' 0 4

/-- "The parameters must be pairwise distinct under that matching" (R118); the two mode commands leave their low four
bits to the argument, and the display planes INIT enables fit in it (R119). -/
def Config.commandsOK (g : Config) : Bool :=
  decide g.cmd.exact.Nodup
    && g.cmd.exact.all (fun k => highNibble k != highNibble g.cmd.modeSet && highNibble k != highNibble g.cmd.displayMode)
    && highNibble g.cmd.modeSet != highNibble g.cmd.displayMode
    && lowNibble g.cmd.modeSet == 0 && lowNibble g.cmd.displayMode == 0
    && decide (g.dmGraphic.toNat + g.dmText.toNat + g.dmCursor.toNat ≤ 15)

/-- A configuration the rules of the spec speak of: R10 with the legal values of R7, R118 and R119. -/
def Config.ok (g : Config) : Bool := g.geomOK && g.valuesOK && g.commandsOK

end Sys2Proof
end

