-- ==== Sys2Proof/Machine/Operands.lean ====
section
/-! DEFINITION. Operand forms: the descriptor latch and what the running operation reads from it (10_state.md R23;
30_encoding.md R101, R106 to R108), the source of a written byte, and the low and high byte of a 16-bit quantity
(20_memory.md R73). -/

namespace Sys2Proof.Machine

/-- Step (1) of R110: the descriptor is latched whole when it is accepted (R23). -/
def Engine.latch (e : Engine) (d : Descriptor) : Engine :=
  { e with opc := d.opc, aux := d.aux, a := d.a, b := d.b, c := d.c, d := d.d }

/-- A coordinate or size field is a two's complement integer, `sext_32(field)` (R106). -/
def operand (field : Half) : Int := field.toInt

/-- The color: bit 0 of `E.AUX` (R30, R107). -/
def Engine.color (e : Engine) : Bool := e.aux.getLsbD 0

/-- The high byte of a 16-bit quantity: `v[15:8]` (R73). -/
def hiByte (v : Half) : Byte := v.extractLsb' 8 8

/-- The low byte of a 16-bit quantity: `v[7:0]` (R73). -/
def loByte (v : Half) : Byte := v.extractLsb' 0 8

/-- The device assembles `hi ++ lo` (R73, R175). -/
def assemble (lo hi : Byte) : Half := hi ++ lo

/-- `E.G[0..7]`: the latch's 64 operand bits as eight bytes (R23, R108). -/
def Engine.glyph (e : Engine) : List Byte :=
  [hiByte e.a, loByte e.a, hiByte e.b, loByte e.b, hiByte e.c, loByte e.c, hiByte e.d, loByte e.d]

/-- A working register as the integer it holds (R24). -/
def Engine.reg (e : Engine) (i : Fin 16) : Int := e.x[i].toInt

/-- Write a working register: an exact integer narrowed to `s32` (R24, R372). -/
def Engine.setReg (e : Engine) (i : Fin 16) (v : Int) : Engine := { e with x := e.x.set i (BitVec.ofInt 32 v) }

/-! Names of the working registers (R24). -/

def CURX : Fin 16 := 0
def CURY : Fin 16 := 1
def DX : Fin 16 := 2
def DY : Fin 16 := 3
def TWODX : Fin 16 := 4
def TWODY : Fin 16 := 5
def XINC : Fin 16 := 6
def YINC : Fin 16 := 7
def ACC : Fin 16 := 8
def CIRX : Fin 16 := 9
def CIRY : Fin 16 := 10
def XCH : Fin 16 := 11
def YCH : Fin 16 := 12
def RERR : Fin 16 := 13
def CNT : Fin 16 := 14
def ADDR : Fin 16 := 15

/-- The byte a bus write sends (R240, R242, R246). -/
def Source.value (v : Source) (e : Engine) : Byte :=
  match v with
  | .lit b => b
  | .tmp => e.tmp
  | .glyph => e.glyph.getD (e.reg CNT).toNat 0

end Sys2Proof.Machine
end

