-- ==== Sys2Proof/Machine/Addressing.lean ====
section
/-! DEFINITION. The translator: pure functions from coordinates and slots to device addresses, and the range predicates
(42_addressing.md R210 to R215). -/

namespace Sys2Proof.Machine

/-! ## The functions, on integers (R210 to R213) -/

/-- `text_address(x, y)` (R210). -/
def textAddress (g : Config) (x y : Int) : Int := g.textHome + x + g.textArea * y

/-- `graphic_address(x, y)` (R211); `x` is not negative. -/
def graphicAddress (g : Config) (x y : Int) : Int := g.graphicHome + x / g.fontWidth + g.graphicArea * y

/-- `cg_address(slot)` (R212). -/
def cgAddress (g : Config) (slot : Int) : Int := g.extCgHome + 8 * slot

/-- `bit_offset(x)` (R213); `x` is not negative. -/
def bitOffset (g : Config) (x : Int) : Int := g.fontWidth - 1 - x % g.fontWidth

/-- A translated address as the 16 bits the engine sends; under `GeomOK` nothing is lost (R71, R372). -/
def deviceAddress (a : Int) : Half := BitVec.ofInt 16 a

/-! ## Range predicates (R215) -/

/-- `InGraphic(x, y)` (R215). -/
def inGraphic (g : Config) (x y : Int) : Bool :=
  decide (0 ≤ x) && decide (x < g.pixelsPerLine) && decide (x / g.fontWidth < g.graphicArea)
    && decide (0 ≤ y) && decide (y < g.numberOfLines)

/-- `InText(x, y)` (R215). -/
def inText (g : Config) (x y : Int) : Bool :=
  decide (0 ≤ x) && decide (x < g.textArea) && decide (0 ≤ y) && decide (y < g.textRows)

/-- `InSlots(s)` (R215). -/
def inSlots (g : Config) (slot : Byte) : Bool := decide (slot.toNat < g.extCgGlyphs)

end Sys2Proof.Machine
end

