-- ==== Sys2Proof/Machine/Flags.lean ====
section
/-! DEFINITION. The conditions and output bits the spec gives the machine: the ready test of the status byte, the `FAULT` flag and
the host port's outputs (10_state.md R30, R46, R48; 30_encoding.md R120). There are no arithmetic flags (R30). -/

namespace Sys2Proof.Machine

/-- "`status & 0x03 == 3`": the device is ready (R120, R141). -/
def statusReady (s : Byte) : Bool := (s &&& 0x03) == 0x03

/-- `req_ready`: 1 exactly when `E.ST = IDLE` (R48). -/
def State.reqReady (s : State) : Bool := s.eng.st == .idle

/-- `fault`, the engine's one flag: 1 exactly when `E.ST = FAULT` (R30, R48). -/
def State.faultOut (s : State) : Bool := s.eng.st == .fault

/-- `rsp_data` (R48). -/
def State.rspData (s : State) : Half := s.eng.res

/-- `rsp_bof` (R48). -/
def State.rspBof (s : State) : BitVec 3 := s.eng.bof.extractLsb' 0 3

end Sys2Proof.Machine
end

