-- ==== Sys2Proof/Machine/Pins.lean ====
section
/-! DEFINITION. The Bus capability's calls and the pin-level sequences behind a transaction (10_state.md R47, R51; 40_protocol.md R148
to R151; 48_close.md R300). -/

namespace Sys2Proof.Machine

/-- Which strobe a call sets (R47). -/
inductive Strobe where
  | write | read
deriving DecidableEq, Repr

/-- The seven Bus calls (R47). -/
inductive BusCall where
  | setReset (l : Level)
  | setChipSelect (l : ChipSelect)
  | setCmdData (cd : Bool)
  | setStrobe (k : Strobe) (l : Level)
  | setDirection (d : Direction)
  | writeData (v : Byte)
  | readData
deriving DecidableEq, Repr

/-- The line state a call leaves (R47). -/
def BusCall.apply (b : Bus) : BusCall → Bus
  | .setReset l => { b with reset := l }
  | .setChipSelect l => { b with ce := l }
  | .setCmdData cd => { b with cd := cd }
  | .setStrobe .write l => { b with wr := l }
  | .setStrobe .read l => { b with rd := l }
  | .setDirection d => { b with dir := d }
  | .writeData v => { b with dout := v }
  | .readData => b

/-- The line state a sequence of calls leaves. -/
def Bus.perform (b : Bus) (calls : List BusCall) : Bus := calls.foldl BusCall.apply b

/-- The write transaction (R148). -/
def writeCalls (cd : Bool) (v : Byte) : List BusCall :=
  [.setDirection .output, .setCmdData cd, .setStrobe .write .asserted, .writeData v,
   .setChipSelect .low, .setChipSelect .high, .setStrobe .write .deasserted]

/-- The read transaction: a data read (R149), and with `cd` 1 a status read (R150). -/
def readCalls (cd : Bool) : List BusCall :=
  [.setDirection .input, .setCmdData cd, .setStrobe .read .asserted,
   .setChipSelect .low, .setChipSelect .high, .readData, .setStrobe .read .deasserted]

/-- The seven calls that end CLOSE (R300) and leave the quiescent state (R51). -/
def quiesceCalls : List BusCall :=
  [.setChipSelect .high, .setStrobe .write .deasserted, .setStrobe .read .deasserted,
   .setDirection .input, .setCmdData true, .writeData 0, .setReset .asserted]

end Sys2Proof.Machine
end

