-- ==== Sys2Proof/Machine/Ops.lean ====
section
/-! DEFINITION. The named operations over memory, free choices, sequencer and responses; taking a fault as one shared operation
(60_exceptions.md R320 to R323); engine reset, the only way back from a DeviceTimeout (R324; 70_reset_and_hazards.md R350, R351). -/

namespace Sys2Proof.Machine

/-! ## Updates of one part of the state -/

def State.setEng (s : State) (e : Engine) : State := { s with eng := e }
def State.setDev (s : State) (d : Device) : State := { s with dev := d }
def State.setBus (s : State) (b : Bus) : State := { s with bus := b }
def State.setHost (s : State) (h : HostPort) : State := { s with host := h }
def State.setFree (s : State) (f : Choices) : State := { s with free := f }

/-- Record a transaction in the trace (R14). -/
def State.record (s : State) (t : Transaction) : State := { s with trace := t :: s.trace }

/-! ## Device memory (R45, R71) -/

/-- The byte listed at an address, if one was written. -/
def Memory.find : Memory → Nat → Option Byte
  | [], _ => none
  | (b, v) :: rest, a => if a = b then some v else Memory.find rest a

/-- Store one byte, keeping the addresses strictly rising. -/
def Memory.store : Memory → Nat → Byte → Memory
  | [], a, v => [(a, v)]
  | (b, w) :: rest, a, v =>
    if a < b then (a, v) :: (b, w) :: rest
    else if a = b then (a, v) :: rest
    else (b, w) :: Memory.store rest a v

/-- The canonical form: addresses strictly rising. An unlisted address holds no value, so no listed byte repeats it. -/
def Memory.wf : Memory → Bool
  | [] => true
  | [_] => true
  | (a, _) :: (b, v) :: rest => decide (a < b) && Memory.wf ((b, v) :: rest)

/-- `MemRead(addr, 1)` of generation `g` (R13): the byte written, or the free byte the address holds until it is (R371). -/
def Memory.byte (m : Memory) (g a : Nat) : Byte := (Memory.find m a).getD (Config.unwrittenByte g a)

/-- `MemRead(addr, 1)` in a state (R13). -/
def State.memByte (s : State) (a : Nat) : Byte := Memory.byte s.dev.mem s.free.memGen a

/-- Addresses 0 to `RAM_SIZE - 1` are populated (R71, R80). -/
def populated (g : Config) (a : Nat) : Bool := decide (a < g.ramSize)

/-! ## Free choices (R49) -/

/-- The byte the device's next free choice takes. -/
def Choices.next (f : Choices) : Byte :=
  match f.given with
  | b :: _ => b
  | [] => f.after.getD (Config.freeByte f.drawn)

/-- The choices after one has been made. -/
def Choices.advance (f : Choices) : Choices := { f with given := f.given.tail, drawn := f.drawn + 1 }

/-! ## Responses and the sequencer -/

/-- Produce the response of the operation (R48, R323). -/
def State.respond (s : State) (code : Nibble) : State :=
  { s with
    host := { s.host with rspValid := true, rspCode := code }
    responses := { code := code, data := s.rspData, bof := s.rspBof } :: s.responses }

/-- The operation ran to its end: `E.SEQ = SEQ_IDLE`, `E.ST = IDLE`, response 0 (R21, R22, R323). -/
def State.finish (s : State) : State := (s.setEng { s.eng with st := .idle, seq := [] }).respond 0

/-- Go on with what remains of the pseudocode; with nothing left the operation has ended in this step (R22, R375). -/
def State.goto (s : State) (rest : List Micro) : State :=
  match rest with
  | [] => s.finish
  | _ :: _ => s.setEng { s.eng with seq := rest }

/-! ## Faults (R310, R320 to R322) -/

/-- The three faults (R310). -/
inductive FaultKind where
  | illegalOperation | coordinateOutOfRange | deviceTimeout
deriving DecidableEq, Repr

/-- The fault's code (R109, R310). -/
def FaultKind.code : FaultKind → Nibble
  | .illegalOperation => 1
  | .coordinateOutOfRange => 2
  | .deviceTimeout => 3

/-- The top-level state a fault leaves: a rejection is not sticky (R320), a DeviceTimeout is (R321). -/
def FaultKind.stateAfter : FaultKind → TopState
  | .illegalOperation => .idle
  | .coordinateOutOfRange => .idle
  | .deviceTimeout => .fault

/-- Take a fault: `E.ERR` gets the code, `E.EOP` the opcode byte, the response carries the code, the sequencer is idle. Nothing
else changes (R320, R321, R322). -/
def State.takeFault (s : State) (k : FaultKind) : State :=
  (s.setEng { s.eng with err := k.code, eop := s.eng.opc, seq := [], st := k.stateAfter }).respond k.code

/-! ## Resets -/

/-- The device as a hardware reset leaves it: the `n`-th draw of every unspecified register, an empty operand latch, no pending
read, busy; memory lost unless it is kept (R53, R351). -/
def Device.hardwareReset (d : Device) (n : Nat) (keepsMem : Bool) : Device where
  ap := (Config.unspecified .ap n).setWidth 16
  curx := (Config.unspecified .curx n).setWidth 8
  cury := (Config.unspecified .cury n).setWidth 8
  offs := (Config.unspecified .offs n).setWidth 8
  th := (Config.unspecified .th n).setWidth 16
  ta := (Config.unspecified .ta n).setWidth 16
  gh := (Config.unspecified .gh n).setWidth 16
  ga := (Config.unspecified .ga n).setWidth 16
  disp := (Config.unspecified .disp n).setWidth 4
  mode := (Config.unspecified .mode n).setWidth 4
  d1 := (Config.unspecified .d1 n).setWidth 8
  d2 := (Config.unspecified .d2 n).setWidth 8
  nop := 0
  rdl := (Config.unspecified .rdl n).setWidth 8
  rdv := false
  rdy := .busy
  mem := if keepsMem then d.mem else []

/-- What asserting the device's reset line does to the device (R53, R194). -/
def State.resetDevice (s : State) : State :=
  { s with
    dev := s.dev.hardwareReset s.free.resets s.cfg.resetKeepsMem
    free := { s.free with
      resets := s.free.resets + 1
      memGen := if s.cfg.resetKeepsMem then s.free.memGen else s.free.memGen + 1 } }

/-- The engine as engine reset leaves it (R50): the latch, the working registers, `E.TMP` and `E.BIT` (a value from 0 to 7, R25) are
unspecified. -/
def Engine.afterReset (n : Nat) : Engine where
  st := .idle
  seq := []
  opc := (Config.unspecified .opc n).setWidth 8
  aux := (Config.unspecified .aux n).setWidth 8
  a := (Config.unspecified .a n).setWidth 16
  b := (Config.unspecified .b n).setWidth 16
  c := (Config.unspecified .c n).setWidth 16
  d := (Config.unspecified .d n).setWidth 16
  x := Vector.ofFn fun i => Config.unspecified (.work i) n
  tmp := (Config.unspecified .tmp n).setWidth 8
  bit := ((Config.unspecified .bit n).setWidth 3).setWidth 8
  res := 0
  bof := 0
  err := 0
  eop := 0
  pcnt := 0

/-- Engine reset (R350): the engine's reset state, the Bus quiescent with the device's reset line asserted, the device reset, no
response. It abandons the operation in progress and is the only exit from `FAULT` (R324). -/
def State.engineReset (s : State) : State :=
  let r := s.resetDevice
  { r with
    eng := Engine.afterReset s.free.resets
    bus := Bus.quiescent
    host := { s.host with rspValid := false, rspCode := 0 } }

/-! ## Accepting an operation (R48, R110) -/

/-- The descriptor is latched and the last response withdrawn (R23, R48). -/
def State.accepted (s : State) (d : Descriptor) : State :=
  (s.setEng (s.eng.latch d)).setHost { s.host with rspValid := false }

/-- Begin an operation: `E.ST = RUN` with `E.SEQ` at the first step of its rule (R21, R22). Whether the device's reset line lets its first
transaction happen is the device's affair (R194, R354): see `pollPass` and `State.transferBlocked`. -/
def startOperation (i : Instr) (prog : List Micro) (s : State) : Host.Outcome State Fault Refusal :=
  let t := s.accepted (encode i)
  .next (t.setEng { t.eng with st := .run, seq := prog })

/-- An operation that makes no bus transaction ends in the step that accepts it, with its results written (R217 to R219). -/
def answer (i : Instr) (s : State) (results : Engine → Engine) : Host.Outcome State Fault Refusal :=
  let t := s.accepted (encode i)
  .next (t.setEng (results t.eng)).finish

/-- Step (3) of R110: the range check of the operation failed (R312). -/
def rejectRange (i : Instr) (s : State) : Host.Outcome State Fault Refusal :=
  .next ((s.accepted (encode i)).takeFault .coordinateOutOfRange)

end Sys2Proof.Machine
end

