-- ==== Sys2Proof/Machine/Device.lean ====
section
/-! DEFINITION. The device side: what each bus transaction does to the T6963 (41_device_commands.md R170 to R194) with the pin levels and the
trace entry of the transaction (40_protocol.md R142, R143, R148 to R150). -/

namespace Sys2Proof.Machine

/-! ## Command bytes (R118) -/

/-- The fifteen controller commands (R118, R176 to R190). -/
inductive DeviceCommand where
  | setCursorPointer | setOffsetRegister | setAddressPointer
  | setTextHome | setTextArea | setGraphicHome | setGraphicArea
  | modeSet (arg : Nibble) | displayMode (arg : Nibble)
  | dataWriteInc | dataReadInc | dataWriteDec | dataReadDec | dataWriteNonvar | dataReadNonvar
deriving DecidableEq, Repr

/-- The command a byte selects: exact equality with a parameter, the two mode commands by their high four bits (R118). -/
def decodeCommand (k : Commands) (b : Byte) : Option DeviceCommand :=
  if b = k.setCursorPointer then some .setCursorPointer
  else if b = k.setOffsetRegister then some .setOffsetRegister
  else if b = k.setAddressPointer then some .setAddressPointer
  else if b = k.setTextHome then some .setTextHome
  else if b = k.setTextArea then some .setTextArea
  else if b = k.setGraphicHome then some .setGraphicHome
  else if b = k.setGraphicArea then some .setGraphicArea
  else if highNibble b = highNibble k.modeSet then some (.modeSet (lowNibble b))
  else if highNibble b = highNibble k.displayMode then some (.displayMode (lowNibble b))
  else if b = k.dataWriteInc then some .dataWriteInc
  else if b = k.dataReadInc then some .dataReadInc
  else if b = k.dataWriteDec then some .dataWriteDec
  else if b = k.dataReadDec then some .dataReadDec
  else if b = k.dataWriteNonvar then some .dataWriteNonvar
  else if b = k.dataReadNonvar then some .dataReadNonvar
  else none

/-- The "operands consumed" column of R118. -/
def DeviceCommand.operands : DeviceCommand → Fin 3
  | .setCursorPointer | .setOffsetRegister | .setAddressPointer
  | .setTextHome | .setTextArea | .setGraphicHome | .setGraphicArea => 2
  | .dataWriteInc | .dataWriteDec | .dataWriteNonvar => 1
  | .modeSet _ | .displayMode _ | .dataReadInc | .dataReadDec | .dataReadNonvar => 0

/-- Whether a command accesses device memory at the address pointer (R185 to R190). -/
def DeviceCommand.accessesMemory : DeviceCommand → Bool
  | .dataWriteInc | .dataWriteDec | .dataWriteNonvar | .dataReadInc | .dataReadDec | .dataReadNonvar => true
  | .setCursorPointer | .setOffsetRegister | .setAddressPointer | .setTextHome | .setTextArea | .setGraphicHome | .setGraphicArea
  | .modeSet _ | .displayMode _ => false

/-! ## What a command does (R176 to R190) -/

/-- `MemWrite(T.AP, 1, d)` with `d = T.D1` (R185, R187, R189). -/
def Device.storeOperand (t : Device) : Device := { t with mem := Memory.store t.mem t.ap.toNat t.d1 }

/-- `T.RDL <- MemRead(T.AP, 1); T.RDV <- 1` (R186, R188, R190), in memory generation `g`. -/
def Device.fetchByte (t : Device) (g : Nat) : Device := { t with rdl := Memory.byte t.mem g t.ap.toNat, rdv := true }

/-- Step (4) of R175: the command's own rule, with `lo = T.D1`, `hi = T.D2`. Pointer arithmetic wraps (R79). -/
def Device.applyCommand (t : Device) (g : Nat) : DeviceCommand → Device
  | .setCursorPointer => { t with curx := t.d1, cury := t.d2 }
  | .setOffsetRegister => { t with offs := t.d1 }
  | .setAddressPointer => { t with ap := assemble t.d1 t.d2 }
  | .setTextHome => { t with th := assemble t.d1 t.d2 }
  | .setTextArea => { t with ta := assemble t.d1 t.d2 }
  | .setGraphicHome => { t with gh := assemble t.d1 t.d2 }
  | .setGraphicArea => { t with ga := assemble t.d1 t.d2 }
  | .modeSet arg => { t with mode := arg }
  | .displayMode arg => { t with disp := arg }
  | .dataWriteInc => { t.storeOperand with ap := t.ap + 1 }
  | .dataReadInc => { t.fetchByte g with ap := t.ap + 1 }
  | .dataWriteDec => { t.storeOperand with ap := t.ap - 1 }
  | .dataReadDec => { t.fetchByte g with ap := t.ap - 1 }
  | .dataWriteNonvar => t.storeOperand
  | .dataReadNonvar => t.fetchByte g

/-- Steps (3) to (6) of R175: the pending read is cancelled, the command acts, the operand latch is emptied, the device is busy. -/
def Device.runCommand (t : Device) (g : Nat) (c : DeviceCommand) : Device :=
  { ({ t with rdv := false } : Device).applyCommand g c with nop := 0, rdy := .busy }

/-! ## Transactions (R170) -/

/-- Why the device takes no transfer now: held in reset (R194) or busy (R193). -/
def State.transferBlocked (s : State) : Option Refusal :=
  match s.bus.reset with
  | .asserted => some .deviceHeldInReset
  | .deasserted =>
    match s.dev.rdy with
    | .busy => some .transferWhileBusy
    | .ready => none

/-- The byte a status read returns (R171): any value in bits 7:2; bits 1:0 are `0b11` when the device is ready, and when it is busy the
free choice of R172(b) and the ready bits it shows are one free byte. -/
def State.statusByte (s : State) : Byte :=
  match s.dev.rdy with
  | .ready => s.free.next ||| 0x03
  | .busy => s.free.next

/-- A status read (R140, R150, R171, R172): the device is ready from then on exactly when the byte says so; nothing else changes. -/
def State.statusRead (s : State) : State :=
  { s with
    dev := { s.dev with rdy := if statusReady s.statusByte then .ready else .busy }
    free := s.free.advance
    bus := s.bus.perform (readCalls true)
    trace := .statusRead s.statusByte :: s.trace }

/-- The byte a data read returns (R174): the read latch, or any value when no read is pending. -/
def State.dataByte (s : State) : Byte := if s.dev.rdv then s.dev.rdl else s.free.next

/-- What a data read leaves (R149, R174): no read pending, the device busy. -/
def State.dataRead (s : State) : State :=
  { s with
    dev := { s.dev with rdv := false, rdy := .busy }
    free := if s.dev.rdv then s.free else s.free.advance
    bus := s.bus.perform (readCalls false)
    trace := .dataRead s.dataByte :: s.trace }

/-- A data write (R148, R173): the byte goes into the operand latch; a third byte is refused. -/
def State.dataWrite (s : State) (v : Byte) : Host.Outcome State Fault Refusal :=
  let t := (s.setBus (s.bus.perform (writeCalls false v))).record (.dataWrite v)
  match s.dev.nop with
  | 0 => .next (t.setDev { s.dev with d1 := v, nop := 1, rdy := .busy })
  | 1 => .next (t.setDev { s.dev with d2 := v, nop := 2, rdy := .busy })
  | 2 => .refused .operandLatchFull

/-- A command write (R148, R175, R191, R192), in the order of R175's steps; an access to an unpopulated address stops (R80). -/
def State.commandWrite (s : State) (k : Byte) : Host.Outcome State Fault Refusal :=
  let t := (s.setBus (s.bus.perform (writeCalls true k))).record (.commandWrite k)
  match decodeCommand s.cfg.cmd k with
  | none => .refused (.unknownCommand k)
  | some c =>
    if s.dev.nop = c.operands then
      if c.accessesMemory && !populated s.cfg s.dev.ap.toNat then .fault (.unpopulatedAddress s.dev.ap.toNat)
      else .next (t.setDev (s.dev.runCommand s.free.memGen c))
    else .refused .operandCountMismatch

/-- `BusWrite(cd, v)` (R142): a command write when `cd` is 1, a data write when it is 0. -/
def State.busWrite (s : State) (cd : Bool) (v : Byte) : Host.Outcome State Fault Refusal :=
  match s.transferBlocked with
  | some r => .refused r
  | none => if cd then s.commandWrite v else s.dataWrite v

end Sys2Proof.Machine
end

