-- ==== Sys2Proof/Machine/Transfers.lean ====
section
/-! DEFINITION. The transfers and the internal procedures built from them, as the steps they stand for
(40_protocol.md R141, R144 to R147; 42_addressing.md R216; 43_pixel_memory.md R240, R242). -/

namespace Sys2Proof.Machine

/-! ## Helpers that only list steps -/

/-- `WriteCmd(k)` (R144). -/
def writeCmd (k : Byte) : List Micro := [.poll, .busWrite true (.lit k)]

/-- `WriteData(v)` (R145). -/
def writeData (v : Source) : List Micro := [.poll, .busWrite false v]

/-- `Send2(lo, hi, k)` (R147): low byte, high byte, command. -/
def send2 (lo hi k : Byte) : List Micro := writeData (.lit lo) ++ writeData (.lit hi) ++ writeCmd k

/-- `SendAddr(v, k)` (R122, R147). -/
def sendAddr (v : Half) (k : Byte) : List Micro := send2 (loByte v) (hiByte v) k

/-- `Send1(v, k)` (R147). -/
def send1 (v : Source) (k : Byte) : List Micro := writeData v ++ writeCmd k

/-- `Fill(A, n)` (R242). -/
def fill (addr : Half) (n : Nat) : List Micro := [.setAP addr, .clearCount, .fillLoop n]

/-- A byte that carries a small number, for example an area width with a high byte of 0 (R122, R156). -/
def byteOf (n : Nat) : Byte := BitVec.ofNat 8 n

/-! ## The poll (R141) -/

/-- One pass of `Poll()`: read the status; go on when it is ready; else count it, and at `POLL_LIMIT` take DeviceTimeout. Held in reset the
device answers no status read (R194, R354). -/
def pollPass (rest : List Micro) (s : State) : Host.Outcome State Fault Refusal :=
  match s.bus.reset with
  | .asserted => .refused .deviceHeldInReset
  | .deasserted =>
    let t := s.statusRead
    if statusReady s.statusByte then .next (t.goto rest)
    else
      let u := t.setEng { t.eng with pcnt := t.eng.pcnt + 1, seq := .pollAgain :: rest }
      if s.cfg.pollLimit ≠ 0 ∧ u.eng.pcnt.toNat = s.cfg.pollLimit then .next (u.takeFault .deviceTimeout)
      else .next u

/-- The first pass: `E.PCNT <- 0`, then a pass (R141). -/
def pollStart (rest : List Micro) (s : State) : Host.Outcome State Fault Refusal :=
  pollPass rest (s.setEng { s.eng with pcnt := 0 })

/-! ## Steps that make a transfer -/

/-- `BusWrite(cd, v)` as a step of the sequencer (R142). -/
def writeStep (cd : Bool) (v : Source) (rest : List Micro) (s : State) : Host.Outcome State Fault Refusal :=
  match s.busWrite cd (v.value s.eng) with
  | .next t => .next (t.goto rest)
  | .fault f => .fault f
  | .refused r => .refused r

/-- `E.TMP <- BusRead(0)` (R146, R240). -/
def readTmpStep (rest : List Micro) (s : State) : Host.Outcome State Fault Refusal :=
  match s.transferBlocked with
  | some r => .refused r
  | none =>
    let t := s.dataRead
    .next ((t.setEng { t.eng with tmp := s.dataByte }).goto rest)

/-- `E.RES <- zext_16(BusRead(cd))`: a data read (R154), or a status read after the poll (R155). -/
def readResStep (cd : Bool) (rest : List Micro) (s : State) : Host.Outcome State Fault Refusal :=
  match s.transferBlocked with
  | some r => .refused r
  | none =>
    let t := if cd then s.statusRead else s.dataRead
    let v := if cd then s.statusByte else s.dataByte
    .next ((t.setEng { t.eng with res := v.setWidth 16 }).goto rest)

/-! ## Internal procedures -/

/-- `SetAP(A)`: `x[15] <- A`, then the three transfers (R216). -/
def setApStep (addr : Half) (rest : List Micro) (s : State) : State :=
  (s.setEng (s.eng.setReg ADDR addr.toNat)).goto (sendAddr addr s.cfg.cmd.setAddressPointer ++ rest)

/-- `SetPixel(x, y, c)`: the address and the bit offset, then its transfers (R240). -/
def setPixelStep (x y : Int) (color : Bool) (rest : List Micro) (s : State) : State :=
  (s.setEng { s.eng with bit := BitVec.ofInt 8 (bitOffset s.cfg x) }).goto
    ([.setAP (deviceAddress (graphicAddress s.cfg x y))] ++ writeCmd s.cfg.cmd.dataReadNonvar ++ [.poll, .readTmp, .mergePixel color]
      ++ send1 .tmp s.cfg.cmd.dataWriteInc ++ rest)

/-- The byte with one bit set or cleared, never toggled (R240; 90_conflicts.md C1). -/
def mergeBit (m : Byte) (bit : Nat) (color : Bool) : Byte :=
  if color then m ||| ((1 : Byte) <<< bit) else m &&& (0xFF ^^^ ((1 : Byte) <<< bit))

/-- `E.TMP` with the pixel's bit set or cleared (R240). -/
def mergePixelStep (color : Bool) (rest : List Micro) (s : State) : State :=
  (s.setEng { s.eng with tmp := mergeBit s.eng.tmp s.eng.bit.toNat color }).goto rest

/-- `x[14] <- 0`. -/
def clearCountStep (rest : List Micro) (s : State) : State := (s.setEng (s.eng.setReg CNT 0)).goto rest

/-- `x[14] <- x[14] + 1`. -/
def bumpCountStep (rest : List Micro) (s : State) : State := (s.setEng (s.eng.setReg CNT (s.eng.reg CNT + 1))).goto rest

/-- `while x[14] < n do Send1(0x00, CMD_DATA_WRITE_INC); x[14] <- x[14] + 1` (R242). -/
def fillLoopStep (n : Nat) (rest : List Micro) (s : State) : State :=
  if s.eng.reg CNT < n then s.goto (send1 (.lit 0) s.cfg.cmd.dataWriteInc ++ [.bumpCount, .fillLoop n] ++ rest) else s.goto rest

/-- `while x[14] < 8 do Send1(glyph[x[14]], CMD_DATA_WRITE_INC); x[14] <- x[14] + 1` (R246). -/
def glyphLoopStep (rest : List Micro) (s : State) : State :=
  if s.eng.reg CNT < 8 then s.goto (send1 .glyph s.cfg.cmd.dataWriteInc ++ [.bumpCount, .glyphLoop] ++ rest) else s.goto rest

/-- Step 1 of INIT, first half: the device's hardware reset (R156, R194). -/
def assertResetStep (rest : List Micro) (s : State) : State :=
  let t := s.resetDevice
  (t.setBus (t.bus.perform [.setReset .asserted])).goto rest

/-- Step 1 of INIT, second half: the reset line is released (R156, R351). -/
def releaseResetStep (rest : List Micro) (s : State) : State := (s.setBus (s.bus.perform [.setReset .deasserted])).goto rest

/-- The end of CLOSE: seven Bus calls in one step, the last of them resets the device (R300). -/
def quiesceStep (rest : List Micro) (s : State) : State :=
  let t := s.resetDevice
  (t.setBus (t.bus.perform quiesceCalls)).goto rest

end Sys2Proof.Machine
end

