-- ==== Sys2Proof/Machine/Circle.lean ====
section
/-! DEFINITION. CIRC: the midpoint circle rasterizer (46_circle.md R280, R281). -/

namespace Sys2Proof.Machine

/-- CIRC's range check: the bounding square lies in the display (R281). -/
def circleInRange (g : Config) (cx cy r : Int) : Bool :=
  decide (0 ≤ r) && inGraphic g (cx - r) (cy - r) && inGraphic g (cx + r) (cy + r)

/-- The initial values of the five working registers (R280). -/
def Engine.circleStart (e : Engine) : Engine :=
  let r := operand e.c
  ((((e.setReg CIRX r).setReg CIRY 0).setReg XCH (1 - 2 * r)).setReg YCH 1).setReg RERR 0

/-- The updates at the end of a step (R280). -/
def Engine.circleStep (e : Engine) : Engine :=
  let e := e.setReg CIRY (e.reg CIRY + 1)
  let e := e.setReg RERR (e.reg RERR + e.reg YCH)
  let e := e.setReg YCH (e.reg YCH + 2)
  if 2 * e.reg RERR + e.reg XCH > 0 then
    let e := e.setReg CIRX (e.reg CIRX - 1)
    let e := e.setReg RERR (e.reg RERR + e.reg XCH)
    e.setReg XCH (e.reg XCH + 2)
  else e

/-- The eight octant-symmetric points of one step, in the order of R280. -/
def octantPoints (cx cy x y : Int) : List (Int × Int) :=
  [(cx + x, cy + y), (cx - x, cy + y), (cx - x, cy - y), (cx + x, cy - y),
   (cx + y, cy + x), (cx - y, cy + x), (cx - y, cy - x), (cx + y, cy - x)]

def circleStartStep (rest : List Micro) (s : State) : State := (s.setEng s.eng.circleStart).goto rest

/-- `while X >= Y do` the eight points and the updates (R280). -/
def circleLoopStep (rest : List Micro) (s : State) : State :=
  let x := s.eng.reg CIRX
  let y := s.eng.reg CIRY
  if x ≥ y then
    s.goto ((octantPoints (operand s.eng.a) (operand s.eng.b) x y).map (fun p => .setPixel p.1 p.2 s.eng.color)
      ++ [.circleStep, .circleLoop] ++ rest)
  else s.goto rest

def circleStepStep (rest : List Micro) (s : State) : State := (s.setEng s.eng.circleStep).goto rest

/-- CIRC (R280). -/
def execCirc (cx cy r : Half) (color : Bool) (s : State) : Host.Outcome State Fault Refusal :=
  if circleInRange s.cfg (operand cx) (operand cy) (operand r) then
    startOperation (.circ cx cy r color) [.circleStart, .circleLoop] s
  else rejectRange (.circ cx cy r color) s

end Sys2Proof.Machine
end

