-- ==== Sys2Proof/Machine/Line.lean ====
section
/-! DEFINITION. LINE: the Bresenham line rasterizer (47_line.md R290, R291). -/

namespace Sys2Proof.Machine

/-- LINE's range check: both ends (R291). -/
def lineInRange (g : Config) (x1 y1 x2 y2 : Int) : Bool := inGraphic g x1 y1 && inGraphic g x2 y2

/-- The assignments before the start pixel, sign folding included (R290). -/
def Engine.lineStart (e : Engine) : Engine :=
  let dx := operand e.c - operand e.a
  let dy := operand e.d - operand e.b
  let e := ((((((e.setReg DX dx).setReg DY dy).setReg TWODX (dx + dx)).setReg TWODY (dy + dy)).setReg CURX (operand e.a)).setReg CURY
    (operand e.b))
  let e := (e.setReg XINC 1).setReg YINC 1
  let e := if dx < 0 then ((e.setReg XINC (-1)).setReg DX (-dx)).setReg TWODX (-(dx + dx)) else e
  if dy < 0 then ((e.setReg YINC (-1)).setReg DY (-dy)).setReg TWODY (-(dy + dy)) else e

/-- One pass of the x-driven loop before its `SetPixel` (R290). -/
def Engine.lineAdvanceX (e : Engine) : Engine :=
  let e := e.setReg CURX (e.reg CURX + e.reg XINC)
  let e := e.setReg ACC (e.reg ACC + e.reg TWODY)
  if e.reg ACC > e.reg DX then
    let e := e.setReg CURY (e.reg CURY + e.reg YINC)
    e.setReg ACC (e.reg ACC - e.reg TWODX)
  else e

/-- One pass of the y-driven loop before its `SetPixel` (R290). -/
def Engine.lineAdvanceY (e : Engine) : Engine :=
  let e := e.setReg CURY (e.reg CURY + e.reg YINC)
  let e := e.setReg ACC (e.reg ACC + e.reg TWODX)
  if e.reg ACC > e.reg DY then
    let e := e.setReg CURX (e.reg CURX + e.reg XINC)
    e.setReg ACC (e.reg ACC - e.reg TWODY)
  else e

/-- The initial values, then the start pixel, "always" (R290). -/
def lineStartStep (rest : List Micro) (s : State) : State :=
  (s.setEng s.eng.lineStart).goto ([.setPixel (operand s.eng.a) (operand s.eng.b) s.eng.color, .lineBranch] ++ rest)

/-- `if DX != 0 or DY != 0 then ACC <- 0`, and the choice of the driving axis: `DY <= DX` is x-driven (R290). -/
def lineBranchStep (rest : List Micro) (s : State) : State :=
  if s.eng.reg DX ≠ 0 ∨ s.eng.reg DY ≠ 0 then
    (s.setEng (s.eng.setReg ACC 0)).goto
      ((if s.eng.reg DY ≤ s.eng.reg DX then [.lineStepX] else [.lineStepY]) ++ rest)
  else s.goto rest

def lineStepXStep (rest : List Micro) (s : State) : State :=
  let e := s.eng.lineAdvanceX
  (s.setEng e).goto ([.setPixel (e.reg CURX) (e.reg CURY) e.color, .lineUntilX] ++ rest)

/-- `until CURX = x2` (R290). -/
def lineUntilXStep (rest : List Micro) (s : State) : State :=
  if s.eng.reg CURX = operand s.eng.c then s.goto rest else s.goto (.lineStepX :: rest)

def lineStepYStep (rest : List Micro) (s : State) : State :=
  let e := s.eng.lineAdvanceY
  (s.setEng e).goto ([.setPixel (e.reg CURX) (e.reg CURY) e.color, .lineUntilY] ++ rest)

/-- `until CURY = y2` (R290). -/
def lineUntilYStep (rest : List Micro) (s : State) : State :=
  if s.eng.reg CURY = operand s.eng.d then s.goto rest else s.goto (.lineStepY :: rest)

/-- LINE (R290). -/
def execLine (x1 y1 x2 y2 : Half) (color : Bool) (s : State) : Host.Outcome State Fault Refusal :=
  if lineInRange s.cfg (operand x1) (operand y1) (operand x2) (operand y2) then
    startOperation (.line x1 y1 x2 y2 color) [.lineStart] s
  else rejectRange (.line x1 y1 x2 y2 color) s

end Sys2Proof.Machine
end

