-- ==== Sys2Proof/Machine/Pixel.lean ====
section
/-! DEFINITION. SPX, the area clears CLT, CLG, CLC, and DEFC (43_pixel_memory.md R241 to R246). -/

namespace Sys2Proof.Machine

/-- SPX: `SetPixel(x, y, c)` (R241). -/
def execSpx (x y : Half) (color : Bool) (s : State) : Host.Outcome State Fault Refusal :=
  if inGraphic s.cfg (operand x) (operand y) then
    startOperation (.spx x y color) [.setPixel (operand x) (operand y) color] s
  else rejectRange (.spx x y color) s

/-- CLT: `Fill(TEXT_HOME, TEXT_SIZE)` (R243). -/
def execClt (s : State) : Host.Outcome State Fault Refusal :=
  startOperation .clt (fill (BitVec.ofNat 16 s.cfg.textHome) s.cfg.textSize) s

/-- CLG: `Fill(GRAPHIC_HOME, GRAPHIC_SIZE)` (R244). -/
def execClg (s : State) : Host.Outcome State Fault Refusal :=
  startOperation .clg (fill (BitVec.ofNat 16 s.cfg.graphicHome) s.cfg.graphicSize) s

/-- CLC: `Fill(EXT_CG_HOME, EXT_CG_SIZE)` (R245). -/
def execClc (s : State) : Host.Outcome State Fault Refusal :=
  startOperation .clc (fill (BitVec.ofNat 16 s.cfg.extCgHome) s.cfg.extCgSize) s

/-- DEFC: the pointer at `cg_address(s)`, then the eight glyph bytes (R246). -/
def execDefc (slot : Byte) (glyph : List Byte) (s : State) : Host.Outcome State Fault Refusal :=
  if inSlots s.cfg slot then
    startOperation (.defc slot glyph) [.setAP (deviceAddress (cgAddress s.cfg slot.toNat)), .clearCount, .glyphLoop] s
  else rejectRange (.defc slot glyph) s

end Sys2Proof.Machine
end

