-- ==== Sys2Proof/Machine/Pointer.lean ====
section
/-! DEFINITION. The query operations TXA, GRA, CGA and the pointer and register programming operations SAP, SCP, SOR
(42_addressing.md R217 to R222). -/

namespace Sys2Proof.Machine

/-- TXA: `E.RES <- text_address(x, y)` (R217). -/
def execTxa (x y : Half) (s : State) : Host.Outcome State Fault Refusal :=
  if inText s.cfg (operand x) (operand y) then
    answer (.txa x y) s fun e => { e with res := deviceAddress (textAddress s.cfg (operand x) (operand y)) }
  else rejectRange (.txa x y) s

/-- GRA: `E.RES <- graphic_address(x, y); E.BOF <- bit_offset(x)` (R218). -/
def execGra (x y : Half) (s : State) : Host.Outcome State Fault Refusal :=
  if inGraphic s.cfg (operand x) (operand y) then
    answer (.gra x y) s fun e => { e with
      res := deviceAddress (graphicAddress s.cfg (operand x) (operand y))
      bof := BitVec.ofInt 8 (bitOffset s.cfg (operand x)) }
  else rejectRange (.gra x y) s

/-- CGA: `E.RES <- cg_address(s)` (R219). -/
def execCga (slot : Byte) (s : State) : Host.Outcome State Fault Refusal :=
  if inSlots s.cfg slot then answer (.cga slot) s fun e => { e with res := deviceAddress (cgAddress s.cfg slot.toNat) }
  else rejectRange (.cga slot) s

/-- SAP: `SetAP(text_address(x, y))` (R220). -/
def execSap (x y : Half) (s : State) : Host.Outcome State Fault Refusal :=
  if inText s.cfg (operand x) (operand y) then
    startOperation (.sap x y) [.setAP (deviceAddress (textAddress s.cfg (operand x) (operand y)))] s
  else rejectRange (.sap x y) s

/-- SCP: `Send2(x[7:0], y[7:0], CMD_SET_CURSOR_POINTER)` (R221). -/
def execScp (x y : Half) (s : State) : Host.Outcome State Fault Refusal :=
  if inText s.cfg (operand x) (operand y) then
    startOperation (.scp x y) (send2 (loByte x) (loByte y) s.cfg.cmd.setCursorPointer) s
  else rejectRange (.scp x y) s

/-- SOR: `Send2(v, 0, CMD_SET_OFFSET_REGISTER)` (R222). -/
def execSor (v : Byte) (s : State) : Host.Outcome State Fault Refusal :=
  startOperation (.sor v) (send2 v 0 s.cfg.cmd.setOffsetRegister) s

end Sys2Proof.Machine
end

