-- ==== Sys2Proof/Machine/Protocol.lean ====
section
/-! DEFINITION. The operations that expose the protocol: WRC, WRD, RDD, RDS, INIT (40_protocol.md R152 to R156). -/

namespace Sys2Proof.Machine

/-- WRC: `WriteCmd(v)` (R152). -/
def execWrc (v : Byte) (s : State) : Host.Outcome State Fault Refusal := startOperation (.wrc v) (writeCmd v) s

/-- WRD: `WriteData(v)` (R153). -/
def execWrd (v : Byte) (s : State) : Host.Outcome State Fault Refusal := startOperation (.wrd v) (writeData (.lit v)) s

/-- RDD: `E.RES <- zext_16(ReadData())` (R154). -/
def execRdd (s : State) : Host.Outcome State Fault Refusal := startOperation .rdd [.poll, .readRes false] s

/-- RDS: `Poll(); E.RES <- zext_16(BusRead(1))` (R155). -/
def execRds (s : State) : Host.Outcome State Fault Refusal := startOperation .rds [.poll, .readRes true] s

/-- The display-mode byte INIT sends: `CMD_DISPLAY_MODE + DM_GRAPHIC + DM_TEXT + (DM_CURSOR if CURSOR_ON else 0)` (R119, R156 step 6). -/
def displayByte (g : Config) : Byte :=
  g.cmd.displayMode + g.dmGraphic.setWidth 8 + g.dmText.setWidth 8 + (if g.cursorOn then g.dmCursor.setWidth 8 else 0)

/-- The mode-set byte INIT sends: `CMD_MODE_SET + MS_OR` (R119, R156 step 7). -/
def modeByte (g : Config) : Byte := g.cmd.modeSet + g.msOr.setWidth 8

/-- Steps 2 to 7 of INIT: twenty transfers (R156). -/
def initTransfers (g : Config) : List Micro :=
  sendAddr (BitVec.ofNat 16 g.textHome) g.cmd.setTextHome
    ++ send2 (byteOf g.textArea) 0 g.cmd.setTextArea
    ++ sendAddr (BitVec.ofNat 16 g.graphicHome) g.cmd.setGraphicHome
    ++ send2 (byteOf g.graphicArea) 0 g.cmd.setGraphicArea
    ++ send2 (byteOf g.offsetReg) 0 g.cmd.setOffsetRegister
    ++ send2 0 0 g.cmd.setAddressPointer
    ++ writeCmd (displayByte g)
    ++ writeCmd (modeByte g)

/-- INIT: the seven steps in their order (R156). It needs no released reset line: it releases it (R354). -/
def execInit (s : State) : Host.Outcome State Fault Refusal :=
  startOperation .init ([.assertReset, .settle, .releaseReset] ++ initTransfers s.cfg) s

end Sys2Proof.Machine
end

