-- ==== Sys2Proof/Machine/Rectangle.lean ====
section
/-! DEFINITION. RECT: the rectangle outline (45_rectangle.md R270, R271). -/

namespace Sys2Proof.Machine

/-- RECT's range check (R271). -/
def rectInRange (g : Config) (x y w h : Int) : Bool :=
  decide (1 ≤ w) && decide (1 ≤ h) && inGraphic g x y && inGraphic g (x + w - 1) (y + h - 1)

/-- One pass of the loop over the two vertical edges (R270). -/
def rectVerticalStep (rest : List Micro) (s : State) : State :=
  let x := operand s.eng.a
  let y := operand s.eng.b
  let w := operand s.eng.c
  let h := operand s.eng.d
  let c := s.eng.color
  let n := s.eng.reg CNT
  if n < h then s.goto ([.setPixel x (y + n) c, .setPixel (x + w - 1) (y + n) c, .bumpCount, .rectVertical] ++ rest) else s.goto rest

/-- One pass of the loop over the two horizontal edges (R270). -/
def rectHorizontalStep (rest : List Micro) (s : State) : State :=
  let x := operand s.eng.a
  let y := operand s.eng.b
  let w := operand s.eng.c
  let h := operand s.eng.d
  let c := s.eng.color
  let n := s.eng.reg CNT
  if n < w then s.goto ([.setPixel (x + n) y c, .setPixel (x + n) (y + h - 1) c, .bumpCount, .rectHorizontal] ++ rest) else s.goto rest

/-- RECT (R270): the vertical edges, then the horizontal edges. -/
def execRect (x y w h : Half) (color : Bool) (s : State) : Host.Outcome State Fault Refusal :=
  if rectInRange s.cfg (operand x) (operand y) (operand w) (operand h) then
    startOperation (.rect x y w h color) [.clearCount, .rectVertical, .clearCount, .rectHorizontal] s
  else rejectRange (.rect x y w h color) s

end Sys2Proof.Machine
end

