-- ==== Sys2Proof/Machine/Shutdown.lean ====
section
/-! DEFINITION. CLOSE: blank both planes and put the bus to rest (48_close.md R300). -/

namespace Sys2Proof.Machine

/-- CLOSE: the two fills, text first, then the seven Bus calls (R300). -/
def execClose (s : State) : Host.Outcome State Fault Refusal :=
  startOperation .close
    (fill (BitVec.ofNat 16 s.cfg.textHome) s.cfg.textSize
      ++ fill (BitVec.ofNat 16 s.cfg.graphicHome) s.cfg.graphicSize ++ [.quiesce]) s

end Sys2Proof.Machine
end

