-- ==== Sys2Proof/Machine/Text.lean ====
section
/-! DEFINITION. WCH: one character at the device's address pointer (44_text.md R260, R262). -/

namespace Sys2Proof.Machine

/-- The device's character code: `trunc_8(ch - 32)` (R82, R260). -/
def characterCode (ch : Byte) : Byte := ch - 32

/-- WCH: `Send1(trunc_8(ch - 32), CMD_DATA_WRITE_INC)`; it does not program the pointer (R260; 90_conflicts.md C3). -/
def execWch (ch : Byte) (s : State) : Host.Outcome State Fault Refusal :=
  startOperation (.wch ch) (send1 (.lit (characterCode ch)) s.cfg.cmd.dataWriteInc) s

end Sys2Proof.Machine
end

