-- ==== Sys2Proof/Machine/Dispatch.lean ====
section
/-! DEFINITION. One arm per operation: what accepting it does. -/

namespace Sys2Proof.Machine

def exec (i : Instr) (s : State) : Host.Outcome State Fault Refusal :=
  match i with
  | .wrc v => Sys2Proof.Machine.execWrc v s
  | .wrd v => Sys2Proof.Machine.execWrd v s
  | .rdd => Sys2Proof.Machine.execRdd s
  | .rds => Sys2Proof.Machine.execRds s
  | .init => Sys2Proof.Machine.execInit s
  | .close => Sys2Proof.Machine.execClose s
  | .txa x y => Sys2Proof.Machine.execTxa x y s
  | .gra x y => Sys2Proof.Machine.execGra x y s
  | .cga slot => Sys2Proof.Machine.execCga slot s
  | .sap x y => Sys2Proof.Machine.execSap x y s
  | .scp x y => Sys2Proof.Machine.execScp x y s
  | .sor v => Sys2Proof.Machine.execSor v s
  | .spx x y color => Sys2Proof.Machine.execSpx x y color s
  | .clt => Sys2Proof.Machine.execClt s
  | .clg => Sys2Proof.Machine.execClg s
  | .clc => Sys2Proof.Machine.execClc s
  | .defc slot glyph => Sys2Proof.Machine.execDefc slot glyph s
  | .wch ch => Sys2Proof.Machine.execWch ch s
  | .rect x y w h color => Sys2Proof.Machine.execRect x y w h color s
  | .circ cx cy r color => Sys2Proof.Machine.execCirc cx cy r color s
  | .line x1 y1 x2 y2 color => Sys2Proof.Machine.execLine x1 y1 x2 y2 color s

end Sys2Proof.Machine
end

