-- ==== Sys2Proof/Machine/Sequencer.lean ====
section
/-! DEFINITION. The sequencer: one step of the running operation (10_state.md R22; 70_reset_and_hazards.md R373). -/

namespace Sys2Proof.Machine

/-- One step of the pseudocode, with what remains after it. -/
def microStep (m : Micro) (rest : List Micro) (s : State) : Host.Outcome State Fault Refusal :=
  match m with
  | .poll => pollStart rest s
  | .pollAgain => pollPass rest s
  | .busWrite cd v => writeStep cd v rest s
  | .readTmp => readTmpStep rest s
  | .readRes cd => readResStep cd rest s
  | .setAP addr => .next (setApStep addr rest s)
  | .setPixel x y color => .next (setPixelStep x y color rest s)
  | .mergePixel color => .next (mergePixelStep color rest s)
  | .clearCount => .next (clearCountStep rest s)
  | .bumpCount => .next (bumpCountStep rest s)
  | .fillLoop n => .next (fillLoopStep n rest s)
  | .glyphLoop => .next (glyphLoopStep rest s)
  | .rectVertical => .next (rectVerticalStep rest s)
  | .rectHorizontal => .next (rectHorizontalStep rest s)
  | .circleStart => .next (circleStartStep rest s)
  | .circleLoop => .next (circleLoopStep rest s)
  | .circleStep => .next (circleStepStep rest s)
  | .lineStart => .next (lineStartStep rest s)
  | .lineBranch => .next (lineBranchStep rest s)
  | .lineStepX => .next (lineStepXStep rest s)
  | .lineUntilX => .next (lineUntilXStep rest s)
  | .lineStepY => .next (lineStepYStep rest s)
  | .lineUntilY => .next (lineUntilYStep rest s)
  | .assertReset => .next (assertResetStep rest s)
  | .settle => .next (s.goto rest)
  | .releaseReset => .next (releaseResetStep rest s)
  | .quiesce => .next (quiesceStep rest s)

/-- The step of an engine in `E.ST = RUN` (R21, R22). With nothing left the operation has ended. -/
def sequencerStep (s : State) : Host.Outcome State Fault Refusal :=
  match s.eng.seq with
  | [] => .next s.finish
  | m :: rest => microStep m rest s

end Sys2Proof.Machine
end

