-- ==== Sys2Proof/Machine/Cycle.lean ====
section
/-! DEFINITION. One step of the machine as the host port and the top-level state direct it (10_state.md R21, R48; 30_encoding.md R110;
60_exceptions.md R311, R320, R324, R325; 70_reset_and_hazards.md R350, R375), and a descriptor presented by the host. -/

namespace Sys2Proof.Machine

/-- Take a descriptor: latch, decode, then the operation's own checks and start; a descriptor that decodes to nothing raises
IllegalOperation (R110, R311). -/
def acceptDescriptor (d : Descriptor) (s : State) : Host.Outcome State Fault Refusal :=
  match decode d with
  | .ok i => exec i s
  | .error _ => .next ((s.accepted d).takeFault .illegalOperation)

/-- An engine in `E.ST = IDLE`: it accepts the descriptor the host presents; with none the state does not change (R48, R375(b)). -/
def idleStep (s : State) : Host.Outcome State Fault Refusal :=
  match s.host.req with
  | [] => .next s
  | d :: rest => acceptDescriptor d (s.setHost { s.host with req := rest })

/-- One step with `rst` low: the running operation goes on (R22); `FAULT` takes no step of its own (R324, R325). -/
def stepUnreset (s : State) : Host.Outcome State Fault Refusal :=
  match s.eng.st with
  | .idle => idleStep s
  | .run => sequencerStep s
  | .fault => .next s

/-- One step of the machine: while `rst` is high the engine is in reset and accepts nothing (R350). -/
def cycle (s : State) : Host.Outcome State Fault Refusal :=
  match s.host.rst with
  | true :: rest => .next (s.setHost { s.host with rst := rest }).engineReset
  | false :: rest => stepUnreset (s.setHost { s.host with rst := rest })
  | [] => stepUnreset s

/-- The host presents a descriptor to an engine that can take it at the next step: `rst` low, `E.ST = IDLE`, the descriptor next in
line. -/
def State.present (s : State) (d : Descriptor) : State :=
  { s with
    eng := { s.eng with st := .idle, seq := [] }
    host := { s.host with rst := [], req := d :: s.host.req } }

end Sys2Proof.Machine
end

