-- ==== Sys2Proof/Machine/Step.lean ====
section
/-! DEFINITION. The step of the machine and the state in which the next step accepts a given descriptor. -/

namespace Sys2Proof.Machine

/-- One step: a bus transaction, an internal step of the engine, the acceptance of a descriptor, or an engine reset
(00_scope.md R3; 70_reset_and_hazards.md R373). -/
def step (s : State) : Host.Outcome State Fault Refusal := cycle s

/-- `s` with the host presenting the descriptor whose low `nbits` bits are `w`, so that the very next step accepts and runs it. -/
def State.withFetchWord (s : State) (nbits w : Nat) : State := s.present (BitVec.ofNat 80 (w % 2 ^ nbits))

end Sys2Proof.Machine
end

