-- ==== Sys2Proof/Machine/HostSide.lean ====
section
/-! DEFINITION. The host's duties before a descriptor exists: truncation of real-valued coordinates, the assembler and the
pseudo-operation WSTR (00_scope.md R6; 30_encoding.md R106, R124, R125; 44_text.md R261; 70_reset_and_hazards.md R370). -/

namespace Sys2Proof.Machine

/-- A 16-bit operand the host can send: an integer in the range of `s16`, or nothing (R106). -/
def sendOperand (t : Int) : Option Half := if -32768 ≤ t ∧ t ≤ 32767 then some (BitVec.ofInt 16 t) else none

/-- The operand for the real number `num / den`, `den` positive: truncated toward zero, and only if it fits (R106, R370; 90_conflicts.md C2). -/
def truncateOperand (num : Int) (den : Nat) : Option Half := sendOperand (num.tdiv den)

/-- A `u8` operand (R106). -/
def sendByte (t : Int) : Option Byte := if 0 ≤ t ∧ t ≤ 255 then some (BitVec.ofInt 8 t) else none

/-- A color is written `1` or `0` (R124). -/
def sendColor (t : Int) : Option Bool := if t = 1 then some true else if t = 0 then some false else none

/-- One line of the assembler: the mnemonic and its operands as numbers, in the order of R102's format row, a color last (R124). -/
def assembleLine (mnemonic : String) (operands : List Int) : Option Instr :=
  match mnemonic, operands with
  | "WRC", [v] => (sendByte v).map .wrc
  | "WRD", [v] => (sendByte v).map .wrd
  | "RDD", [] => some .rdd
  | "RDS", [] => some .rds
  | "INIT", [] => some .init
  | "CLOSE", [] => some .close
  | "TXA", [x, y] => do return .txa (← sendOperand x) (← sendOperand y)
  | "GRA", [x, y] => do return .gra (← sendOperand x) (← sendOperand y)
  | "CGA", [slot] => (sendByte slot).map .cga
  | "SAP", [x, y] => do return .sap (← sendOperand x) (← sendOperand y)
  | "SCP", [x, y] => do return .scp (← sendOperand x) (← sendOperand y)
  | "SOR", [v] => (sendByte v).map .sor
  | "SPX", [x, y, c] => do return .spx (← sendOperand x) (← sendOperand y) (← sendColor c)
  | "CLT", [] => some .clt
  | "CLG", [] => some .clg
  | "CLC", [] => some .clc
  | "DEFC", [slot, g0, g1, g2, g3, g4, g5, g6, g7] => do
      return .defc (← sendByte slot) (← [g0, g1, g2, g3, g4, g5, g6, g7].mapM sendByte)
  | "WCH", [ch] => (sendByte ch).map .wch
  | "RECT", [x, y, w, h, c] => do
      return .rect (← sendOperand x) (← sendOperand y) (← sendOperand w) (← sendOperand h) (← sendColor c)
  | "CIRC", [cx, cy, r, c] => do return .circ (← sendOperand cx) (← sendOperand cy) (← sendOperand r) (← sendColor c)
  | "LINE", [x1, y1, x2, y2, c] => do
      return .line (← sendOperand x1) (← sendOperand y1) (← sendOperand x2) (← sendOperand y2) (← sendColor c)
  | _, _ => none

/-- `WSTR "s"`: one WCH for each code point, in order, and nothing for the empty string; a code point above 255 has no expansion
(R125, R261). -/
def expandString : List Nat → Option (List Instr)
  | [] => some []
  | c :: rest => if c ≤ 255 then (expandString rest).map (.wch (BitVec.ofNat 8 c) :: ·) else none

/-! ## The text of a line (R124, R125; log entry 23) -/

/-- What a line consists of: words (a mnemonic or a number), commas, quoted characters and quoted strings. -/
inductive Token where
  | word (chars : List Char)
  | comma
  | char (c : Char)
  | str (chars : List Char)
deriving DecidableEq, Repr

/-- Where in a line the reader stands: between tokens, in a word or a string (its characters so far, the last first), after the quote of a quoted
character, or after its character. -/
inductive Reading where
  | between
  | word (read : List Char)
  | str (read : List Char)
  | quote
  | quoted (c : Char)
deriving DecidableEq, Repr

/-- A space or a tab. -/
def isBlank (c : Char) : Bool := c == ' ' || c == '\t'

/-- The tokens of a line; text after `;` is comment (R124). -/
def tokens : Reading → List Char → Option (List Token)
  | .between, [] => some []
  | .between, c :: cs =>
    if c = ';' then some []
    else if isBlank c then tokens .between cs
    else if c = ',' then (tokens .between cs).map (.comma :: ·)
    else if c = '"' then tokens (.str []) cs
    else if c = '\'' then tokens .quote cs
    else tokens (.word [c]) cs
  | .word read, [] => some [.word read.reverse]
  | .word read, c :: cs =>
    if c = ';' then some [.word read.reverse]
    else if isBlank c then (tokens .between cs).map (.word read.reverse :: ·)
    else if c = ',' then (tokens .between cs).map (.word read.reverse :: .comma :: ·)
    else tokens (.word (c :: read)) cs
  | .str _, [] => none
  | .str read, c :: cs => if c = '"' then (tokens .between cs).map (.str read.reverse :: ·) else tokens (.str (c :: read)) cs
  | .quote, [] => none
  | .quote, c :: cs => tokens (.quoted c) cs
  | .quoted _, [] => none
  | .quoted q, c :: cs => if c = '\'' then (tokens .between cs).map (.char q :: ·) else none

/-- The value of a digit, decimal or hexadecimal. -/
def digitValue (c : Char) : Option Nat :=
  let n := c.toNat
  if 48 ≤ n ∧ n ≤ 57 then some (n - 48)
  else if 65 ≤ n ∧ n ≤ 70 then some (n - 55)
  else if 97 ≤ n ∧ n ≤ 102 then some (n - 87)
  else none

/-- The number a run of digits adds to `n` in a base. -/
def readDigits (base : Nat) : Nat → List Char → Option Nat
  | n, [] => some n
  | n, c :: cs =>
    match digitValue c with
    | none => none
    | some d => if d < base then readDigits base (base * n + d) cs else none

/-- At least one digit. -/
def readNat (base : Nat) (cs : List Char) : Option Nat := if cs = [] then none else readDigits base 0 cs

/-- An integer: decimal, or hexadecimal with the prefix `0x` (R124); a minus sign may stand before it. -/
def readInt : List Char → Option Int
  | '-' :: '0' :: 'x' :: cs => (readNat 16 cs).map fun n => -(n : Int)
  | '-' :: cs => (readNat 10 cs).map fun n => -(n : Int)
  | '0' :: 'x' :: cs => (readNat 16 cs).map fun n => (n : Int)
  | cs => (readNat 10 cs).map fun n => (n : Int)

/-- The operands between commas; none where two stand without a comma or a comma without an operand. -/
def commaSeparated : List Token → Option (List Token)
  | [] => some []
  | [t] => if t = .comma then none else some [t]
  | t :: .comma :: u :: rest => if t = .comma then none else (commaSeparated (u :: rest)).map (t :: ·)
  | _ => none

/-- An operand that is a number. -/
def numberOf : Token → Option Int
  | .word cs => readInt cs
  | .comma | .char _ | .str _ => none

/-- The operations one line of text stands for: none for a blank line or a comment, one WCH a character for WSTR, else one; a line that is none of the
spec's forms is refused (R124, R125). -/
def assembleText (line : String) : Option (List Instr) :=
  match tokens .between line.toList with
  | some [] => some []
  | some (.word m :: rest) =>
    match commaSeparated rest with
    | some [.str s] => if m = ['W', 'S', 'T', 'R'] then expandString (s.map Char.toNat) else none
    | some [.char c] => if m = ['W', 'C', 'H'] then (sendByte c.toNat).map fun v => [.wch v] else none
    | some operands => do
        let numbers ← operands.mapM numberOf
        let i ← assembleLine (String.ofList m) numbers
        return [i]
    | none => none
  | _ => none

/-- The descriptors of a program, one line of text after the other. -/
def assembleProgram (lines : List String) : Option (List Descriptor) :=
  (lines.mapM assembleText).map fun parts => (parts.flatten).map encode

end Sys2Proof.Machine
end

