-- ==== Sys2Proof/Safety.lean ====
section
/-! DEFINITION. The terms claims are stated in: the named predicates of 70_reset_and_hazards.md R377, the pixel observation
(20_memory.md R89), runs, what ended operations leave, the points of the two rasterizers on mathematical integers, and the invariant of a step. -/

namespace Sys2Proof.Machine

/-! ## Predicates on a state (R377) -/

/-- `AfterReset` (R377): as engine reset leaves the machine (R50, R51, R53). -/
def AfterReset (s : State) : Prop :=
  s.eng.st = .idle ∧ s.eng.seq = [] ∧ s.eng.err = 0 ∧ s.eng.eop = 0 ∧ s.eng.res = 0 ∧ s.eng.bof = 0 ∧ s.eng.pcnt = 0
    ∧ s.bus = { reset := .asserted, ce := .high, cd := true, wr := .deasserted, rd := .deasserted, dir := .input, dout := 0 }
    ∧ s.dev.nop = 0 ∧ s.dev.rdv = false ∧ s.dev.rdy = .busy

/-- `CleanEntry` (R377): nothing is in flight, the device is out of reset and its operand latch is empty. -/
def CleanEntry (s : State) : Prop :=
  s.eng.st = .idle ∧ s.eng.seq = [] ∧ s.bus.reset = .deasserted ∧ s.dev.nop = 0

/-- `Initialised` (R377): `CleanEntry`, and the device registers hold what INIT wrote. -/
def Initialised (s : State) : Prop :=
  CleanEntry s ∧ s.dev.th.toNat = s.cfg.textHome ∧ s.dev.ta.toNat = s.cfg.textArea ∧ s.dev.gh.toNat = s.cfg.graphicHome
    ∧ s.dev.ga.toNat = s.cfg.graphicArea ∧ s.dev.offs.toNat = s.cfg.offsetReg ∧ s.dev.mode = s.cfg.msOr
    ∧ s.dev.disp = s.cfg.dmGraphic + s.cfg.dmText + (if s.cfg.cursorOn then s.cfg.dmCursor else 0)

/-- Every byte of an area is zero. -/
def AreaCleared (s : State) (first size : Nat) : Prop := ∀ a, first ≤ a → a < first + size → s.memByte a = 0

/-- `TextCleared`, `GraphicCleared`, `CGCleared` (R377). -/
def TextCleared (s : State) : Prop := AreaCleared s s.cfg.textHome s.cfg.textSize
def GraphicCleared (s : State) : Prop := AreaCleared s s.cfg.graphicHome s.cfg.graphicSize
def CGCleared (s : State) : Prop := AreaCleared s s.cfg.extCgHome s.cfg.extCgSize

/-- `pixel(x, y)` (R89). -/
def pixel (s : State) (x y : Int) : Bool :=
  (s.memByte (graphicAddress s.cfg x y).toNat).getLsbD (bitOffset s.cfg x).toNat

/-! ## The device's coming answers -/

/-- The byte the device's free choice takes `n` choices from now. -/
def Choices.byteAt (f : Choices) (n : Nat) : Byte :=
  match f.given[n]? with
  | some b => b
  | none => f.after.getD (Config.freeByte (f.drawn + n))

/-- `DEVICE_RESPONSIVE` (R172(d), R377), and with `POLL_LIMIT = n > 0` a device found ready within every `n` status reads, so that no poll runs
into DeviceTimeout (R313). -/
def Responsive (s : State) : Prop :=
  ∀ n, ∃ m, n ≤ m ∧ (s.cfg.pollLimit = 0 ∨ m < n + s.cfg.pollLimit) ∧ statusReady (s.free.byteAt m) = true

/-- The premises of the rules of the operations that make transfers (R377): a configuration the spec speaks of, no `rst` to come, the device out of
reset, and a responsive device. -/
def Serving (s : State) : Prop :=
  s.cfg.ok = true ∧ s.host.rst = [] ∧ s.bus.reset = .deasserted ∧ Responsive s

/-- `Serving`, with an engine that is idle and an empty operand latch (`CleanEntry`). -/
def ReadyToDraw (s : State) : Prop := Serving s ∧ CleanEntry s

/-! ## Runs -/

/-- Some number of steps leads from `s` to `u`. -/
def Reaches (s u : State) : Prop := ∃ k, Host.Core.run Sys2Proof.core k s = .next u

/-- The transfers of a trace: every transaction but the status reads (R17). -/
def transfers (tr : List Transaction) : List Transaction :=
  tr.filter fun t => match t with
    | .statusRead _ => false
    | .commandWrite _ | .dataWrite _ | .dataRead _ => true

/-- The state without what the polls of an operation leave free: the poll counter, the free choices made, and the status reads in the trace. Two states
with the same image agree in everything else. -/
def State.exceptPolls (s : State) : State :=
  { s with
    eng := { s.eng with pcnt := 0 }
    free := { s.free with given := [], drawn := 0 }
    trace := transfers s.trace }

/-! ## What an ended operation leaves -/

/-- The descriptor latch holds operation `i` (R23). -/
def Engine.holding (e : Engine) (i : Instr) : Engine :=
  { e with
    opc := (encode i).opc, aux := (encode i).aux
    a := (encode i).a, b := (encode i).b, c := (encode i).c, d := (encode i).d }

/-- `s` after operation `i` ran to its end (R22, R23, R48, R323): the latch holds `i`, the engine is idle, response 0 with the result registers is out,
the transfers `ts` were made in this order; `e`, `d` and `b` say what else became of the engine, the device and the bus lines. -/
def State.ended (s : State) (i : Instr) (e : Engine) (d : Device) (b : Bus) (ts : List Transaction) : State :=
  { s with
    eng := { e.holding i with st := .idle, seq := [] }
    dev := d
    bus := b
    host := { s.host with rspValid := true, rspCode := 0 }
    trace := ts.reverse ++ s.trace
    responses := { code := 0, data := e.res, bof := e.bof.extractLsb' 0 3 } :: s.responses }

/-- `s` after operation `i` was rejected (R320, R323). -/
def State.rejected (s : State) (opc aux : Byte) (a b c d : Half) (code : Nibble) : State :=
  { s with
    eng := { s.eng with opc := opc, aux := aux, a := a, b := b, c := c, d := d, err := code, eop := opc, st := .idle, seq := [] }
    host := { s.host with rspValid := true, rspCode := code }
    responses := { code := code, data := s.eng.res, bof := s.eng.bof.extractLsb' 0 3 } :: s.responses }

/-- The bus lines after a write transaction that followed a poll (R148, R151). -/
def Bus.afterWrite (b : Bus) (cd : Bool) (v : Byte) : Bus :=
  { b with ce := .high, cd := cd, wr := .deasserted, rd := .deasserted, dir := .output, dout := v }

/-- The bus lines after a read transaction that followed a poll (R149 to R151); the write strobe keeps its level. -/
def Bus.afterRead (b : Bus) (cd : Bool) : Bus :=
  { b with ce := .high, cd := cd, rd := .deasserted, dir := .input }

/-- The device after three transfers `D!lo D!hi C!k`: the operand latch spent, no read pending, busy (R173, R175). -/
def Device.afterSend2 (d : Device) (lo hi : Byte) : Device :=
  { d with d1 := lo, d2 := hi, nop := 0, rdv := false, rdy := .busy }

/-- The trace of `D!lo D!hi C!k`. -/
def send2Trace (lo hi k : Byte) : List Transaction := [.dataWrite lo, .dataWrite hi, .commandWrite k]

/-- What every drawing operation leaves alone (R240, R270, R280, R290): all but the latch, the named working registers, `E.BIT`, `E.TMP`, the poll counter,
the pointer, the latches and the memory of the device, and the bus lines other than the reset line. -/
def DrawingFrame (s u : State) (i : Instr) (regs : List (Fin 16)) : Prop :=
  u.cfg = s.cfg
    ∧ u.eng.st = .idle ∧ u.eng.seq = [] ∧ u.eng.res = s.eng.res ∧ u.eng.bof = s.eng.bof ∧ u.eng.err = s.eng.err ∧ u.eng.eop = s.eng.eop
    ∧ u.eng.opc = (encode i).opc ∧ u.eng.aux = (encode i).aux
    ∧ u.eng.a = (encode i).a ∧ u.eng.b = (encode i).b ∧ u.eng.c = (encode i).c ∧ u.eng.d = (encode i).d
    ∧ (∀ j : Fin 16, j ∉ regs → u.eng.x[j] = s.eng.x[j])
    ∧ u.dev.curx = s.dev.curx ∧ u.dev.cury = s.dev.cury ∧ u.dev.offs = s.dev.offs
    ∧ u.dev.th = s.dev.th ∧ u.dev.ta = s.dev.ta ∧ u.dev.gh = s.dev.gh ∧ u.dev.ga = s.dev.ga
    ∧ u.dev.disp = s.dev.disp ∧ u.dev.mode = s.dev.mode
    ∧ u.dev.nop = 0 ∧ u.dev.rdv = false ∧ u.dev.rdy = .busy
    ∧ u.bus = s.bus.afterWrite true s.cfg.cmd.dataWriteInc
    ∧ u.host = { s.host with rspValid := true, rspCode := 0 }
    ∧ u.free.memGen = s.free.memGen ∧ u.free.resets = s.free.resets
    ∧ u.responses = { code := 0, data := s.eng.res, bof := s.eng.bof.extractLsb' 0 3 } :: s.responses

/-- Memory after drawing: every point has the color, and every bit of every byte that belongs to no point is as before. -/
def Drawn (s u : State) (points : List (Int × Int)) (color : Bool) : Prop :=
  (∀ p ∈ points, pixel u p.1 p.2 = color)
    ∧ ∀ (a b : Nat), (∀ p ∈ points, ¬ (graphicAddress s.cfg p.1 p.2 = a ∧ bitOffset s.cfg p.1 = b)) →
        (u.memByte a).getLsbD b = (s.memByte a).getLsbD b

/-! ## Range checks (R312) and operations that touch the bus -/

/-- The check that must hold, operation by operation (R312). -/
def inRange (g : Config) : Instr → Bool
  | .txa x y | .sap x y | .scp x y => inText g (operand x) (operand y)
  | .gra x y | .spx x y _ => inGraphic g (operand x) (operand y)
  | .cga slot | .defc slot _ => inSlots g slot
  | .rect x y w h _ => rectInRange g (operand x) (operand y) (operand w) (operand h)
  | .circ cx cy r _ => circleInRange g (operand cx) (operand cy) (operand r)
  | .line x1 y1 x2 y2 _ => lineInRange g (operand x1) (operand y1) (operand x2) (operand y2)
  | .wrc _ | .wrd _ | .rdd | .rds | .init | .close | .sor _ | .clt | .clg | .clc | .wch _ => true

/-- The operations that make a bus transaction and need a released reset line: all but INIT and the three queries (R354). -/
def needsDevice : Instr → Bool
  | .init | .txa _ _ | .gra _ _ | .cga _ => false
  | .wrc _ | .wrd _ | .rdd | .rds | .close | .sap _ _ | .scp _ _ | .sor _ | .spx _ _ _ | .clt | .clg | .clc | .defc _ _ | .wch _
  | .rect _ _ _ _ _ | .circ _ _ _ _ | .line _ _ _ _ _ => true

/-- The byte of a command (R118): its parameter; for the two mode commands the parameter plus the argument. -/
def commandByte (k : Commands) : DeviceCommand → Byte
  | .setCursorPointer => k.setCursorPointer
  | .setOffsetRegister => k.setOffsetRegister
  | .setAddressPointer => k.setAddressPointer
  | .setTextHome => k.setTextHome
  | .setTextArea => k.setTextArea
  | .setGraphicHome => k.setGraphicHome
  | .setGraphicArea => k.setGraphicArea
  | .modeSet arg => k.modeSet + arg.setWidth 8
  | .displayMode arg => k.displayMode + arg.setWidth 8
  | .dataWriteInc => k.dataWriteInc
  | .dataReadInc => k.dataReadInc
  | .dataWriteDec => k.dataWriteDec
  | .dataReadDec => k.dataReadDec
  | .dataWriteNonvar => k.dataWriteNonvar
  | .dataReadNonvar => k.dataReadNonvar

/-! ## Traces of the longer operations -/

/-- The transfers of `Fill(A, n)` (R242). -/
def fillTrace (k : Commands) (addr : Half) (n : Nat) : List Transaction :=
  send2Trace (loByte addr) (hiByte addr) k.setAddressPointer
    ++ (List.replicate n [.dataWrite 0, .commandWrite k.dataWriteInc]).flatten

/-- The twenty transfers of INIT (R156). -/
def initTrace (g : Config) : List Transaction :=
  send2Trace (loByte (BitVec.ofNat 16 g.textHome)) (hiByte (BitVec.ofNat 16 g.textHome)) g.cmd.setTextHome
    ++ send2Trace (byteOf g.textArea) 0 g.cmd.setTextArea
    ++ send2Trace (loByte (BitVec.ofNat 16 g.graphicHome)) (hiByte (BitVec.ofNat 16 g.graphicHome)) g.cmd.setGraphicHome
    ++ send2Trace (byteOf g.graphicArea) 0 g.cmd.setGraphicArea
    ++ send2Trace (byteOf g.offsetReg) 0 g.cmd.setOffsetRegister
    ++ send2Trace 0 0 g.cmd.setAddressPointer
    ++ [.commandWrite (displayByte g), .commandWrite (modeByte g)]

/-- A trace, newest first, in which every transfer directly follows a status read that found the device ready (R85, R141). -/
def everyTransferPolled : List Transaction → Bool
  | [] => true
  | .statusRead _ :: older => everyTransferPolled older
  | .commandWrite _ :: .statusRead b :: older => statusReady b && everyTransferPolled older
  | .dataWrite _ :: .statusRead b :: older => statusReady b && everyTransferPolled older
  | .dataRead _ :: .statusRead b :: older => statusReady b && everyTransferPolled older
  | .commandWrite _ :: _ => false
  | .dataWrite _ :: _ => false
  | .dataRead _ :: _ => false

/-- The trace is as the handshake makes it: every transfer polled, and a ready device has just been found so (R85, R172(c)). -/
def PolledTrace (s : State) : Prop :=
  everyTransferPolled s.trace = true
    ∧ (s.dev.rdy = .ready → ∃ b older, s.trace = .statusRead b :: older ∧ statusReady b = true)

/-! ## Points of the shapes -/

/-- The points RECT plots, in order (R270). -/
def rectPoints (x y w h : Int) : List (Int × Int) :=
  (List.range h.toNat).flatMap (fun (n : Nat) => [(x, y + n), (x + w - 1, y + n)])
    ++ (List.range w.toNat).flatMap (fun (n : Nat) => [(x + n, y), (x + n, y + h - 1)])

/-- The tracked values of CIRC at the top of a step (R280). -/
structure CircleTuple where
  x    : Int
  y    : Int
  xch  : Int
  ych  : Int
  rerr : Int
deriving DecidableEq, Repr

/-- The initial values (R280). -/
def CircleTuple.start (r : Int) : CircleTuple := { x := r, y := 0, xch := 1 - 2 * r, ych := 1, rerr := 0 }

/-- The updates of one step (R280), on integers. -/
def CircleTuple.next (t : CircleTuple) : CircleTuple :=
  if 2 * (t.rerr + t.ych) + t.xch > 0 then
    { x := t.x - 1, y := t.y + 1, xch := t.xch + 2, ych := t.ych + 2, rerr := t.rerr + t.ych + t.xch }
  else { t with y := t.y + 1, ych := t.ych + 2, rerr := t.rerr + t.ych }

/-- The tuples at the top of at most `fuel` steps, while `X >= Y` (R280). -/
def circleTuples : Nat → CircleTuple → List CircleTuple
  | 0, _ => []
  | fuel + 1, t => if t.x ≥ t.y then t :: circleTuples fuel t.next else []

/-- The points CIRC plots, in order (R280); R281 bounds the steps by `r + 1`. -/
def circlePoints (cx cy r : Int) : List (Int × Int) :=
  (circleTuples (r + 1).toNat (CircleTuple.start r)).flatMap fun t => octantPoints cx cy t.x t.y

/-- `n` passes of LINE's loop along the driving axis (R290), on integers: the driving coordinate moves by `inc`, the other by `inc'` when the accumulator
exceeds `d`; each pass gives its (driving, other) pair. -/
def lineTrail (inc inc' d twod twod' : Int) : Nat → Int → Int → Int → List (Int × Int)
  | 0, _, _, _ => []
  | n + 1, p, q, acc =>
    let p := p + inc
    if acc + twod' > d then (p, q + inc') :: lineTrail inc inc' d twod twod' n p (q + inc') (acc + twod' - twod)
    else (p, q) :: lineTrail inc inc' d twod twod' n p q (acc + twod')

/-- The sign LINE gives an increment (R290). -/
def lineSign (delta : Int) : Int := if delta < 0 then -1 else 1

/-- The points LINE plots, in order (R290): the start pixel, then one per pass along the driving axis. -/
def linePoints (x1 y1 x2 y2 : Int) : List (Int × Int) :=
  let dx : Int := (x2 - x1).natAbs
  let dy : Int := (y2 - y1).natAbs
  (x1, y1) ::
    if dy ≤ dx then lineTrail (lineSign (x2 - x1)) (lineSign (y2 - y1)) dx (2 * dx) (2 * dy) dx.toNat x1 y1 0
    else (lineTrail (lineSign (y2 - y1)) (lineSign (x2 - x1)) dy (2 * dy) (2 * dx) dy.toNat y1 x1 0).map fun p => (p.2, p.1)

/-! ## The invariant of a step -/

/-- The steps that make a transfer (R17). -/
def Micro.isTransfer : Micro → Bool
  | .busWrite _ _ | .readTmp | .readRes _ => true
  | .poll | .pollAgain | .setAP _ | .setPixel _ _ _ | .mergePixel _ | .clearCount | .bumpCount | .fillLoop _ | .glyphLoop
  | .rectVertical | .rectHorizontal | .circleStart | .circleLoop | .circleStep | .lineStart | .lineBranch | .lineStepX | .lineUntilX
  | .lineStepY | .lineUntilY | .assertReset | .settle | .releaseReset | .quiesce => false

/-- The steps of a poll (R141). -/
def Micro.isPoll : Micro → Bool
  | .poll | .pollAgain => true
  | .busWrite _ _ | .readTmp | .readRes _ | .setAP _ | .setPixel _ _ _ | .mergePixel _ | .clearCount | .bumpCount | .fillLoop _ | .glyphLoop
  | .rectVertical | .rectHorizontal | .circleStart | .circleLoop | .circleStep | .lineStart | .lineBranch | .lineStepX | .lineUntilX
  | .lineStepY | .lineUntilY | .assertReset | .settle | .releaseReset | .quiesce => false

/-- "Every transfer is preceded by a poll" (R144 to R146, R193): in what remains of the pseudocode a transfer stands only right after a poll, or first if the
device has been found ready. -/
def polledBefore : Bool → List Micro → Bool
  | _, [] => true
  | ready, m :: rest => (ready || !m.isTransfer) && polledBefore m.isPoll rest

/-- Whether the device is ready (R44). -/
def Device.isReady (d : Device) : Bool := d.rdy == .ready

/-- What every step keeps. -/
structure Inv (s : State) : Prop where
  /-- the configuration is one the spec speaks of (R10) -/
  config    : s.cfg.ok = true
  /-- memory has its canonical form -/
  canonical : Memory.wf s.dev.mem = true
  /-- only populated addresses hold a written byte (R71, R80) -/
  inRam     : ∀ c ∈ s.dev.mem, c.1 < s.cfg.ramSize
  /-- `E.BOF` and `E.BIT` are 0 to 7 (R25, R26) -/
  bofRange  : s.eng.bof.toNat ≤ 7
  bitRange  : s.eng.bit.toNat ≤ 7
  /-- codes 4 to 15 are never produced (R109, R310) -/
  errRange  : s.eng.err.toNat ≤ 3
  rspRange  : s.host.rspCode.toNat ≤ 3
  /-- an operation is in progress exactly when steps of its pseudocode remain (R21, R22) -/
  running   : s.eng.st = .run ↔ s.eng.seq ≠ []
  /-- `FAULT` is left by DeviceTimeout only (R21, R321) -/
  faultCode : s.eng.st = .fault → s.eng.err = 3 ∧ s.host.rspCode = 3
  /-- between steps chip-select is high and both strobes are deasserted (R151) -/
  linesRest : s.bus.ce = .high ∧ s.bus.wr = .deasserted ∧ s.bus.rd = .deasserted
  /-- while the reset line is asserted the device's latches are empty and it is busy (R53, R194) -/
  heldReset : s.bus.reset = .asserted → s.dev.nop = 0 ∧ s.dev.rdv = false ∧ s.dev.rdy = .busy
  /-- no transfer without a poll that found the device ready (R193) -/
  polled    : polledBefore s.dev.isReady s.eng.seq = true

end Sys2Proof.Machine
end

