-- ==== Sys2Proof/Certificates/Slice0/Obligations.lean ====
section
/-! DEFINITION. The statements for the provers, from the numbered rules of spec/. A completion statement says that exec answers a next state, and
what the run reaches from there; `exceptPolls` sets aside only what the polls on the way leave free. -/

section Statements

open Sys2Proof Sys2Proof.Machine

/-! ## Encoding -/

/-- R101 to R108: decoding the descriptor of a well-formed operation gives it back, every operand at every value. -/
def Obligations.DecodeOfEncodeIsIdentity : Prop := ∀ i : Instr, i.wellFormed = true → decode (encode i) = .ok i

/-- R102 to R104: a descriptor that decodes is the encoding of a well-formed operation; no bit of a legal descriptor is dropped. -/
def Obligations.LegalDescriptorReencodes : Prop := ∀ (d : Descriptor) (i : Instr), decode d = .ok i → i.wellFormed = true ∧ encode i = d

/-- R104: a descriptor selects an operation exactly by mask and match value, and no two rows match one descriptor. -/
def Obligations.DescriptorSelectsByMaskAndMatch : Prop :=
  (∀ (d : Descriptor) (i : Instr), decode d = .ok i ↔ ∃ r ∈ opcodeMap, d &&& r.format.mask = r.opc ++ (0 : BitVec 72) ∧ r.build d = i)
    ∧ ∀ (d : Descriptor), ∀ r ∈ opcodeMap, ∀ r' ∈ opcodeMap, r.admits d = true → r'.admits d = true → r.opc = r'.opc

/-- The spec's own example descriptors (R152, R217, R241, R246, R270, R280, R290) and three illegal ones (R105). -/
def Obligations.SampleDescriptorsDecode : Prop :=
  decode 0x019C0000000000000000 = .ok (.wrc 0x9C)
    ∧ decode 0x10000005000200000000 = .ok (.txa 5 2)
    ∧ decode 0x2001000A000500000000 = .ok (.spx 10 5 true)
    ∧ decode 0x2401007E424242427E00 = .ok (.defc 1 [0x00, 0x7E, 0x42, 0x42, 0x42, 0x42, 0x7E, 0x00])
    ∧ decode 0x30010002000100040003 = .ok (.rect 2 1 4 3 true)
    ∧ decode 0x31010008000800030000 = .ok (.circ 8 8 3 true)
    ∧ decode 0x32010000000000050002 = .ok (.line 0 0 5 2 true)
    ∧ decode 0 = .error (.reservedOpcode 0)
    ∧ decode 0x33000000000000000000 = .error (.reservedOpcode 0x33)
    ∧ decode 0x05000000000000000001 = .error (.reservedField 5)

/-! ## Steps, acceptance, rejection -/

/-- R48, R110: with `rst` low and the engine idle, a step on a descriptor that decodes to `i` is exec of `i`, the descriptor taken from the host's
list; the decoded operation is well formed. -/
def Obligations.StepRunsDecodedInstr : Prop :=
  ∀ (s : State) (d : Descriptor) (ds : List Descriptor) (i : Instr), s.host.rst = [] → s.eng.st = .idle → s.host.req = d :: ds → decode d = .ok i →
    i.wellFormed = true ∧ step s = exec i (s.setHost { s.host with req := ds })

/-- R311, R320: a descriptor that decodes to nothing is rejected with code 1 in the step that accepts it; nothing changes but the latch, `E.ERR`,
`E.EOP` and the response. -/
def Obligations.IllegalDescriptorRejected : Prop :=
  ∀ (s : State) (d : Descriptor) (ds : List Descriptor), s.host.rst = [] → s.eng.st = .idle → s.host.req = d :: ds →
    (∀ r ∈ opcodeMap, r.admits d = false) →
    step s = .next ((s.setHost { s.host with req := ds }).rejected d.opc d.aux d.a d.b d.c d.d 1)

/-- R312, R320: an operation whose range check fails is rejected with code 2 in the step that accepts it; nothing changes but the latch, `E.ERR`,
`E.EOP` and the response. -/
def Obligations.RangeCheckRejects : Prop :=
  ∀ (i : Instr) (s : State), inRange s.cfg i = false →
    exec i s = .next (s.rejected (encode i).opc (encode i).aux (encode i).a (encode i).b (encode i).c (encode i).d 2)

/-- R355, R48, R325: no step changes the configuration; a step adds at most one transaction and at most one response; the host's descriptors are
taken one at a time, only by an idle engine with `rst` low. That a step is at most one transaction is R3 and R373 as the model reads them (log entry 8). -/
def Obligations.StepsTakeDescriptorsOnlyWhenIdle : Prop :=
  ∀ s t : State, step s = .next t →
    t.cfg = s.cfg ∧ (t.trace = s.trace ∨ ∃ x, t.trace = x :: s.trace) ∧ (t.responses = s.responses ∨ ∃ r, t.responses = r :: s.responses)
      ∧ (t.host.req = s.host.req
        ∨ (s.eng.st = .idle ∧ s.host.rst.head? ≠ some true ∧ ∃ d, s.host.req = d :: t.host.req))

/-- R350, R50, R51, R53: a step with `rst` high puts any state into the reset state and produces no response. -/
def Obligations.EngineResetFromAnyState : Prop :=
  ∀ (s : State) (later : List Bool), s.host.rst = true :: later →
    ∃ t, step s = .next t ∧ AfterReset t ∧ t.host.rspValid = false ∧ t.reqReady = true ∧ t.faultOut = false ∧ t.host.rst = later
      ∧ t.host.req = s.host.req ∧ t.cfg = s.cfg ∧ t.trace = s.trace ∧ t.responses = s.responses
      ∧ (s.cfg.resetKeepsMem = true → ∀ a, t.memByte a = s.memByte a)

/-- R324, R325, R375(b): in `FAULT` nothing is accepted and only `rst` changes anything. That such an engine has a next state, equal to the old one but for
the `rst` level used up, is the model's choice (log entry 10, over the `rst` list of log entry 7). -/
def Obligations.FaultWaitsForReset : Prop :=
  ∀ s : State, s.eng.st = .fault → s.host.rst.head? ≠ some true → step s = .next (s.setHost { s.host with rst := s.host.rst.tail })

/-! ## The poll (R141, R313, R314) -/

/-- R141: one pass of `Poll()`; `p` is the poll counter before it (0 on the first pass). -/
def Obligations.PollPass : Prop :=
  ∀ (s : State) (first : Bool) (rest : List Micro), s.host.rst = [] → s.eng.st = .run → s.bus.reset = .deasserted →
    s.eng.seq = (if first then .poll else .pollAgain) :: rest →
    let p : Word := if first then 0 else s.eng.pcnt
    let t := (s.statusRead).setEng { s.eng with pcnt := p }
    step s =
      if s.statusByte &&& 3 = 3 then .next (t.goto rest)
      else
        let u := t.setEng { t.eng with pcnt := p + 1, seq := .pollAgain :: rest }
        if s.cfg.pollLimit ≠ 0 ∧ (p + 1).toNat = s.cfg.pollLimit then .next (u.takeFault .deviceTimeout) else .next u

/-- R141, R172: a busy device found ready at the `m`-th answer from now, and not before, ends the poll after `m + 1` status reads. -/
def Obligations.PollEndsAtFirstReadyStatus : Prop :=
  ∀ (s : State) (m : Nat) (rest : List Micro) (a : Micro), s.cfg.ok = true → s.host.rst = [] → s.bus.reset = .deasserted → s.eng.st = .run →
    s.dev.rdy = .busy → s.eng.seq = .poll :: a :: rest → (∀ n < m, statusReady (s.free.byteAt n) = false) →
    statusReady (s.free.byteAt m) = true → (s.cfg.pollLimit = 0 ∨ m < s.cfg.pollLimit) →
    ∃ u, Host.Core.run Sys2Proof.core (m + 1) s = .next u ∧ u.eng.seq = a :: rest ∧ u.eng.st = .run ∧ u.dev = { s.dev with rdy := .ready }
      ∧ u.trace = ((List.range (m + 1)).map fun n => Transaction.statusRead (s.free.byteAt n)).reverse ++ s.trace

/-- R313, R321: with `POLL_LIMIT = n > 0`, `n` status reads that all find a busy device not ready end in DeviceTimeout at the `n`-th. -/
def Obligations.TimeoutAfterPollLimitReads : Prop :=
  ∀ (s : State) (n : Nat) (rest : List Micro), s.cfg.ok = true → s.host.rst = [] → s.bus.reset = .deasserted → s.eng.st = .run →
    s.dev.rdy = .busy → s.eng.seq = .poll :: rest → s.cfg.pollLimit = n → 0 < n → (∀ k < n, statusReady (s.free.byteAt k) = false) →
    (∀ k < n, ∃ v, Host.Core.run Sys2Proof.core k s = .next v ∧ v.eng.st = .run ∧ v.responses = s.responses)
      ∧ ∃ u, Host.Core.run Sys2Proof.core n s = .next u ∧ u.eng.st = .fault ∧ u.eng.seq = [] ∧ u.eng.err = 3 ∧ u.eng.eop = s.eng.opc
        ∧ u.faultOut = true ∧ u.reqReady = false ∧ u.host.rspValid = true ∧ u.host.rspCode = 3
        ∧ u.responses = { code := 3, data := s.eng.res, bof := s.eng.bof.extractLsb' 0 3 } :: s.responses
        ∧ u.dev = s.dev ∧ u.eng.x = s.eng.x ∧ transfers u.trace = transfers s.trace ∧ u.trace.length = s.trace.length + n

/-- R314: with `POLL_LIMIT = 0` a poll on a device that never answers ready never ends: one status read after another, no response. -/
def Obligations.UnboundedPollHangs : Prop :=
  ∀ (s : State) (rest : List Micro), s.host.rst = [] → s.bus.reset = .deasserted → s.eng.st = .run → s.dev.rdy = .busy →
    s.eng.seq = .poll :: rest → s.cfg.pollLimit = 0 → (∀ k, statusReady (s.free.byteAt k) = false) →
    ∀ k, ∃ u, Host.Core.run Sys2Proof.core (k + 1) s = .next u ∧ u.eng.st = .run ∧ u.eng.seq = .pollAgain :: rest ∧ u.reqReady = false
      ∧ u.responses = s.responses ∧ u.dev = s.dev ∧ u.trace.length = s.trace.length + (k + 1) ∧ transfers u.trace = transfers s.trace

/-! ## The device's transactions (R171 to R194) -/

/-- R171, R172: a status read's byte, and what it leaves: the device is ready afterwards exactly when the byte says so; nothing else of it changes.
That a busy device's turn to ready and the ready bits it then shows are one free choice is the model's (log entry 1). -/
def Obligations.StatusReadAnswersReadiness : Prop :=
  ∀ s : State, (s.dev.rdy = .ready → s.statusByte &&& 3 = 3)
    ∧ (s.statusRead.dev.rdy = .ready ↔ s.statusByte &&& 3 = 3)
    ∧ s.statusRead.dev = { s.dev with rdy := s.statusRead.dev.rdy }
    ∧ s.statusRead.eng = s.eng ∧ s.statusRead.trace = .statusRead s.statusByte :: s.trace
    ∧ s.statusRead.bus = { s.bus with ce := .high, cd := true, rd := .deasserted, dir := .input }
    ∧ ∀ b : Byte, (s.dev.rdy = .ready → b &&& 3 = 3) → ∃ given, (s.setFree { s.free with given := given }).statusByte = b

/-- R173, R172(a): a data write to a ready device, by the number of bytes already in the operand latch; a third byte is refused. -/
def Obligations.DataWriteFillsOperandLatch : Prop :=
  ∀ (s : State) (v : Byte), s.bus.reset = .deasserted → s.dev.rdy = .ready →
    let t (d : Device) : State := { s with
      dev := d, trace := .dataWrite v :: s.trace
      bus := { s.bus with ce := .high, cd := false, wr := .deasserted, dir := .output, dout := v } }
    (s.dev.nop = 0 → s.busWrite false v = .next (t { s.dev with d1 := v, nop := 1, rdy := .busy }))
      ∧ (s.dev.nop = 1 → s.busWrite false v = .next (t { s.dev with d2 := v, nop := 2, rdy := .busy }))
      ∧ (s.dev.nop = 2 → s.busWrite false v = .refused .operandLatchFull)

/-- R174, R172(a): a data read returns the read latch when a read is pending, else any value; the operand latch and the memory stay. -/
def Obligations.DataReadConsumesReadLatch : Prop :=
  ∀ s : State, s.dataRead.dev = { s.dev with rdv := false, rdy := .busy } ∧ s.dataRead.eng = s.eng
    ∧ s.dataRead.trace = .dataRead s.dataByte :: s.trace
    ∧ s.dataRead.bus = { s.bus with ce := .high, cd := false, rd := .deasserted, dir := .input }
    ∧ (s.dev.rdv = true → s.dataByte = s.dev.rdl)
    ∧ (s.dev.rdv = false → ∀ b : Byte, ∃ given, (s.setFree { s.free with given := given }).dataByte = b)

/-- R176 to R182 with the operand bytes of R175 (`lo = T.D1`, `hi = T.D2`): each two-operand command writes its own register and no other. That the low
byte of the cursor command is the column is the spec's general knowledge (log entry 16). -/
def Obligations.TwoOperandCommandsWriteTheirRegister : Prop :=
  ∀ (t : Device) (g : Nat),
    t.applyCommand g .setCursorPointer = { t with curx := t.d1, cury := t.d2 }
      ∧ t.applyCommand g .setOffsetRegister = { t with offs := t.d1 }
      ∧ t.applyCommand g .setAddressPointer = { t with ap := t.d2 ++ t.d1 }
      ∧ t.applyCommand g .setTextHome = { t with th := t.d2 ++ t.d1 }
      ∧ t.applyCommand g .setTextArea = { t with ta := t.d2 ++ t.d1 }
      ∧ t.applyCommand g .setGraphicHome = { t with gh := t.d2 ++ t.d1 }
      ∧ t.applyCommand g .setGraphicArea = { t with ga := t.d2 ++ t.d1 }

/-- R183, R184, R118: in a well-formed configuration a byte with the high four bits of a mode command loads the mode register with its low four bits. -/
def Obligations.ModeCommandsTakeTheLowFourBits : Prop :=
  ∀ (g : Config) (t : Device) (gen : Nat) (arg : Nibble), g.ok = true →
    ∃ c c', decodeCommand g.cmd (g.cmd.modeSet + arg.setWidth 8) = some c ∧ t.applyCommand gen c = { t with mode := arg } ∧ c.operands = 0
      ∧ decodeCommand g.cmd (g.cmd.displayMode + arg.setWidth 8) = some c' ∧ t.applyCommand gen c' = { t with disp := arg } ∧ c'.operands = 0

/-- R185, R187, R189, R79: the three data-write commands store `T.D1` at `T.AP` and move the pointer by one, minus one or not at all, modulo 65536;
every other byte and register stays. The commands of R187 and R189 are the spec's general knowledge (log entry 15). -/
def Obligations.DataWriteCommandsStore : Prop :=
  ∀ (t : Device) (g a : Nat) (c : DeviceCommand) (move : Int),
    (c = .dataWriteInc ∧ move = 1) ∨ (c = .dataWriteDec ∧ move = -1) ∨ (c = .dataWriteNonvar ∧ move = 0) →
    let u := t.applyCommand g c
    Memory.byte u.mem g t.ap.toNat = t.d1
      ∧ (a ≠ t.ap.toNat → Memory.byte u.mem g a = Memory.byte t.mem g a)
      ∧ (u.ap.toNat : Int) = (t.ap.toNat + move) % 65536
      ∧ u = { t with ap := u.ap, mem := u.mem }

/-- R186, R188, R190, R79: the three data-read commands load the read latch from `T.AP`, set the pending bit and move the pointer; memory stays.
The command of R188 is the spec's general knowledge (log entry 15). -/
def Obligations.DataReadCommandsLoadReadLatch : Prop :=
  ∀ (t : Device) (g : Nat) (c : DeviceCommand) (move : Int),
    (c = .dataReadInc ∧ move = 1) ∨ (c = .dataReadDec ∧ move = -1) ∨ (c = .dataReadNonvar ∧ move = 0) →
    let u := t.applyCommand g c
    u = { t with rdl := Memory.byte t.mem g t.ap.toNat, rdv := true, ap := u.ap } ∧ (u.ap.toNat : Int) = (t.ap.toNat + move) % 65536

/-- R175 steps (3) to (6): whatever the command, the pending read is cancelled before it acts, so that a read is pending afterwards exactly when the command is a
data read; the operand latch is empty and the device busy; every other register and the memory are as the command's own rule leaves them, and no command's rule
reads `T.RDV`, `T.NOP` or `T.RDYS`. -/
def Obligations.EveryCommandEmptiesTheLatchAndCancelsTheRead : Prop :=
  ∀ (t : Device) (g : Nat) (c : DeviceCommand),
    let u := t.runCommand g c
    u.nop = 0 ∧ u.rdy = .busy ∧ (u.rdv = true ↔ c = .dataReadInc ∨ c = .dataReadDec ∨ c = .dataReadNonvar)
      ∧ u = { t.applyCommand g c with nop := 0, rdv := u.rdv, rdy := .busy }
      ∧ ∀ (n : Fin 3) (v : Bool) (r : Readiness), ({ t with nop := n, rdv := v, rdy := r } : Device).runCommand g c = u

/-- R118, R123: in a well-formed configuration a byte decodes to a command exactly when it is that command's byte; so no two commands share a byte,
and a byte that is no command's decodes to none. -/
def Obligations.CommandBytesDecode : Prop :=
  ∀ (g : Config) (b : Byte) (c : DeviceCommand), g.ok = true → (decodeCommand g.cmd b = some c ↔ b = commandByte g.cmd c)

/-- R175, R191 to R194, R80: what a command write does, when it is refused, and when it reaches an unpopulated address (that this is a fault and not a
refusal is the model's choice, log entry 11). -/
def Obligations.CommandWriteStops : Prop :=
  ∀ (s : State) (k : Byte),
    (s.bus.reset = .asserted → s.busWrite true k = .refused .deviceHeldInReset)
      ∧ (s.bus.reset = .deasserted → s.dev.rdy = .busy → s.busWrite true k = .refused .transferWhileBusy)
      ∧ (s.bus.reset = .deasserted → s.dev.rdy = .ready →
          (decodeCommand s.cfg.cmd k = none → s.busWrite true k = .refused (.unknownCommand k))
          ∧ ∀ c, decodeCommand s.cfg.cmd k = some c →
            (s.dev.nop ≠ c.operands → s.busWrite true k = .refused .operandCountMismatch)
            ∧ (s.dev.nop = c.operands → c.accessesMemory = true → s.cfg.ramSize ≤ s.dev.ap.toNat →
                s.busWrite true k = .fault (.unpopulatedAddress s.dev.ap.toNat))
            ∧ (s.dev.nop = c.operands → (c.accessesMemory = true → s.dev.ap.toNat < s.cfg.ramSize) →
                s.busWrite true k = .next { s with
                  dev := s.dev.runCommand s.free.memGen c, trace := .commandWrite k :: s.trace
                  bus := { s.bus with ce := .high, cd := true, wr := .deasserted, dir := .output, dout := k } }))

/-- R354, R194: an operation that makes a transaction, accepted while the reset line is asserted, is refused at its first status read: it made no
transaction and changed nothing of the device. That it is refused there and not at its acceptance is the model's choice (log entry 12). -/
def Obligations.OperationsInResetAreRefused : Prop :=
  ∀ (i : Instr) (s : State), needsDevice i = true → inRange s.cfg i = true → s.cfg.ok = true → s.host.rst = [] → s.bus.reset = .asserted →
    ∃ t u, exec i s = .next t ∧ Reaches t u ∧ step u = .refused .deviceHeldInReset
      ∧ u.trace = s.trace ∧ u.dev = s.dev ∧ u.bus = s.bus ∧ u.responses = s.responses

/-! ## Completions: the protocol operations (R152 to R156, R300) -/

/-- WRC (R152, R175): the command byte is sent and the device runs its command, when the operand count matches and the address is populated: the command's
own effect, an empty operand latch, a busy device, and a read pending exactly after a data-read command. -/
def Obligations.WrcRunsItsCommand : Prop :=
  ∀ (s : State) (v : Byte) (c : DeviceCommand), Serving s → decodeCommand s.cfg.cmd v = some c → s.dev.nop = c.operands →
    (c.accessesMemory = true → s.dev.ap.toNat < s.cfg.ramSize) →
    ∃ t u, exec (.wrc v) s = .next t ∧ Reaches t u
      ∧ u.exceptPolls = (s.ended (.wrc v) s.eng (s.dev.runCommand s.free.memGen c) (s.bus.afterWrite true v) [.commandWrite v]).exceptPolls
      ∧ (u.dev.rdv = true ↔ c = .dataReadInc ∨ c = .dataReadDec ∨ c = .dataReadNonvar)
      ∧ u.dev = { s.dev.applyCommand s.free.memGen c with nop := 0, rdv := u.dev.rdv, rdy := .busy }

/-- WRD (R153): the byte goes into the operand latch. -/
def Obligations.WrdFillsTheLatch : Prop :=
  ∀ (s : State) (v : Byte), Serving s → s.dev.nop ≠ 2 →
    ∃ t u, exec (.wrd v) s = .next t ∧ Reaches t u
      ∧ u.exceptPolls = (s.ended (.wrd v) s.eng
          (if s.dev.nop = 0 then { s.dev with d1 := v, nop := 1, rdy := .busy } else { s.dev with d2 := v, nop := 2, rdy := .busy })
          (s.bus.afterWrite false v) [.dataWrite v]).exceptPolls

/-- R173, R191, R192, R80: a WRC or WRD that the device refuses, and a WRC or WCH whose command accesses an unpopulated address, are accepted and
stop at their transfer (log entries 11 and 12). -/
def Obligations.RawWritesStop : Prop :=
  ∀ (s : State) (v : Byte), Serving s →
    (s.dev.nop = 2 → ∃ t u, exec (.wrd v) s = .next t ∧ Reaches t u ∧ step u = .refused .operandLatchFull)
      ∧ (decodeCommand s.cfg.cmd v = none → ∃ t u, exec (.wrc v) s = .next t ∧ Reaches t u ∧ step u = .refused (.unknownCommand v))
      ∧ (∀ c, decodeCommand s.cfg.cmd v = some c →
        (s.dev.nop ≠ c.operands → ∃ t u, exec (.wrc v) s = .next t ∧ Reaches t u ∧ step u = .refused .operandCountMismatch)
        ∧ (s.dev.nop = c.operands → c.accessesMemory = true → s.cfg.ramSize ≤ s.dev.ap.toNat →
            ∃ t u, exec (.wrc v) s = .next t ∧ Reaches t u ∧ step u = .fault (.unpopulatedAddress s.dev.ap.toNat)))
      ∧ (s.dev.nop = 0 → s.cfg.ramSize ≤ s.dev.ap.toNat →
          ∃ t u, exec (.wch v) s = .next t ∧ Reaches t u ∧ step u = .fault (.unpopulatedAddress s.dev.ap.toNat))

/-- RDD (R154, R174): the byte read, zero-extended, in `E.RES`: the read latch when a read is pending, else some byte. -/
def Obligations.RddReadsAByte : Prop :=
  ∀ s : State, Serving s →
    ∃ t u, ∃ v : Byte, exec .rdd s = .next t ∧ Reaches t u ∧ (s.dev.rdv = true → v = s.dev.rdl)
      ∧ u.exceptPolls = (s.ended .rdd { s.eng with res := v.setWidth 16 } { s.dev with rdv := false, rdy := .busy }
          (s.bus.afterRead false) [.dataRead v]).exceptPolls

/-- RDS (R155): a poll, then one more status read, whose byte has bits 1:0 set; the device stays ready. -/
def Obligations.RdsReturnsReadyStatus : Prop :=
  ∀ s : State, Serving s →
    ∃ t u v, exec .rds s = .next t ∧ Reaches t u ∧ statusReady v = true ∧ u.trace.head? = some (.statusRead v)
      ∧ u.exceptPolls = (s.ended .rds { s.eng with res := BitVec.setWidth 16 (v : Byte) } { s.dev with rdy := .ready }
          (s.bus.afterRead true) []).exceptPolls

/-- INIT (R156): from any state with a responsive device, its reset line asserted or not, the device is reset, released and programmed by the twenty
transfers; the result is `Initialised` (R377). What a hardware reset leaves unspecified stays so in the cursor registers, the read latch and, unless
`RESET_KEEPS_MEM`, the memory. -/
def Obligations.InitProgramsTheDevice : Prop :=
  ∀ s : State, s.cfg.ok = true → s.host.rst = [] → Responsive s →
    ∃ t u, exec .init s = .next t ∧ Reaches t u ∧ Initialised u
      ∧ u.exceptPolls = (s.resetDevice.ended .init s.eng
          { s.resetDevice.dev with
            th := BitVec.ofNat 16 s.cfg.textHome, ta := BitVec.ofNat 16 s.cfg.textArea
            gh := BitVec.ofNat 16 s.cfg.graphicHome, ga := BitVec.ofNat 16 s.cfg.graphicArea
            offs := BitVec.ofNat 8 s.cfg.offsetReg, ap := 0
            disp := s.cfg.dmGraphic + s.cfg.dmText + (if s.cfg.cursorOn then s.cfg.dmCursor else 0), mode := s.cfg.msOr
            d1 := 0, d2 := 0, nop := 0, rdv := false, rdy := .busy }
          ({ s.bus with reset := .deasserted }.afterWrite true (modeByte s.cfg)) (initTrace s.cfg)).exceptPolls
      ∧ ∀ a, u.memByte a = if s.cfg.resetKeepsMem then s.memByte a else Config.unwrittenByte (s.free.memGen + 1) a

/-- CLOSE (R300): both fills, then the Bus at rest and the device in reset. With `RESET_KEEPS_MEM` the zeroes are still there. -/
def Obligations.CloseBlanksAndReleasesTheBus : Prop :=
  ∀ s : State, ReadyToDraw s →
    ∃ t u, exec .close s = .next t ∧ Reaches t u ∧ u.cfg = s.cfg
      ∧ u.bus = { reset := .asserted, ce := .high, cd := true, wr := .deasserted, rd := .deasserted, dir := .input, dout := 0 }
      ∧ u.eng = { s.eng.holding .close with st := .idle, seq := [], pcnt := u.eng.pcnt, x := u.eng.x }
      ∧ (∀ j : Fin 16, j ≠ CNT → j ≠ ADDR → u.eng.x[j] = s.eng.x[j])
      ∧ u.dev = { s.resetDevice.dev with mem := u.dev.mem } ∧ u.dev.nop = 0 ∧ u.dev.rdv = false ∧ u.dev.rdy = .busy
      ∧ transfers u.trace = (fillTrace s.cfg.cmd (BitVec.ofNat 16 s.cfg.textHome) s.cfg.textSize
          ++ fillTrace s.cfg.cmd (BitVec.ofNat 16 s.cfg.graphicHome) s.cfg.graphicSize).reverse ++ transfers s.trace
      ∧ u.host = { s.host with rspValid := true, rspCode := 0 }
      ∧ u.responses = { code := 0, data := s.eng.res, bof := s.eng.bof.extractLsb' 0 3 } :: s.responses
      ∧ ∀ a, u.memByte a =
          if s.cfg.resetKeepsMem then
            if s.cfg.textHome ≤ a ∧ a < s.cfg.graphicHome + s.cfg.graphicSize then 0 else s.memByte a
          else Config.unwrittenByte (s.free.memGen + 1) a

/-! ## Completions: queries and pointers (R217 to R222) -/

/-- TXA, GRA, CGA (R210 to R213, R217 to R219): the address (and GRA's bit offset) is answered in the step that accepts the operation; no
transaction, no other register. The rules say that these operations make no bus transaction; that they end in the accepting step is the model's choice (log
entry 8). -/
def Obligations.QueriesAnswerAtOnce : Prop :=
  ∀ s : State, s.cfg.ok = true →
    (∀ x y : Half, inText s.cfg x.toInt y.toInt = true →
      ∃ r : Half, (r.toNat : Int) = s.cfg.textHome + x.toInt + s.cfg.textArea * y.toInt
        ∧ exec (.txa x y) s = .next (s.ended (.txa x y) { s.eng with res := r } s.dev s.bus []))
    ∧ (∀ x y : Half, inGraphic s.cfg x.toInt y.toInt = true →
      ∃ (r : Half) (b : Byte), (r.toNat : Int) = s.cfg.graphicHome + x.toInt / s.cfg.fontWidth + s.cfg.graphicArea * y.toInt
        ∧ (b.toNat : Int) = s.cfg.fontWidth - 1 - x.toInt % s.cfg.fontWidth
        ∧ exec (.gra x y) s = .next (s.ended (.gra x y) { s.eng with res := r, bof := b } s.dev s.bus []))
    ∧ ∀ slot : Byte, inSlots s.cfg slot = true →
      ∃ r : Half, r.toNat = s.cfg.offsetReg * 2048 + 8 * slot.toNat
        ∧ exec (.cga slot) s = .next (s.ended (.cga slot) { s.eng with res := r } s.dev s.bus [])

/-- SAP (R220): the pointer at the text cell, by three transfers, low byte first. -/
def Obligations.SapSetsThePointer : Prop :=
  ∀ (s : State) (x y : Half), ReadyToDraw s → inText s.cfg x.toInt y.toInt = true →
    ∃ r : Half, (r.toNat : Int) = s.cfg.textHome + x.toInt + s.cfg.textArea * y.toInt
      ∧ ∃ t u, exec (.sap x y) s = .next t ∧ Reaches t u
        ∧ u.exceptPolls = (s.ended (.sap x y) { s.eng with x := s.eng.x.set ADDR (r.setWidth 32) }
            { s.dev.afterSend2 (r.extractLsb' 0 8) (r.extractLsb' 8 8) with ap := r } (s.bus.afterWrite true s.cfg.cmd.setAddressPointer)
            (send2Trace (r.extractLsb' 0 8) (r.extractLsb' 8 8) s.cfg.cmd.setAddressPointer)).exceptPolls

/-- SCP (R221): the cursor registers, the column first; the pointer stays. -/
def Obligations.ScpSetsTheCursor : Prop :=
  ∀ (s : State) (x y : Half), ReadyToDraw s → inText s.cfg x.toInt y.toInt = true →
    ∃ t u, exec (.scp x y) s = .next t ∧ Reaches t u
      ∧ u.exceptPolls = (s.ended (.scp x y) s.eng
          { s.dev.afterSend2 (x.setWidth 8) (y.setWidth 8) with curx := x.setWidth 8, cury := y.setWidth 8 }
          (s.bus.afterWrite true s.cfg.cmd.setCursorPointer)
          (send2Trace (x.setWidth 8) (y.setWidth 8) s.cfg.cmd.setCursorPointer)).exceptPolls
      ∧ (u.dev.curx.toNat : Int) = x.toInt

/-- SOR (R222): the device's offset register; the engine's constants stay. -/
def Obligations.SorSetsTheOffset : Prop :=
  ∀ (s : State) (v : Byte), ReadyToDraw s →
    ∃ t u, exec (.sor v) s = .next t ∧ Reaches t u
      ∧ u.exceptPolls = (s.ended (.sor v) s.eng { s.dev.afterSend2 v 0 with offs := v }
          (s.bus.afterWrite true s.cfg.cmd.setOffsetRegister) (send2Trace v 0 s.cfg.cmd.setOffsetRegister)).exceptPolls

/-! ## Completions: memory and drawing (R240 to R300) -/

/-- SPX (R240, R241): one read-modify-write of the pixel's byte by seven transfers; every other bit and byte stays. -/
def Obligations.SpxReadsModifiesWrites : Prop :=
  ∀ (s : State) (x y : Half) (color : Bool), ReadyToDraw s → inGraphic s.cfg x.toInt y.toInt = true →
    ∃ (a : Half) (b v : Byte), (a.toNat : Int) = graphicAddress s.cfg x.toInt y.toInt ∧ (b.toNat : Int) = bitOffset s.cfg x.toInt ∧ b.toNat ≤ 7
      ∧ (∀ n < 8, v.getLsbD n = if n = b.toNat then color else (s.memByte a.toNat).getLsbD n)
      ∧ ∃ t u, exec (.spx x y color) s = .next t ∧ Reaches t u
        ∧ u.exceptPolls = (s.ended (.spx x y color) { s.eng with x := s.eng.x.set ADDR (a.setWidth 32), bit := b, tmp := v }
            { s.dev with
              ap := a + 1, d1 := v, d2 := a.extractLsb' 8 8, nop := 0, rdl := s.memByte a.toNat, rdv := false, rdy := .busy
              mem := Memory.store s.dev.mem a.toNat v }
            (s.bus.afterWrite true s.cfg.cmd.dataWriteInc)
            (send2Trace (a.extractLsb' 0 8) (a.extractLsb' 8 8) s.cfg.cmd.setAddressPointer
              ++ [.commandWrite s.cfg.cmd.dataReadNonvar, .dataRead (s.memByte a.toNat), .dataWrite v,
                .commandWrite s.cfg.cmd.dataWriteInc])).exceptPolls
        ∧ ∀ m, m ≠ a.toNat → u.memByte m = s.memByte m

/-- CLT, CLG, CLC (R242 to R245): every byte of the area is zero, every other byte stays, the pointer is one past the area; after CLG every pixel of
the display is clear. -/
def Obligations.ClearsZeroTheirArea : Prop :=
  ∀ (s : State) (i : Instr) (first size : Nat), ReadyToDraw s →
    (i = .clt ∧ first = s.cfg.textHome ∧ size = s.cfg.textSize) ∨ (i = .clg ∧ first = s.cfg.graphicHome ∧ size = s.cfg.graphicSize)
      ∨ (i = .clc ∧ first = s.cfg.offsetReg * 2048 ∧ size = s.cfg.extCgGlyphs * 8) →
    ∃ t u, exec i s = .next t ∧ Reaches t u ∧ DrawingFrame s u i [CNT, ADDR] ∧ u.eng.tmp = s.eng.tmp ∧ u.eng.bit = s.eng.bit
      ∧ u.dev.rdl = s.dev.rdl ∧ u.dev.ap = BitVec.ofNat 16 (first + size)
      ∧ transfers u.trace = (fillTrace s.cfg.cmd (BitVec.ofNat 16 first) size).reverse ++ transfers s.trace
      ∧ (∀ a, first ≤ a → a < first + size → u.memByte a = 0)
      ∧ (∀ a, a < first ∨ first + size ≤ a → u.memByte a = s.memByte a)
      ∧ (i = .clg → ∀ x y : Int, inGraphic s.cfg x y = true → pixel u x y = false)

/-- DEFC (R246, R83): the eight glyph bytes at the slot's addresses by nineteen transfers; every other byte stays. -/
def Obligations.DefcStoresTheGlyph : Prop :=
  ∀ (s : State) (slot : Byte) (glyph : List Byte), ReadyToDraw s → inSlots s.cfg slot = true → glyph.length = 8 →
    ∃ a : Half, a.toNat = s.cfg.offsetReg * 2048 + 8 * slot.toNat ∧
      ∃ t u, exec (.defc slot glyph) s = .next t ∧ Reaches t u ∧ DrawingFrame s u (.defc slot glyph) [CNT, ADDR]
        ∧ u.eng.tmp = s.eng.tmp ∧ u.eng.bit = s.eng.bit ∧ u.dev.rdl = s.dev.rdl ∧ u.dev.ap = a + 8
        ∧ transfers u.trace = (send2Trace (a.extractLsb' 0 8) (a.extractLsb' 8 8) s.cfg.cmd.setAddressPointer
            ++ glyph.flatMap fun v => [Transaction.dataWrite v, .commandWrite s.cfg.cmd.dataWriteInc]).reverse ++ transfers s.trace
        ∧ (∀ n < 8, u.memByte (a.toNat + n) = glyph.getD n 0)
        ∧ ∀ m, m < a.toNat ∨ a.toNat + 8 ≤ m → u.memByte m = s.memByte m

/-- WCH (R260): the character code at the device's own pointer, by two transfers; the pointer moves on by one, modulo 65536. -/
def Obligations.WchStoresTheCharacter : Prop :=
  ∀ (s : State) (ch : Byte), ReadyToDraw s → s.dev.ap.toNat < s.cfg.ramSize →
    ∃ t u, exec (.wch ch) s = .next t ∧ Reaches t u
      ∧ u.exceptPolls = (s.ended (.wch ch) s.eng
          { s.dev with
            ap := s.dev.ap + 1, d1 := ch - 32, nop := 0, rdv := false, rdy := .busy
            mem := Memory.store s.dev.mem s.dev.ap.toNat (ch - 32) }
          (s.bus.afterWrite true s.cfg.cmd.dataWriteInc) [.dataWrite (ch - 32), .commandWrite s.cfg.cmd.dataWriteInc]).exceptPolls
      ∧ u.memByte s.dev.ap.toNat = ch - 32 ∧ ∀ a, a ≠ s.dev.ap.toNat → u.memByte a = s.memByte a

/-- RECT (R270): the outline's points have the color, every other bit of memory stays, `14 (w + h)` transfers, the pointer one past the byte of
the last pixel plotted. -/
def Obligations.RectDrawsTheOutline : Prop :=
  ∀ (s : State) (x y w h : Half) (color : Bool), ReadyToDraw s → rectInRange s.cfg x.toInt y.toInt w.toInt h.toInt = true →
    ∃ t u, exec (.rect x y w h color) s = .next t ∧ Reaches t u ∧ DrawingFrame s u (.rect x y w h color) [CNT, ADDR]
      ∧ Drawn s u (rectPoints x.toInt y.toInt w.toInt h.toInt) color
      ∧ (transfers u.trace).length = (transfers s.trace).length + 14 * (w.toNat + h.toNat)
      ∧ u.dev.ap = deviceAddress (graphicAddress s.cfg (x.toInt + w.toInt - 1) (y.toInt + h.toInt - 1)) + 1

/-- R270: the points RECT plots are exactly the outline. -/
def Obligations.RectPointsAreTheOutline : Prop :=
  ∀ x y w h px py : Int, 1 ≤ w → 1 ≤ h →
    ((px, py) ∈ rectPoints x y w h ↔
      (x ≤ px ∧ px ≤ x + w - 1 ∧ y ≤ py ∧ py ≤ y + h - 1) ∧ (px = x ∨ px = x + w - 1 ∨ py = y ∨ py = y + h - 1))

/-- CIRC (R280): the rasterizer's points have the color, every other bit of memory stays, 56 transfers a step, the pointer one past the byte of the
last point plotted. -/
def Obligations.CircDrawsTheCircle : Prop :=
  ∀ (s : State) (cx cy r : Half) (color : Bool), ReadyToDraw s → circleInRange s.cfg cx.toInt cy.toInt r.toInt = true →
    ∃ t u, exec (.circ cx cy r color) s = .next t ∧ Reaches t u
      ∧ DrawingFrame s u (.circ cx cy r color) [CIRX, CIRY, XCH, YCH, RERR, ADDR]
      ∧ Drawn s u (circlePoints cx.toInt cy.toInt r.toInt) color
      ∧ (transfers u.trace).length = (transfers s.trace).length + 7 * (circlePoints cx.toInt cy.toInt r.toInt).length
      ∧ (∀ p ∈ (circlePoints cx.toInt cy.toInt r.toInt).getLast?, u.dev.ap = deviceAddress (graphicAddress s.cfg p.1 p.2) + 1)
      ∧ (circlePoints cx.toInt cy.toInt r.toInt).length ≤ 8 * (r.toNat + 1) ∧ circlePoints cx.toInt cy.toInt r.toInt ≠ []

/-- R281: at the top of every step the tracked values keep their invariant and the points lie within `r` of the centre. -/
def Obligations.CircleStepsKeepTheirInvariant : Prop :=
  ∀ r : Int, 0 ≤ r → ∀ (fuel : Nat), ∀ t ∈ circleTuples fuel (CircleTuple.start r),
    t.xch = 1 - 2 * t.x ∧ t.ych = 2 * t.y + 1 ∧ t.rerr = t.x * t.x + t.y * t.y - r * r ∧ 0 ≤ t.y ∧ t.y ≤ t.x ∧ t.x ≤ r
      ∧ circleTuples fuel (CircleTuple.start r) <+: circleTuples (r + 1).toNat (CircleTuple.start r)

/-- LINE (R290): the rasterizer's points have the color, every other bit of memory stays, seven transfers a point, the pointer one past the byte of
the end point. -/
def Obligations.LineDrawsTheLine : Prop :=
  ∀ (s : State) (x1 y1 x2 y2 : Half) (color : Bool), ReadyToDraw s → lineInRange s.cfg x1.toInt y1.toInt x2.toInt y2.toInt = true →
    ∃ t u, exec (.line x1 y1 x2 y2 color) s = .next t ∧ Reaches t u
      ∧ DrawingFrame s u (.line x1 y1 x2 y2 color) [CURX, CURY, DX, DY, TWODX, TWODY, XINC, YINC, ACC, ADDR]
      ∧ Drawn s u (linePoints x1.toInt y1.toInt x2.toInt y2.toInt) color
      ∧ (transfers u.trace).length = (transfers s.trace).length
          + 7 * (max (x2.toInt - x1.toInt).natAbs (y2.toInt - y1.toInt).natAbs + 1)
      ∧ u.dev.ap = deviceAddress (graphicAddress s.cfg x2.toInt y2.toInt) + 1

/-- R291: a line has `max(DX, DY) + 1` points, starts at one end, ends at the other, and stays between them. -/
def Obligations.LineReachesItsEndpoint : Prop :=
  ∀ x1 y1 x2 y2 : Int,
    (linePoints x1 y1 x2 y2).length = max (x2 - x1).natAbs (y2 - y1).natAbs + 1
      ∧ (linePoints x1 y1 x2 y2).head? = some (x1, y1) ∧ (linePoints x1 y1 x2 y2).getLast? = some (x2, y2)
      ∧ ∀ p ∈ linePoints x1 y1 x2 y2, (min x1 x2 ≤ p.1 ∧ p.1 ≤ max x1 x2) ∧ (min y1 y2 ≤ p.2 ∧ p.2 ≤ max y1 y2)

/-- R214: the translator on its admitted range: addresses inside their areas, strictly rising in `y`, not falling in `x`, and two pixels never share a
bit. -/
def Obligations.TranslatorIsInjectiveAndInArea : Prop :=
  ∀ g : Config, g.ok = true → ∀ x y x' y' : Int,
    (inGraphic g x y = true → (g.graphicHome : Int) ≤ graphicAddress g x y ∧ graphicAddress g x y < g.graphicHome + g.graphicSize
        ∧ 0 ≤ bitOffset g x ∧ bitOffset g x < g.fontWidth)
      ∧ (inText g x y = true → (g.textHome : Int) ≤ textAddress g x y ∧ textAddress g x y < g.textHome + g.textSize)
      ∧ (∀ (slot : Byte) (n : Nat), inSlots g slot = true → n < 8 →
          (g.extCgHome : Int) ≤ cgAddress g slot.toNat + n ∧ cgAddress g slot.toNat + n < g.extCgHome + g.extCgSize)
      ∧ (inGraphic g x y = true → inGraphic g x' y' = true → graphicAddress g x y = graphicAddress g x' y' → bitOffset g x = bitOffset g x' →
          x = x' ∧ y = y')
      ∧ (inGraphic g x y = true → inGraphic g x y' = true → y < y' → graphicAddress g x y < graphicAddress g x y')
      ∧ (x ≤ x' → graphicAddress g x y ≤ graphicAddress g x' y)

/-! ## Sequences the host presents (R195, R247, R261, R353, R366) -/

/-- R247: setting a pixel and clearing it again, each run to its end with its one response, leaves every other pixel as it was before both. -/
def Obligations.PixelRoundTrip : Prop :=
  ∀ (s : State) (x y : Half), ReadyToDraw s → inGraphic s.cfg x.toInt y.toInt = true →
    let done : Response := { code := 0, data := s.eng.res, bof := s.eng.bof.extractLsb' 0 3 }
    ∃ t u t' w, exec (.spx x y true) s = .next t ∧ Reaches t u ∧ ReadyToDraw u ∧ u.host.req = s.host.req ∧ u.responses = done :: s.responses
      ∧ (transfers u.trace).length = (transfers s.trace).length + 7 ∧ pixel u x.toInt y.toInt = true
      ∧ exec (.spx x y false) u = .next t' ∧ Reaches t' w ∧ ReadyToDraw w ∧ w.host.req = s.host.req ∧ w.responses = done :: done :: s.responses
      ∧ (transfers w.trace).length = (transfers s.trace).length + 14 ∧ pixel w x.toInt y.toInt = false
      ∧ ∀ x' y' : Int, inGraphic s.cfg x' y' = true → (x', y') ≠ (x.toInt, y.toInt) → pixel w x' y' = pixel s x' y'

/-- R195, R363: the raw read sequence returns the byte at the address. -/
def Obligations.RawReadReturnsTheByte : Prop :=
  ∀ (s : State) (a : Half) (later : List Descriptor), ReadyToDraw s → a.toNat < s.cfg.ramSize →
    s.host.req = encode (.wrd (a.extractLsb' 0 8)) :: encode (.wrd (a.extractLsb' 8 8)) :: encode (.wrc s.cfg.cmd.setAddressPointer)
      :: encode (.wrc s.cfg.cmd.dataReadNonvar) :: encode .rdd :: later →
    ∃ u, Reaches s u ∧ ReadyToDraw u ∧ u.host.req = later ∧ u.eng.res = (s.memByte a.toNat).setWidth 16 ∧ u.dev.ap = a
      ∧ u.responses.take 1 = [{ code := 0, data := (s.memByte a.toNat).setWidth 16, bof := s.eng.bof.extractLsb' 0 3 }]
      ∧ u.responses.length = s.responses.length + 5 ∧ ∀ m, u.memByte m = s.memByte m

/-- R366, R82: SAP and then WCH store the character's code in the text cell and nowhere else. -/
def Obligations.SapThenWchWritesTheCell : Prop :=
  ∀ (s : State) (x y : Half) (ch : Byte) (later : List Descriptor), ReadyToDraw s → inText s.cfg x.toInt y.toInt = true →
    s.host.req = encode (.sap x y) :: encode (.wch ch) :: later →
    ∃ u, Reaches s u ∧ ReadyToDraw u ∧ u.host.req = later ∧ u.memByte (textAddress s.cfg x.toInt y.toInt).toNat = ch - 32
      ∧ (u.dev.ap.toNat : Int) = (textAddress s.cfg x.toInt y.toInt + 1) % 65536
      ∧ ∀ m : Nat, (m : Int) ≠ textAddress s.cfg x.toInt y.toInt → u.memByte m = s.memByte m

/-- R261: a string is written at the pointer, one cell a character, and the pointer ends one past it. -/
def Obligations.StringIsWrittenCellByCell : Prop :=
  ∀ (s : State) (text : List Nat) (ops : List Instr) (later : List Descriptor), ReadyToDraw s → expandString text = some ops →
    s.host.req = ops.map encode ++ later → s.dev.ap.toNat + text.length ≤ s.cfg.ramSize →
    ∃ u, Reaches s u ∧ ReadyToDraw u ∧ u.host.req = later ∧ ops.length = text.length ∧ u.responses.length = s.responses.length + text.length
      ∧ (∀ (n : Nat) (c : Nat), text[n]? = some c → c ≤ 255 ∧ u.memByte (s.dev.ap.toNat + n) = BitVec.ofNat 8 c - 32)
      ∧ (∀ m : Nat, m < s.dev.ap.toNat ∨ s.dev.ap.toNat + text.length ≤ m → u.memByte m = s.memByte m)
      ∧ u.dev.ap = s.dev.ap + BitVec.ofNat 16 text.length

/-- R353: the boot order: from the reset state INIT, CLT and CLG leave the device initialised and both planes clear. -/
def Obligations.BootClearsTheScreen : Prop :=
  ∀ (s : State) (later : List Descriptor), AfterReset s → s.cfg.ok = true → s.host.rst = [] → Responsive s →
    s.host.req = encode .init :: encode .clt :: encode .clg :: later →
    ∃ u, Reaches s u ∧ Initialised u ∧ ReadyToDraw u ∧ TextCleared u ∧ GraphicCleared u ∧ u.host.req = later ∧ u.eng.err = 0

/-- R106, R370: the host's truncation goes toward zero and sends nothing outside the 16-bit range. -/
def Obligations.CoordinatesTruncateTowardZero : Prop :=
  ∀ (num : Int) (den : Nat), 0 < den →
    (∀ h : Half, truncateOperand num den = some h →
      (h.toInt * den).natAbs ≤ num.natAbs ∧ (num - h.toInt * den).natAbs < den ∧ 0 ≤ h.toInt * num)
    ∧ (truncateOperand num den = none ↔ num.tdiv den < -32768 ∨ 32767 < num.tdiv den)

/-! ## Whole-machine rules -/

/-- R352: the model starts from the state after an engine reset; that state meets the two invariants below. No clause
rests on the zeros the model chose for what a reset leaves unspecified (log entry 4). -/
def Obligations.ResetMeetsTheInvariants : Prop :=
  AfterReset State.reset ∧ State.reset.reqReady = true ∧ State.reset.host.rspValid = false ∧ State.reset.faultOut = false
    ∧ State.reset.responses = [] ∧ State.reset.trace = [] ∧ Machine.Inv State.reset ∧ PolledTrace State.reset

/-- Every step keeps the invariant: memory's canonical form, the field ranges (R25, R26, R109), the sequencer's position (R21, R22), the resting
lines (R151), the latches in reset (R194) and "no transfer without a poll" (R193). -/
def Obligations.StepKeepsTheInvariant : Prop := ∀ s t : State, Machine.Inv s → step s = .next t → Machine.Inv t

/-- R85, R141: in every trace each transfer directly follows a status read that found the device ready. -/
def Obligations.EveryTransferFollowsAReadyStatus : Prop := ∀ s t : State, PolledTrace s → step s = .next t → PolledTrace t

/-- R193: the engine cannot make a transfer while the device is busy. -/
def Obligations.NoTransferToABusyDevice : Prop := ∀ s : State, Machine.Inv s → step s ≠ .refused .transferWhileBusy

/-- R27, R322, R323: `E.ERR` and `E.EOP` are written on every fault and on reset and by nothing else; each response with a non-zero code goes with
that code in `E.ERR` and the opcode in `E.EOP`, and carries `E.RES` and `E.BOF`. -/
def Obligations.FaultRegistersAreWrittenByFaults : Prop :=
  ∀ s t : State, step s = .next t →
    (s.host.rst.head? = some true → t.eng.err = 0 ∧ t.eng.eop = 0 ∧ t.responses = s.responses)
      ∧ (s.host.rst.head? ≠ some true →
          (t.responses = s.responses ∧ t.eng.err = s.eng.err ∧ t.eng.eop = s.eng.eop)
          ∨ ∃ r, t.responses = r :: s.responses ∧ r.data = t.eng.res ∧ r.bof = t.eng.bof.extractLsb' 0 3 ∧ t.eng.st ≠ .run
            ∧ ((r.code = 0 ∧ t.eng.err = s.eng.err ∧ t.eng.eop = s.eng.eop)
              ∨ (r.code ≠ 0 ∧ t.eng.err = r.code ∧ t.eng.eop = t.eng.opc)))

/-- R26: without `rst`, `E.BOF` changes only when GRA is accepted, and `E.RES` only then, when TXA or CGA is, or at the read of RDD or RDS. R26 names the
operations; that the three queries write in the accepting step of an idle engine is the model's choice (log entry 8). -/
def Obligations.ResultRegistersHaveFewWriters : Prop :=
  ∀ s t : State, step s = .next t → s.host.rst.head? ≠ some true →
    (t.eng.bof ≠ s.eng.bof → s.eng.st = .idle ∧ ∃ d x y, s.host.req.head? = some d ∧ decode d = .ok (.gra x y))
      ∧ (t.eng.res ≠ s.eng.res →
          (s.eng.st = .run ∧ ∃ cd, s.eng.seq.head? = some (.readRes cd))
          ∨ (s.eng.st = .idle ∧ ∃ d i, s.host.req.head? = some d ∧ decode d = .ok i
              ∧ ((∃ x y, i = .txa x y) ∨ (∃ x y, i = .gra x y) ∨ ∃ slot, i = .cga slot)))

/-- R70, R84(d), R351: a byte of device memory changes only by a data-write command at the pointer, or by a hardware reset that loses memory. -/
def Obligations.MemoryChangesOnlyByDataWrites : Prop :=
  ∀ (s t : State) (a : Nat), step s = .next t → t.memByte a ≠ s.memByte a →
    (s.cfg.resetKeepsMem = false ∧ (s.host.rst.head? = some true ∨ s.eng.seq.head? = some .assertReset ∨ s.eng.seq.head? = some .quiesce))
      ∨ (a = s.dev.ap.toNat ∧ t.memByte a = s.dev.d1 ∧ s.eng.st = .run ∧ ∃ v c, s.eng.seq.head? = some (.busWrite true v)
          ∧ decodeCommand s.cfg.cmd (v.value s.eng) = some c ∧ (c = .dataWriteInc ∨ c = .dataWriteDec ∨ c = .dataWriteNonvar))

end Statements
end

