-- ==== Sys2Proof/Laws/Geometry.lean ====
section
/-! SUPPORT. What a well-formed configuration gives (00_scope.md R7 to R10): bounds of the areas, and that every command byte decodes to its own
command (30_encoding.md R118, R119). -/

namespace Sys2Proof

variable {g : Config}

theorem Config.geom_of_ok (h : g.ok = true) : g.geomOK = true := by
  simp only [Config.ok, Bool.and_eq_true] at h; exact h.1.1

theorem Config.values_of_ok (h : g.ok = true) : g.valuesOK = true := by
  simp only [Config.ok, Bool.and_eq_true] at h; exact h.1.2

theorem Config.commands_of_ok (h : g.ok = true) : g.commandsOK = true := by
  simp only [Config.ok, Bool.and_eq_true] at h; exact h.2

/-- `GeomOK` (R10), clause by clause. -/
theorem Config.geomOK_iff : g.geomOK = true ↔
    (g.fontWidth = 6 ∨ g.fontWidth = 8) ∧ 1 ≤ g.textArea ∧ g.textArea ≤ 255 ∧ 1 ≤ g.textRows
      ∧ g.graphicHome + g.graphicSize ≤ g.ramSize ∧ g.extCgHome + g.extCgSize ≤ g.ramSize
      ∧ g.textHome + g.textSize ≤ 65536 ∧ g.ramSize ≤ 65536 := by
  simp only [Config.geomOK, Bool.and_eq_true, Bool.or_eq_true, decide_eq_true_eq, beq_iff_eq]
  tauto

theorem Config.fontWidth_cases (h : g.ok = true) : g.fontWidth = 6 ∨ g.fontWidth = 8 :=
  (Config.geomOK_iff.mp (Config.geom_of_ok h)).1

theorem Config.ramSize_le (h : g.ok = true) : g.ramSize ≤ 65536 := (Config.geomOK_iff.mp (Config.geom_of_ok h)).2.2.2.2.2.2.2

theorem Config.graphic_le (h : g.ok = true) : g.graphicHome + g.graphicSize ≤ g.ramSize :=
  (Config.geomOK_iff.mp (Config.geom_of_ok h)).2.2.2.2.1

theorem Config.cg_le (h : g.ok = true) : g.extCgHome + g.extCgSize ≤ g.ramSize :=
  (Config.geomOK_iff.mp (Config.geom_of_ok h)).2.2.2.2.2.1

theorem Config.text_le (h : g.ok = true) : g.textHome + g.textSize ≤ g.ramSize := by
  have := Config.graphic_le h
  unfold Config.graphicHome at this
  omega

theorem Config.textArea_le (h : g.ok = true) : g.textArea ≤ 255 := (Config.geomOK_iff.mp (Config.geom_of_ok h)).2.2.1

theorem Config.offsetReg_le (h : g.ok = true) : g.offsetReg ≤ 31 := by
  have := Config.values_of_ok h
  simp only [Config.valuesOK, Bool.and_eq_true, decide_eq_true_eq] at this
  omega

theorem Config.glyphs_bounds (h : g.ok = true) : 1 ≤ g.extCgGlyphs ∧ g.extCgGlyphs ≤ 256 := by
  have := Config.values_of_ok h
  simp only [Config.valuesOK, Bool.and_eq_true, decide_eq_true_eq] at this
  omega

theorem Config.pixel_bounds (h : g.ok = true) :
    g.pixelsPerLine ≤ 32767 ∧ g.numberOfLines ≤ 32767 := by
  have := Config.values_of_ok h
  simp only [Config.valuesOK, Bool.and_eq_true, decide_eq_true_eq] at this
  omega

namespace Machine

/-! ## Command bytes -/

theorem highNibble_add (k : Byte) (n : Nat) (hn : n ≤ 15) (h : lowNibble k = 0) :
    highNibble (k + BitVec.ofNat 8 n) = highNibble k ∧ lowNibble (k + BitVec.ofNat 8 n) = BitVec.ofNat 4 n := by
  have hk : k.toNat < 256 := k.isLt
  have h0 : k.toNat % 16 = 0 := by
    have := congrArg BitVec.toNat h
    simpa [lowNibble] using this
  constructor
  · apply BitVec.eq_of_toNat_eq
    simp only [highNibble, BitVec.extractLsb'_toNat, BitVec.toNat_add, BitVec.toNat_ofNat, Nat.shiftRight_eq_div_pow]
    omega
  · apply BitVec.eq_of_toNat_eq
    simp only [lowNibble, BitVec.extractLsb'_toNat, BitVec.toNat_add, BitVec.toNat_ofNat, Nat.shiftRight_eq_div_pow]
    omega

/-- `commandsOK` (R118, R119), clause by clause. -/
theorem Config.commandsOK_iff {g : Config} : g.commandsOK = true ↔
    g.cmd.exact.Nodup
      ∧ (∀ k ∈ g.cmd.exact, highNibble k ≠ highNibble g.cmd.modeSet ∧ highNibble k ≠ highNibble g.cmd.displayMode)
      ∧ highNibble g.cmd.modeSet ≠ highNibble g.cmd.displayMode
      ∧ lowNibble g.cmd.modeSet = 0 ∧ lowNibble g.cmd.displayMode = 0
      ∧ g.dmGraphic.toNat + g.dmText.toNat + g.dmCursor.toNat ≤ 15 := by
  simp only [Config.commandsOK, Bool.and_eq_true, decide_eq_true_eq, List.all_eq_true, bne_iff_ne, beq_iff_eq]
  tauto

section
variable {g : Config} (h : g.commandsOK = true)
include h

/-- Each exact command byte decodes to its command (R118). -/
theorem decodeCommand_exact :
    decodeCommand g.cmd g.cmd.setCursorPointer = some .setCursorPointer
      ∧ decodeCommand g.cmd g.cmd.setOffsetRegister = some .setOffsetRegister
      ∧ decodeCommand g.cmd g.cmd.setAddressPointer = some .setAddressPointer
      ∧ decodeCommand g.cmd g.cmd.setTextHome = some .setTextHome
      ∧ decodeCommand g.cmd g.cmd.setTextArea = some .setTextArea
      ∧ decodeCommand g.cmd g.cmd.setGraphicHome = some .setGraphicHome
      ∧ decodeCommand g.cmd g.cmd.setGraphicArea = some .setGraphicArea
      ∧ decodeCommand g.cmd g.cmd.dataWriteInc = some .dataWriteInc
      ∧ decodeCommand g.cmd g.cmd.dataReadInc = some .dataReadInc
      ∧ decodeCommand g.cmd g.cmd.dataWriteDec = some .dataWriteDec
      ∧ decodeCommand g.cmd g.cmd.dataReadDec = some .dataReadDec
      ∧ decodeCommand g.cmd g.cmd.dataWriteNonvar = some .dataWriteNonvar
      ∧ decodeCommand g.cmd g.cmd.dataReadNonvar = some .dataReadNonvar := by
  obtain ⟨h1, h2, h3, h4, h5, h6⟩ := Config.commandsOK_iff.mp h
  simp only [Commands.exact, List.nodup_cons, List.mem_cons, List.not_mem_nil, or_false, not_or, not_false_eq_true, and_true,
    List.nodup_nil, forall_eq_or_imp, forall_eq] at h1 h2
  obtain ⟨a1, a2, a3, a4, a5, a6, a7, a8, a9, a10, a11, a12⟩ := h1
  refine ⟨?_, ?_, ?_, ?_, ?_, ?_, ?_, ?_, ?_, ?_, ?_, ?_, ?_⟩ <;>
    simp [decodeCommand, a1, a2, a3, a4, a5, a6, a7, a8, a9, a10, a11, a12, h2, eq_comm]

/-- A byte with the mode-set command's high bits selects it, its low bits the argument (R118). -/
theorem decodeCommand_modeSet (arg : Nibble) :
    decodeCommand g.cmd (g.cmd.modeSet + arg.setWidth 8) = some (.modeSet arg) := by
  obtain ⟨h1, h2, h3, h4, h5, h6⟩ := Config.commandsOK_iff.mp h
  have hn := highNibble_add g.cmd.modeSet arg.toNat (by omega) h4
  rw [show BitVec.ofNat 8 arg.toNat = arg.setWidth 8 from BitVec.eq_of_toNat_eq (by simp),
    show BitVec.ofNat 4 arg.toNat = arg from BitVec.eq_of_toNat_eq (by simp)] at hn
  have hne : ∀ k ∈ g.cmd.exact, g.cmd.modeSet + arg.setWidth 8 ≠ k := by
    intro k hk e
    exact (h2 k hk).1 (e ▸ hn.1)
  simp only [Commands.exact, List.mem_cons, List.not_mem_nil, or_false, forall_eq_or_imp, forall_eq] at hne
  simp [decodeCommand, hne, hn.1, hn.2]

/-- The same for the display-mode command (R118). -/
theorem decodeCommand_displayMode (arg : Nat) (ha : arg ≤ 15) :
    decodeCommand g.cmd (g.cmd.displayMode + BitVec.ofNat 8 arg) = some (.displayMode (BitVec.ofNat 4 arg)) := by
  obtain ⟨h1, h2, h3, h4, h5, h6⟩ := Config.commandsOK_iff.mp h
  have hn := highNibble_add g.cmd.displayMode arg ha h5
  have hne : ∀ k ∈ g.cmd.exact, g.cmd.displayMode + BitVec.ofNat 8 arg ≠ k := by
    intro k hk e
    exact (h2 k hk).2 (e ▸ hn.1)
  simp only [Commands.exact, List.mem_cons, List.not_mem_nil, or_false, forall_eq_or_imp, forall_eq] at hne
  simp [decodeCommand, hne, hn.1, hn.2, Ne.symm h3]

end

end Machine

end Sys2Proof
end

