-- ==== Sys2Proof/Laws/State.lean ====
section
/-! SUPPORT. One lemma per field per update of State, true by rfl, so that no proof unfolds a record update. -/

namespace Sys2Proof.Machine

variable (s : State)

@[simp] theorem State.setEng_cfg (v : Engine) : (s.setEng v).cfg = s.cfg := rfl
@[simp] theorem State.setEng_eng (v : Engine) : (s.setEng v).eng = v := rfl
@[simp] theorem State.setEng_dev (v : Engine) : (s.setEng v).dev = s.dev := rfl
@[simp] theorem State.setEng_bus (v : Engine) : (s.setEng v).bus = s.bus := rfl
@[simp] theorem State.setEng_host (v : Engine) : (s.setEng v).host = s.host := rfl
@[simp] theorem State.setEng_free (v : Engine) : (s.setEng v).free = s.free := rfl
@[simp] theorem State.setEng_trace (v : Engine) : (s.setEng v).trace = s.trace := rfl
@[simp] theorem State.setEng_responses (v : Engine) : (s.setEng v).responses = s.responses := rfl
@[simp] theorem State.setEng_setEng (v w : Engine) : (s.setEng v).setEng w = s.setEng w := rfl
@[simp] theorem State.setEng_self : s.setEng s.eng = s := rfl

@[simp] theorem State.setDev_cfg (v : Device) : (s.setDev v).cfg = s.cfg := rfl
@[simp] theorem State.setDev_eng (v : Device) : (s.setDev v).eng = s.eng := rfl
@[simp] theorem State.setDev_dev (v : Device) : (s.setDev v).dev = v := rfl
@[simp] theorem State.setDev_bus (v : Device) : (s.setDev v).bus = s.bus := rfl
@[simp] theorem State.setDev_host (v : Device) : (s.setDev v).host = s.host := rfl
@[simp] theorem State.setDev_free (v : Device) : (s.setDev v).free = s.free := rfl
@[simp] theorem State.setDev_trace (v : Device) : (s.setDev v).trace = s.trace := rfl
@[simp] theorem State.setDev_responses (v : Device) : (s.setDev v).responses = s.responses := rfl
@[simp] theorem State.setDev_setDev (v w : Device) : (s.setDev v).setDev w = s.setDev w := rfl
@[simp] theorem State.setDev_self : s.setDev s.dev = s := rfl

@[simp] theorem State.setBus_cfg (v : Bus) : (s.setBus v).cfg = s.cfg := rfl
@[simp] theorem State.setBus_eng (v : Bus) : (s.setBus v).eng = s.eng := rfl
@[simp] theorem State.setBus_dev (v : Bus) : (s.setBus v).dev = s.dev := rfl
@[simp] theorem State.setBus_bus (v : Bus) : (s.setBus v).bus = v := rfl
@[simp] theorem State.setBus_host (v : Bus) : (s.setBus v).host = s.host := rfl
@[simp] theorem State.setBus_free (v : Bus) : (s.setBus v).free = s.free := rfl
@[simp] theorem State.setBus_trace (v : Bus) : (s.setBus v).trace = s.trace := rfl
@[simp] theorem State.setBus_responses (v : Bus) : (s.setBus v).responses = s.responses := rfl
@[simp] theorem State.setBus_setBus (v w : Bus) : (s.setBus v).setBus w = s.setBus w := rfl
@[simp] theorem State.setBus_self : s.setBus s.bus = s := rfl

@[simp] theorem State.setHost_cfg (v : HostPort) : (s.setHost v).cfg = s.cfg := rfl
@[simp] theorem State.setHost_eng (v : HostPort) : (s.setHost v).eng = s.eng := rfl
@[simp] theorem State.setHost_dev (v : HostPort) : (s.setHost v).dev = s.dev := rfl
@[simp] theorem State.setHost_bus (v : HostPort) : (s.setHost v).bus = s.bus := rfl
@[simp] theorem State.setHost_host (v : HostPort) : (s.setHost v).host = v := rfl
@[simp] theorem State.setHost_free (v : HostPort) : (s.setHost v).free = s.free := rfl
@[simp] theorem State.setHost_trace (v : HostPort) : (s.setHost v).trace = s.trace := rfl
@[simp] theorem State.setHost_responses (v : HostPort) : (s.setHost v).responses = s.responses := rfl
@[simp] theorem State.setHost_setHost (v w : HostPort) : (s.setHost v).setHost w = s.setHost w := rfl
@[simp] theorem State.setHost_self : s.setHost s.host = s := rfl

@[simp] theorem State.setFree_cfg (v : Choices) : (s.setFree v).cfg = s.cfg := rfl
@[simp] theorem State.setFree_eng (v : Choices) : (s.setFree v).eng = s.eng := rfl
@[simp] theorem State.setFree_dev (v : Choices) : (s.setFree v).dev = s.dev := rfl
@[simp] theorem State.setFree_bus (v : Choices) : (s.setFree v).bus = s.bus := rfl
@[simp] theorem State.setFree_host (v : Choices) : (s.setFree v).host = s.host := rfl
@[simp] theorem State.setFree_free (v : Choices) : (s.setFree v).free = v := rfl
@[simp] theorem State.setFree_trace (v : Choices) : (s.setFree v).trace = s.trace := rfl
@[simp] theorem State.setFree_responses (v : Choices) : (s.setFree v).responses = s.responses := rfl
@[simp] theorem State.setFree_setFree (v w : Choices) : (s.setFree v).setFree w = s.setFree w := rfl
@[simp] theorem State.setFree_self : s.setFree s.free = s := rfl

@[simp] theorem State.record_cfg (t : Transaction) : (s.record t).cfg = s.cfg := rfl
@[simp] theorem State.record_eng (t : Transaction) : (s.record t).eng = s.eng := rfl
@[simp] theorem State.record_dev (t : Transaction) : (s.record t).dev = s.dev := rfl
@[simp] theorem State.record_bus (t : Transaction) : (s.record t).bus = s.bus := rfl
@[simp] theorem State.record_host (t : Transaction) : (s.record t).host = s.host := rfl
@[simp] theorem State.record_free (t : Transaction) : (s.record t).free = s.free := rfl
@[simp] theorem State.record_trace (t : Transaction) : (s.record t).trace = t :: s.trace := rfl
@[simp] theorem State.record_responses (t : Transaction) : (s.record t).responses = s.responses := rfl

@[simp] theorem State.respond_cfg (c : Nibble) : (s.respond c).cfg = s.cfg := rfl
@[simp] theorem State.respond_eng (c : Nibble) : (s.respond c).eng = s.eng := rfl
@[simp] theorem State.respond_dev (c : Nibble) : (s.respond c).dev = s.dev := rfl
@[simp] theorem State.respond_bus (c : Nibble) : (s.respond c).bus = s.bus := rfl
@[simp] theorem State.respond_host (c : Nibble) : (s.respond c).host = { s.host with rspValid := true, rspCode := c } := rfl
@[simp] theorem State.respond_free (c : Nibble) : (s.respond c).free = s.free := rfl
@[simp] theorem State.respond_trace (c : Nibble) : (s.respond c).trace = s.trace := rfl
@[simp] theorem State.respond_responses (c : Nibble) : (s.respond c).responses = { code := c, data := s.rspData, bof := s.rspBof } :: s.responses := rfl

@[simp] theorem State.accepted_cfg (d : Descriptor) : (s.accepted d).cfg = s.cfg := rfl
@[simp] theorem State.accepted_eng (d : Descriptor) : (s.accepted d).eng = s.eng.latch d := rfl
@[simp] theorem State.accepted_dev (d : Descriptor) : (s.accepted d).dev = s.dev := rfl
@[simp] theorem State.accepted_bus (d : Descriptor) : (s.accepted d).bus = s.bus := rfl
@[simp] theorem State.accepted_host (d : Descriptor) : (s.accepted d).host = { s.host with rspValid := false } := rfl
@[simp] theorem State.accepted_free (d : Descriptor) : (s.accepted d).free = s.free := rfl
@[simp] theorem State.accepted_trace (d : Descriptor) : (s.accepted d).trace = s.trace := rfl
@[simp] theorem State.accepted_responses (d : Descriptor) : (s.accepted d).responses = s.responses := rfl

@[simp] theorem State.takeFault_cfg (k : FaultKind) : (s.takeFault k).cfg = s.cfg := rfl
@[simp] theorem State.takeFault_eng (k : FaultKind) : (s.takeFault k).eng = { s.eng with err := k.code, eop := s.eng.opc, seq := [], st := k.stateAfter } := rfl
@[simp] theorem State.takeFault_dev (k : FaultKind) : (s.takeFault k).dev = s.dev := rfl
@[simp] theorem State.takeFault_bus (k : FaultKind) : (s.takeFault k).bus = s.bus := rfl
@[simp] theorem State.takeFault_host (k : FaultKind) : (s.takeFault k).host = { s.host with rspValid := true, rspCode := k.code } := rfl
@[simp] theorem State.takeFault_free (k : FaultKind) : (s.takeFault k).free = s.free := rfl
@[simp] theorem State.takeFault_trace (k : FaultKind) : (s.takeFault k).trace = s.trace := rfl
@[simp] theorem State.takeFault_responses (k : FaultKind) : (s.takeFault k).responses = { code := k.code, data := s.rspData, bof := s.rspBof } :: s.responses := rfl

@[simp] theorem State.finish_cfg : s.finish.cfg = s.cfg := rfl
@[simp] theorem State.finish_eng : s.finish.eng = { s.eng with st := .idle, seq := [] } := rfl
@[simp] theorem State.finish_dev : s.finish.dev = s.dev := rfl
@[simp] theorem State.finish_bus : s.finish.bus = s.bus := rfl
@[simp] theorem State.finish_host : s.finish.host = { s.host with rspValid := true, rspCode := 0 } := rfl
@[simp] theorem State.finish_free : s.finish.free = s.free := rfl
@[simp] theorem State.finish_trace : s.finish.trace = s.trace := rfl
@[simp] theorem State.finish_responses : s.finish.responses = { code := 0, data := s.rspData, bof := s.rspBof } :: s.responses := rfl

@[simp] theorem State.statusRead_cfg : s.statusRead.cfg = s.cfg := rfl
@[simp] theorem State.statusRead_eng : s.statusRead.eng = s.eng := rfl
@[simp] theorem State.statusRead_dev : s.statusRead.dev = { s.dev with rdy := if statusReady s.statusByte then .ready else .busy } := rfl
@[simp] theorem State.statusRead_bus : s.statusRead.bus = s.bus.perform (readCalls true) := rfl
@[simp] theorem State.statusRead_host : s.statusRead.host = s.host := rfl
@[simp] theorem State.statusRead_free : s.statusRead.free = s.free.advance := rfl
@[simp] theorem State.statusRead_trace : s.statusRead.trace = .statusRead s.statusByte :: s.trace := rfl
@[simp] theorem State.statusRead_responses : s.statusRead.responses = s.responses := rfl

@[simp] theorem State.dataRead_cfg : s.dataRead.cfg = s.cfg := rfl
@[simp] theorem State.dataRead_eng : s.dataRead.eng = s.eng := rfl
@[simp] theorem State.dataRead_dev : s.dataRead.dev = { s.dev with rdv := false, rdy := .busy } := rfl
@[simp] theorem State.dataRead_bus : s.dataRead.bus = s.bus.perform (readCalls false) := rfl
@[simp] theorem State.dataRead_host : s.dataRead.host = s.host := rfl
@[simp] theorem State.dataRead_free : s.dataRead.free = if s.dev.rdv then s.free else s.free.advance := rfl
@[simp] theorem State.dataRead_trace : s.dataRead.trace = .dataRead s.dataByte :: s.trace := rfl
@[simp] theorem State.dataRead_responses : s.dataRead.responses = s.responses := rfl

@[simp] theorem State.resetDevice_cfg : s.resetDevice.cfg = s.cfg := rfl
@[simp] theorem State.resetDevice_eng : s.resetDevice.eng = s.eng := rfl
@[simp] theorem State.resetDevice_dev : s.resetDevice.dev = s.dev.hardwareReset s.free.resets s.cfg.resetKeepsMem := rfl
@[simp] theorem State.resetDevice_bus : s.resetDevice.bus = s.bus := rfl
@[simp] theorem State.resetDevice_host : s.resetDevice.host = s.host := rfl
@[simp] theorem State.resetDevice_free : s.resetDevice.free = { s.free with resets := s.free.resets + 1, memGen := if s.cfg.resetKeepsMem then s.free.memGen else s.free.memGen + 1 } := rfl
@[simp] theorem State.resetDevice_trace : s.resetDevice.trace = s.trace := rfl
@[simp] theorem State.resetDevice_responses : s.resetDevice.responses = s.responses := rfl

@[simp] theorem State.engineReset_cfg : s.engineReset.cfg = s.cfg := rfl
@[simp] theorem State.engineReset_eng : s.engineReset.eng = Engine.afterReset s.free.resets := rfl
@[simp] theorem State.engineReset_dev : s.engineReset.dev = s.dev.hardwareReset s.free.resets s.cfg.resetKeepsMem := rfl
@[simp] theorem State.engineReset_bus : s.engineReset.bus = Bus.quiescent := rfl
@[simp] theorem State.engineReset_host : s.engineReset.host = { s.host with rspValid := false, rspCode := 0 } := rfl
@[simp] theorem State.engineReset_free : s.engineReset.free = { s.free with resets := s.free.resets + 1, memGen := if s.cfg.resetKeepsMem then s.free.memGen else s.free.memGen + 1 } := rfl
@[simp] theorem State.engineReset_trace : s.engineReset.trace = s.trace := rfl
@[simp] theorem State.engineReset_responses : s.engineReset.responses = s.responses := rfl

end Sys2Proof.Machine
end

