-- ==== Sys2Proof/Laws/Memory.lean ====
section
/-! SUPPORT. The laws of device memory: read after write, and that a store keeps the canonical form. -/

namespace Sys2Proof.Machine

theorem Memory.find_store_self (m : Memory) (a : Nat) (v : Byte) : Memory.find (Memory.store m a v) a = some v := by
  induction m with
  | nil => simp [Memory.store, Memory.find]
  | cons c rest ih =>
    obtain ⟨b, w⟩ := c
    simp only [Memory.store]
    split
    · simp [Memory.find]
    · split
      · simp [Memory.find]
      · rename_i h1 h2
        simp [Memory.find, h2, ih]

theorem Memory.find_store_other (m : Memory) {a a' : Nat} (v : Byte) (h : a' ≠ a) :
    Memory.find (Memory.store m a v) a' = Memory.find m a' := by
  induction m with
  | nil => simp [Memory.store, Memory.find, h]
  | cons c rest ih =>
    obtain ⟨b, w⟩ := c
    simp only [Memory.store]
    split
    · simp [Memory.find, h]
    · split
      · rename_i h1 h2
        subst h2
        simp [Memory.find, h]
      · simp [Memory.find, ih]

/-- Reading back what was stored (R195). -/
@[simp] theorem Memory.byte_store_self (m : Memory) (g a : Nat) (v : Byte) : Memory.byte (Memory.store m a v) g a = v := by
  simp [Memory.byte, Memory.find_store_self]

/-- A store leaves every other address alone. -/
theorem Memory.byte_store_other (m : Memory) (g : Nat) {a a' : Nat} (v : Byte) (h : a' ≠ a) :
    Memory.byte (Memory.store m a v) g a' = Memory.byte m g a' := by
  simp [Memory.byte, Memory.find_store_other m v h]

theorem Memory.byte_store (m : Memory) (g a a' : Nat) (v : Byte) :
    Memory.byte (Memory.store m a v) g a' = if a' = a then v else Memory.byte m g a' := by
  split
  · simp [*]
  · exact Memory.byte_store_other m g v ‹_›

theorem Memory.wf_cons {a : Nat} {v : Byte} {rest : Memory} :
    Memory.wf ((a, v) :: rest) = true ↔ Memory.wf rest = true ∧ ∀ c ∈ rest.head?, a < c.1 := by
  cases rest with
  | nil => simp [Memory.wf]
  | cons c r => obtain ⟨b, w⟩ := c; simp [Memory.wf, and_comm]

/-- A store keeps the canonical form. -/
theorem Memory.wf_store {m : Memory} (a : Nat) (v : Byte) (h : Memory.wf m = true) : Memory.wf (Memory.store m a v) = true := by
  induction m with
  | nil => simp [Memory.store, Memory.wf]
  | cons c rest ih =>
    obtain ⟨b, w⟩ := c
    have hc := Memory.wf_cons.mp h
    simp only [Memory.store]
    split
    · exact Memory.wf_cons.mpr ⟨h, by simp; omega⟩
    · split
      · rename_i h1 h2
        subst h2
        exact Memory.wf_cons.mpr hc
      · rename_i h1 h2
        refine Memory.wf_cons.mpr ⟨ih hc.1, ?_⟩
        intro c' hc'
        cases rest with
        | nil => simp [Memory.store] at hc'; subst hc'; simp; omega
        | cons d r =>
          obtain ⟨b', w'⟩ := d
          have hb : b < b' := by simpa using hc.2
          simp only [Memory.store] at hc'
          split at hc'
          · simp at hc'; subst hc'; simp; omega
          · split at hc'
            · simp at hc'; subst hc'; simp; omega
            · simp at hc'; subst hc'; simpa using hb

/-- A store lists no address but the old ones and its own. -/
theorem Memory.mem_store {m : Memory} {a : Nat} {v : Byte} {c : Host.Cell} (h : c ∈ Memory.store m a v) : c.1 = a ∨ c ∈ m := by
  induction m with
  | nil => simp [Memory.store] at h; simp [h]
  | cons d rest ih =>
    obtain ⟨b, w⟩ := d
    simp only [Memory.store] at h
    split at h
    · simp at h; rcases h with rfl | rfl | h <;> simp [*]
    · split at h
      · rename_i h1 h2; subst h2
        simp at h; rcases h with rfl | h <;> simp [*]
      · simp at h
        rcases h with rfl | h
        · simp
        · rcases ih h with h | h <;> simp [h]

/-- A command of the device keeps memory's canonical form, and lists a new byte at the pointer only (R185 to R190). -/
theorem Memory.wf_runCommand (d : Device) (g : Nat) (c : DeviceCommand) (h : Memory.wf d.mem = true) :
    Memory.wf (d.runCommand g c).mem = true ∧ ∀ b ∈ (d.runCommand g c).mem, (b.1 = d.ap.toNat ∧ c.accessesMemory = true) ∨ b ∈ d.mem := by
  have st : Memory.wf (Memory.store d.mem d.ap.toNat d.d1) = true
      ∧ ∀ b ∈ Memory.store d.mem d.ap.toNat d.d1, (b.1 = d.ap.toNat ∧ true = true) ∨ b ∈ d.mem :=
    ⟨Memory.wf_store _ _ h, fun b hb => (Memory.mem_store hb).imp (fun h => ⟨h, rfl⟩) id⟩
  cases c <;> first | exact st | exact ⟨h, fun b hb => .inr hb⟩

/-- A hardware reset keeps memory's canonical form (R53). -/
theorem Memory.wf_hardwareReset (d : Device) (n : Nat) (k : Bool) (h : Memory.wf d.mem = true) :
    Memory.wf (d.hardwareReset n k).mem = true ∧ ∀ b ∈ (d.hardwareReset n k).mem, b ∈ d.mem := by
  cases k with
  | true => exact ⟨h, fun b hb => hb⟩
  | false => exact ⟨rfl, fun b hb => by simp [Device.hardwareReset] at hb⟩

theorem State.reset_memory_wf : Memory.wf State.reset.dev.mem = true := rfl

end Sys2Proof.Machine
end

