-- ==== Sys2Proof/Laws/Runs.lean ====
section
/-! SUPPORT. Runs compose; what a step is by top-level state; how the sequencer's position is replaced; two states that agree but for what
polls leave free. -/

namespace Sys2Proof.Machine

/-! ## Runs -/

theorem run_zero (s : State) : Host.Core.run Sys2Proof.core 0 s = .next s := rfl

theorem coreRun_of_next (M : Host.Core) (k : Nat) {s t : M.State} (h : M.step s = .next t) : M.run (k + 1) s = M.run k t := by
  simp [Host.Core.run, h]

theorem coreRun_of_refused (M : Host.Core) (k : Nat) {s : M.State} {r : M.Refusal} (h : M.step s = .refused r) :
    M.run (k + 1) s = .refused r := by
  simp [Host.Core.run, h]

theorem coreRun_of_fault (M : Host.Core) (k : Nat) {s : M.State} {f : M.Fault} (h : M.step s = .fault f) :
    M.run (k + 1) s = .fault f := by
  simp [Host.Core.run, h]

theorem run_succ_of_step {s t : State} (k : Nat) (h : step s = .next t) :
    Host.Core.run Sys2Proof.core (k + 1) s = Host.Core.run Sys2Proof.core k t := coreRun_of_next Sys2Proof.core k h

theorem run_succ_of_refused {s : State} {r : Refusal} (k : Nat) (h : step s = .refused r) :
    Host.Core.run Sys2Proof.core (k + 1) s = .refused r := coreRun_of_refused Sys2Proof.core k h

theorem run_succ_of_fault {s : State} {f : Fault} (k : Nat) (h : step s = .fault f) :
    Host.Core.run Sys2Proof.core (k + 1) s = .fault f := coreRun_of_fault Sys2Proof.core k h

theorem run_add {s t : State} {o : Host.Outcome State Fault Refusal} (j k : Nat)
    (hs : Host.Core.run Sys2Proof.core j s = .next t) (ht : Host.Core.run Sys2Proof.core k t = o) :
    Host.Core.run Sys2Proof.core (j + k) s = o := by
  induction j generalizing s with
  | zero => cases hs; simpa using ht
  | succ j ih =>
    rw [show j + 1 + k = (j + k) + 1 by omega]
    cases hstep : step s with
    | next s' => rw [run_succ_of_step _ hstep] at hs ⊢; exact ih hs
    | fault f => rw [run_succ_of_fault _ hstep] at hs; cases hs
    | refused f => rw [run_succ_of_refused _ hstep] at hs; cases hs

theorem Reaches.refl (s : State) : Reaches s s := ⟨0, rfl⟩

theorem Reaches.trans {s t u : State} (h : Reaches s t) (h' : Reaches t u) : Reaches s u := by
  obtain ⟨j, hj⟩ := h
  obtain ⟨k, hk⟩ := h'
  exact ⟨j + k, run_add j k hj hk⟩

theorem Reaches.head {s t u : State} (h : step s = .next t) (h' : Reaches t u) : Reaches s u :=
  Reaches.trans ⟨1, by rw [run_succ_of_step 0 h]; rfl⟩ h'

theorem Reaches.one {s t : State} (h : step s = .next t) : Reaches s t := .head h (.refl t)

/-! ## The step by top-level state -/

theorem step_of_rst_low {s : State} (h : s.host.rst = []) : step s = stepUnreset s := by
  simp [step, cycle, h]

theorem step_running {s : State} {m : Micro} {rest : List Micro} (hr : s.host.rst = []) (hs : s.eng.st = .run)
    (hq : s.eng.seq = m :: rest) : step s = microStep m rest s := by
  simp [step_of_rst_low hr, stepUnreset, hs, sequencerStep, hq]

theorem step_idle_accept {s : State} {d : Descriptor} {ds : List Descriptor} (hr : s.host.rst = []) (hs : s.eng.st = .idle)
    (hq : s.host.req = d :: ds) : step s = acceptDescriptor d (s.setHost { s.host with req := ds }) := by
  simp [step_of_rst_low hr, stepUnreset, hs, idleStep, hq]

/-! ## The sequencer's position -/

/-- `s` with another sequencer position. -/
def State.at (s : State) (q : List Micro) : State := s.setEng { s.eng with seq := q }

theorem State.goto_cons (s : State) (m : Micro) (rest : List Micro) : s.goto (m :: rest) = s.at (m :: rest) := rfl

@[simp] theorem State.goto_nil (s : State) : s.goto [] = s.finish := rfl

/-- Going on forgets the position it came from. -/
@[simp] theorem State.goto_at (s : State) (q rest : List Micro) : (s.at q).goto rest = s.goto rest := by
  cases rest <;> rfl

@[simp] theorem State.at_at (s : State) (q q' : List Micro) : (s.at q).at q' = s.at q' := rfl
@[simp] theorem State.at_cfg (s : State) (q : List Micro) : (s.at q).cfg = s.cfg := rfl
@[simp] theorem State.at_dev (s : State) (q : List Micro) : (s.at q).dev = s.dev := rfl
@[simp] theorem State.at_bus (s : State) (q : List Micro) : (s.at q).bus = s.bus := rfl
@[simp] theorem State.at_host (s : State) (q : List Micro) : (s.at q).host = s.host := rfl
@[simp] theorem State.at_free (s : State) (q : List Micro) : (s.at q).free = s.free := rfl
@[simp] theorem State.at_trace (s : State) (q : List Micro) : (s.at q).trace = s.trace := rfl
@[simp] theorem State.at_responses (s : State) (q : List Micro) : (s.at q).responses = s.responses := rfl
@[simp] theorem State.at_eng (s : State) (q : List Micro) : (s.at q).eng = { s.eng with seq := q } := rfl
@[simp] theorem State.at_self (s : State) : s.at s.eng.seq = s := rfl

theorem step_goto {s : State} {m : Micro} {rest : List Micro} (hr : s.host.rst = []) (hs : s.eng.st = .run) :
    step (s.goto (m :: rest)) = microStep m rest (s.at (m :: rest)) :=
  step_running (s := s.at (m :: rest)) hr hs rfl

/-! ## States alike but for polls -/

/-- The two states agree in everything but the poll counter, the free choices made and the status reads in the trace. -/
def Alike (a b : State) : Prop := a.exceptPolls = b.exceptPolls

theorem alike_iff {a b : State} : Alike a b ↔
    a.cfg = b.cfg ∧ { a.eng with pcnt := 0 } = { b.eng with pcnt := 0 } ∧ a.dev = b.dev ∧ a.bus = b.bus ∧ a.host = b.host
      ∧ { a.free with given := [], drawn := 0 } = { b.free with given := [], drawn := 0 }
      ∧ transfers a.trace = transfers b.trace ∧ a.responses = b.responses := by
  unfold Alike State.exceptPolls
  constructor
  · intro h; injection h; refine ⟨?_, ?_, ?_, ?_, ?_, ?_, ?_, ?_⟩ <;> assumption
  · rintro ⟨h1, h2, h3, h4, h5, h6, h7, h8⟩
    congr 1

theorem Alike.refl (a : State) : Alike a a := rfl
theorem Alike.symm {a b : State} (h : Alike a b) : Alike b a := Eq.symm h
theorem Alike.trans {a b c : State} (h : Alike a b) (h' : Alike b c) : Alike a c := Eq.trans h h'

theorem Alike.cfg {a b : State} (h : Alike a b) : a.cfg = b.cfg := (alike_iff.mp h).1
theorem Alike.eng {a b : State} (h : Alike a b) : { a.eng with pcnt := 0 } = { b.eng with pcnt := 0 } := (alike_iff.mp h).2.1
theorem Alike.dev {a b : State} (h : Alike a b) : a.dev = b.dev := (alike_iff.mp h).2.2.1
theorem Alike.bus {a b : State} (h : Alike a b) : a.bus = b.bus := (alike_iff.mp h).2.2.2.1
theorem Alike.host {a b : State} (h : Alike a b) : a.host = b.host := (alike_iff.mp h).2.2.2.2.1
theorem Alike.trace {a b : State} (h : Alike a b) : transfers a.trace = transfers b.trace := (alike_iff.mp h).2.2.2.2.2.2.1
theorem Alike.responses {a b : State} (h : Alike a b) : a.responses = b.responses := (alike_iff.mp h).2.2.2.2.2.2.2
theorem Alike.memGen {a b : State} (h : Alike a b) : a.free.memGen = b.free.memGen := by
  have := (alike_iff.mp h).2.2.2.2.2.1; injection this
theorem Alike.resets {a b : State} (h : Alike a b) : a.free.resets = b.free.resets := by
  have := (alike_iff.mp h).2.2.2.2.2.1; injection this
theorem Alike.after {a b : State} (h : Alike a b) : a.free.after = b.free.after := by
  have := (alike_iff.mp h).2.2.2.2.2.1; injection this

/-- The engines of alike states differ in the poll counter only. -/
theorem Alike.eng_eq {a b : State} (h : Alike a b) : a.eng = { b.eng with pcnt := a.eng.pcnt } := by
  have h := h.eng
  cases ha : a.eng; cases hb : b.eng
  rw [ha, hb] at h
  simp only [Engine.mk.injEq] at h ⊢
  simp [h]

theorem Alike.st {a b : State} (h : Alike a b) : a.eng.st = b.eng.st := by rw [h.eng_eq]
theorem Alike.seq {a b : State} (h : Alike a b) : a.eng.seq = b.eng.seq := by rw [h.eng_eq]
theorem Alike.x {a b : State} (h : Alike a b) : a.eng.x = b.eng.x := by rw [h.eng_eq]
theorem Alike.res {a b : State} (h : Alike a b) : a.eng.res = b.eng.res := by rw [h.eng_eq]
theorem Alike.bof {a b : State} (h : Alike a b) : a.eng.bof = b.eng.bof := by rw [h.eng_eq]

/-- What the transfers of the trace make of a new entry. -/
@[simp] theorem transfers_status (b : Byte) (tr : List Transaction) : transfers (.statusRead b :: tr) = transfers tr := rfl
@[simp] theorem transfers_command (b : Byte) (tr : List Transaction) : transfers (.commandWrite b :: tr) = .commandWrite b :: transfers tr := rfl
@[simp] theorem transfers_write (b : Byte) (tr : List Transaction) : transfers (.dataWrite b :: tr) = .dataWrite b :: transfers tr := rfl
@[simp] theorem transfers_read (b : Byte) (tr : List Transaction) : transfers (.dataRead b :: tr) = .dataRead b :: transfers tr := rfl
@[simp] theorem transfers_nil : transfers [] = [] := rfl
@[simp] theorem transfers_transfers (tr : List Transaction) : transfers (transfers tr) = transfers tr := by
  simp [transfers]
@[simp] theorem transfers_append (a b : List Transaction) : transfers (a ++ b) = transfers a ++ transfers b := by
  simp [transfers]

/-- Alike states go on alike. -/
theorem Alike.goto {a b : State} (h : Alike a b) (q : List Micro) : Alike (a.goto q) (b.goto q) := by
  obtain ⟨h1, h2, h3, h4, h5, h6, h7, h8⟩ := alike_iff.mp h
  obtain ⟨p, hp⟩ : ∃ p, a.eng = { b.eng with pcnt := p } := ⟨_, h.eng_eq⟩
  cases q with
  | nil =>
    refine alike_iff.mpr ⟨h1, ?_, h3, h4, ?_, h6, h7, ?_⟩
    · simp [hp]
    · simp [h5]
    · simp [h8, State.rspData, State.rspBof, h.res, h.bof]
  | cons m r =>
    refine alike_iff.mpr ⟨h1, ?_, h3, h4, h5, h6, h7, h8⟩
    simp [State.goto, hp]

/-- Alike states with the same engine put in are alike. -/
theorem Alike.setEng {a b : State} (h : Alike a b) {e e' : Engine} (he : { e with pcnt := 0 } = { e' with pcnt := 0 }) :
    Alike (a.setEng e) (b.setEng e') := by
  obtain ⟨h1, h2, h3, h4, h5, h6, h7, h8⟩ := alike_iff.mp h
  exact alike_iff.mpr ⟨h1, he, h3, h4, h5, h6, h7, h8⟩

end Sys2Proof.Machine
end

