-- ==== Sys2Proof/Laws/Polls.lean ====
section
/-! SUPPORT. The poll on a responsive device, and the program logic of the sequencer: `Goes s q w q'` says that an engine with `q` to do comes to the
point where `q'` is left, with `w` for its state but for what polls leave free. -/

namespace Sys2Proof.Machine

/-! ## Coming answers -/

theorem Choices.next_eq_byteAt (f : Choices) : f.next = f.byteAt 0 := by
  cases h : f.given <;> simp [Choices.next, Choices.byteAt, h]

theorem Choices.byteAt_advance (f : Choices) (n : Nat) : f.advance.byteAt n = f.byteAt (n + 1) := by
  cases h : f.given with
  | nil => simp [Choices.advance, Choices.byteAt, h, show f.drawn + 1 + n = f.drawn + (n + 1) by omega]
  | cons b r => simp [Choices.advance, Choices.byteAt, h, show f.drawn + 1 + n = f.drawn + (n + 1) by omega]

/-- A choice made leaves the device responsive. -/
theorem Responsive.advance {s t : State} (h : Responsive s) (hc : t.cfg = s.cfg) (hf : t.free = s.free.advance) : Responsive t := by
  intro n
  obtain ⟨m, h1, h2, h3⟩ := h (n + 1)
  refine ⟨m - 1, by omega, ?_, ?_⟩
  · rw [hc]; omega
  · rw [hf, Choices.byteAt_advance, show m - 1 + 1 = m by omega]; exact h3

theorem Responsive.same {s t : State} (h : Responsive s) (hc : t.cfg = s.cfg)
    (hf : ∀ n, t.free.byteAt n = s.free.byteAt n) : Responsive t := by
  intro n
  obtain ⟨m, h1, h2, h3⟩ := h n
  exact ⟨m, h1, by rw [hc]; exact h2, by rw [hf]; exact h3⟩

/-! ## Live states -/

/-- An operation is running and is served. -/
def Live (s : State) : Prop := s.eng.st = .run ∧ Serving s

theorem Live.st {s : State} (h : Live s) : s.eng.st = .run := h.1
theorem Live.cfg {s : State} (h : Live s) : s.cfg.ok = true := h.2.1
theorem Live.rst {s : State} (h : Live s) : s.host.rst = [] := h.2.2.1
theorem Live.reset {s : State} (h : Live s) : s.bus.reset = .deasserted := h.2.2.2.1
theorem Live.responsive {s : State} (h : Live s) : Responsive s := h.2.2.2.2

/-- Liveness in a changed state: the parts it speaks of are the same. -/
theorem Live.of {s t : State} (h : Live s) (h1 : t.eng.st = s.eng.st) (h2 : t.cfg = s.cfg) (h3 : t.host.rst = s.host.rst)
    (h4 : t.bus.reset = s.bus.reset) (h5 : ∀ n, t.free.byteAt n = s.free.byteAt n) : Live t :=
  ⟨h1.trans h.1, by rw [h2]; exact h.cfg, h3.trans h.rst, h4.trans h.reset, h.responsive.same h2 h5⟩

/-! ## One status read -/

theorem statusByte_ready {s : State} (h : statusReady s.free.next = true ∨ s.dev.rdy = .ready) : statusReady s.statusByte = true := by
  cases hr : s.dev.rdy with
  | ready =>
    have : ∀ b : Byte, statusReady (b ||| 0x03) = true := by decide
    simpa [State.statusByte, hr] using this _
  | busy => simpa [State.statusByte, hr] using h

/-- The state with the device found ready: what a poll leaves but for its counter, choices and status reads. -/
def State.polled (s : State) : State :=
  { s with dev := { s.dev with rdy := .ready }, bus := s.bus.perform (readCalls true) }

@[simp] theorem readCalls_reset (b : Bus) (cd : Bool) : (b.perform (readCalls cd)).reset = b.reset := rfl
@[simp] theorem writeCalls_reset (b : Bus) (cd : Bool) (v : Byte) : (b.perform (writeCalls cd v)).reset = b.reset := rfl
@[simp] theorem readCalls_twice (b : Bus) (cd : Bool) : (b.perform (readCalls cd)).perform (readCalls cd) = b.perform (readCalls cd) := rfl

theorem statusRead_alike_of_ready {s : State} (h : statusReady s.statusByte = true) : Alike s.statusRead s.polled := by
  refine alike_iff.mpr ⟨rfl, rfl, ?_, rfl, rfl, ?_, rfl, rfl⟩
  · simp [State.polled, h]
  · simp [State.polled, Choices.advance]

theorem statusRead_polled_alike {s : State} : Alike s.statusRead.polled s.polled := by
  refine alike_iff.mpr ⟨rfl, rfl, rfl, ?_, rfl, ?_, rfl, rfl⟩
  · simp [State.polled]
  · simp [State.polled, Choices.advance]

theorem Alike.polled {a b : State} (h : Alike a b) : Alike a.polled b.polled := by
  obtain ⟨h1, h2, h3, h4, h5, h6, h7, h8⟩ := alike_iff.mp h
  exact alike_iff.mpr ⟨h1, h2, by simp [State.polled, h3], by simp [State.polled, h4], h5, h6, h7, h8⟩

/-! ## The poll -/

/-- What one pass does on a device out of reset (R141). -/
theorem pollPass_eq {s : State} (rest : List Micro) (h : s.bus.reset = .deasserted) :
    pollPass rest s =
      if statusReady s.statusByte then .next (s.statusRead.goto rest)
      else
        let u := s.statusRead.setEng { s.eng with pcnt := s.eng.pcnt + 1, seq := .pollAgain :: rest }
        if s.cfg.pollLimit ≠ 0 ∧ u.eng.pcnt.toNat = s.cfg.pollLimit then .next (u.takeFault .deviceTimeout) else .next u := by
  simp [pollPass, h]

theorem pollPass_at (rest q : List Micro) (s : State) : pollPass rest (s.at q) = pollPass rest s := by
  unfold pollPass
  simp only [State.at_bus]
  cases s.bus.reset with
  | asserted => rfl
  | deasserted =>
    have h1 : (s.at q).statusByte = s.statusByte := rfl
    have h2 : (s.at q).statusRead.goto rest = s.statusRead.goto rest := by cases rest <;> rfl
    simp only [h1, h2]
    rfl

theorem pcnt_succ {p : Word} {l : Nat} (h : p.toNat + 1 ≤ l) (hl : l ≤ 2 ^ 32 - 1) : (p + 1).toNat = p.toNat + 1 := by
  have : (1 : Word).toNat = 1 := rfl
  rw [BitVec.toNat_add, this]
  apply Nat.mod_eq_of_lt
  omega

theorem Config.pollLimit_le {g : Config} (h : g.ok = true) : g.pollLimit ≤ 2 ^ 32 - 1 := by
  simp only [Config.ok, Config.valuesOK, Bool.and_eq_true, decide_eq_true_eq] at h
  exact h.1.2.2

/-- Passes of a poll until the device is found ready, `m` answers from now at the latest. -/
theorem pollAgain_reaches (rest : List Micro) (m : Nat) : ∀ s : State, Live s → statusReady (s.free.byteAt m) = true →
    (s.cfg.pollLimit = 0 ∨ s.eng.pcnt.toNat + m < s.cfg.pollLimit) →
    ∃ t u, pollPass rest s = .next t ∧ Reaches t (u.goto rest) ∧ Alike u s.polled ∧ Live u := by
  induction m with
  | zero =>
    intro s hl hm _
    have hb : statusReady s.statusByte = true := statusByte_ready (.inl (by rw [Choices.next_eq_byteAt]; exact hm))
    refine ⟨_, s.statusRead, by simp only [pollPass_eq rest hl.reset, hb, if_true], .refl _, statusRead_alike_of_ready hb, ?_⟩
    exact ⟨hl.1, hl.cfg, hl.rst, hl.reset, hl.responsive.advance rfl rfl⟩
  | succ m ih =>
    intro s hl hm hp
    by_cases hb : statusReady s.statusByte = true
    · refine ⟨_, s.statusRead, by simp only [pollPass_eq rest hl.reset, hb, if_true], .refl _, statusRead_alike_of_ready hb, ?_⟩
      exact ⟨hl.1, hl.cfg, hl.rst, hl.reset, hl.responsive.advance rfl rfl⟩
    · let v : State := s.statusRead.setEng { s.eng with pcnt := s.eng.pcnt + 1 }
      have hv : Live v := ⟨hl.1, hl.cfg, hl.rst, hl.reset, hl.responsive.advance rfl rfl⟩
      have hle := Config.pollLimit_le hl.cfg
      have hvm : statusReady (v.free.byteAt m) = true := by
        show statusReady (s.free.advance.byteAt m) = true
        rw [Choices.byteAt_advance]; exact hm
      have hvp : v.cfg.pollLimit = 0 ∨ v.eng.pcnt.toNat + m < v.cfg.pollLimit := by
        rcases hp with hp | hp
        · exact .inl hp
        · right
          show (s.eng.pcnt + 1).toNat + m < s.cfg.pollLimit
          rw [pcnt_succ (l := s.cfg.pollLimit) (by omega) hle]; omega
      obtain ⟨t, u, h1, h2, h3, h4⟩ := ih v hv hvm hvp
      have hstep : step (v.at (.pollAgain :: rest)) = .next t := by
        rw [step_running (s := v.at (.pollAgain :: rest)) (m := .pollAgain) (rest := rest) hv.rst hv.st rfl]
        show pollPass rest (v.at (.pollAgain :: rest)) = _
        rw [pollPass_at]; exact h1
      refine ⟨v.at (.pollAgain :: rest), u.at s.eng.seq, ?_, ?_, ?_, ?_⟩
      · rw [pollPass_eq rest hl.reset, if_neg hb]
        have hn : ¬ (s.cfg.pollLimit ≠ 0 ∧ (s.eng.pcnt + 1).toNat = s.cfg.pollLimit) := by
          rintro ⟨h0, he⟩
          rcases hp with hp | hp
          · exact h0 hp
          · rw [pcnt_succ (l := s.cfg.pollLimit) (by omega) hle] at he; omega
        exact if_neg hn
      · rw [State.goto_at]; exact .head hstep h2
      · have hv' : Alike v.polled s.polled := by
          refine Alike.trans (b := s.statusRead.polled) ?_ statusRead_polled_alike
          exact alike_iff.mpr ⟨rfl, rfl, rfl, rfl, rfl, rfl, rfl, rfl⟩
        have := h3.trans hv'
        refine alike_iff.mpr ?_
        obtain ⟨a1, a2, a3, a4, a5, a6, a7, a8⟩ := alike_iff.mp this
        refine ⟨a1, ?_, a3, a4, a5, a6, a7, a8⟩
        rw [← a2]
        simp only [State.at_eng]
        have hs := this.seq
        rw [show s.polled.eng.seq = s.eng.seq from rfl] at hs
        rw [hs]
      · exact h4

/-! ## The program logic -/

/-- From `s` with `q` to do the engine comes to a state alike to `w` with `q'` to do; `s` and `w` stand for every state alike to them. -/
def Goes (s : State) (q : List Micro) (w : State) (q' : List Micro) : Prop :=
  ∀ s', Alike s' s → Live s' → ∃ u, Reaches (s'.goto q) (u.goto q') ∧ Alike u w ∧ Live u

theorem Goes.refl (s : State) (q : List Micro) : Goes s q s q := fun s' ha hl => ⟨s', .refl _, ha, hl⟩

theorem Goes.trans {s w v : State} {q q' q'' : List Micro} (h : Goes s q w q') (h' : Goes w q' v q'') : Goes s q v q'' := by
  intro s' ha hl
  obtain ⟨u, h1, h2, h3⟩ := h s' ha hl
  obtain ⟨u', h4, h5, h6⟩ := h' u h2 h3
  exact ⟨u', h1.trans h4, h5, h6⟩

theorem Goes.congr {s w w' : State} {q q' : List Micro} (h : Goes s q w q') (hw : Alike w w') : Goes s q w' q' := by
  intro s' ha hl
  obtain ⟨u, h1, h2, h3⟩ := h s' ha hl
  exact ⟨u, h1, h2.trans hw, h3⟩

/-- What one may assume of the start: it has the configuration, the reset line and the `rst` input of a live state. -/
theorem Goes.intro {s w : State} {q q' : List Micro}
    (h : s.eng.st = .run → s.cfg.ok = true → s.host.rst = [] → s.bus.reset = .deasserted → Goes s q w q') : Goes s q w q' :=
  fun s' ha hl => h (ha.st ▸ hl.st) (ha.cfg ▸ hl.cfg) (ha.host ▸ hl.rst) (ha.bus ▸ hl.reset) s' ha hl

/-- A step that needs no transaction: `f` says what it does, on every state alike to `s`. -/
theorem Goes.internal {s : State} {m : Micro} {rest q : List Micro} (f : State → State)
    (hm : ∀ s', Alike s' s → microStep m rest (s'.at (m :: rest)) = .next ((f s').goto q))
    (ha : ∀ s', Alike s' s → Alike (f s') (f s)) (hl : ∀ s', Live s' → Live (f s')) : Goes s (m :: rest) (f s) q := by
  intro s' h1 h2
  exact ⟨f s', .one (by rw [step_goto h2.rst h2.st, hm s' h1]), ha s' h1, hl s' h2⟩

/-- `Poll()` (R141) ends with the device found ready. -/
theorem Goes.poll (s : State) (rest : List Micro) : Goes s (.poll :: rest) s.polled rest := by
  intro s' ha hl
  let v : State := s'.setEng { s'.eng with pcnt := 0 }
  have hv : Live v := ⟨hl.1, hl.cfg, hl.rst, hl.reset, hl.responsive⟩
  obtain ⟨m, _, h2, h3⟩ := hl.responsive 0
  obtain ⟨t, u, a1, a2, a3, a4⟩ := pollAgain_reaches rest m v hv h3 (by
    rcases h2 with h2 | h2
    · exact .inl h2
    · right; show 0 + m < s'.cfg.pollLimit; omega)
  refine ⟨u, .head ?_ a2, ?_, a4⟩
  · rw [step_goto hl.rst hl.st]
    show pollPass rest (v.at (.poll :: rest)) = .next t
    rw [pollPass_at, a1]
  · refine a3.trans (Alike.polled ?_)
    refine Alike.trans (b := s') ?_ ha
    exact alike_iff.mpr ⟨rfl, rfl, rfl, rfl, rfl, rfl, rfl, rfl⟩

/-- How a run ends: nothing is left to do. -/
theorem Goes.ends {s w : State} {q : List Micro} (h : Goes s q w []) (hl : Live s) :
    ∃ u, Reaches (s.goto q) u ∧ Alike u w.finish ∧ Responsive u := by
  obtain ⟨u, h1, h2, h3⟩ := h s (.refl s) hl
  exact ⟨u.finish, h1, h2.goto [], h3.responsive.same rfl fun _ => rfl⟩

end Sys2Proof.Machine
end

