-- ==== Sys2Proof/Laws/Transfers.lean ====
section
/-! SUPPORT. What each transfer and each helper built from transfers does, on a responsive device out of reset (40_protocol.md R144 to R147;
41_device_commands.md R173 to R175). -/

namespace Sys2Proof.Machine

/-! ## The bus lines and the trace of a write -/

/-- `s` after a write transaction: the device is `d`, the lines and the trace as the transaction leaves them. -/
def State.sent (s : State) (d : Device) (cd : Bool) (v : Byte) (ts : List Transaction) : State :=
  { s with dev := d, bus := s.bus.afterWrite cd v, trace := ts.reverse ++ s.trace }

theorem sent_sent (s : State) (d d' : Device) (cd cd' : Bool) (v v' : Byte) (ts ts' : List Transaction) :
    (s.sent d cd v ts).sent d' cd' v' ts' = s.sent d' cd' v' (ts ++ ts') := by
  simp [State.sent, Bus.afterWrite]

@[simp] theorem sent_cfg (s : State) (d : Device) (cd : Bool) (v : Byte) (ts : List Transaction) : (s.sent d cd v ts).cfg = s.cfg := rfl
@[simp] theorem sent_eng (s : State) (d : Device) (cd : Bool) (v : Byte) (ts : List Transaction) : (s.sent d cd v ts).eng = s.eng := rfl
@[simp] theorem sent_dev (s : State) (d : Device) (cd : Bool) (v : Byte) (ts : List Transaction) : (s.sent d cd v ts).dev = d := rfl
@[simp] theorem sent_host (s : State) (d : Device) (cd : Bool) (v : Byte) (ts : List Transaction) : (s.sent d cd v ts).host = s.host := rfl
@[simp] theorem sent_free (s : State) (d : Device) (cd : Bool) (v : Byte) (ts : List Transaction) : (s.sent d cd v ts).free = s.free := rfl
@[simp] theorem sent_responses (s : State) (d : Device) (cd : Bool) (v : Byte) (ts : List Transaction) :
    (s.sent d cd v ts).responses = s.responses := rfl
@[simp] theorem sent_bus (s : State) (d : Device) (cd : Bool) (v : Byte) (ts : List Transaction) :
    (s.sent d cd v ts).bus = s.bus.afterWrite cd v := rfl
@[simp] theorem sent_trace (s : State) (d : Device) (cd : Bool) (v : Byte) (ts : List Transaction) :
    (s.sent d cd v ts).trace = ts.reverse ++ s.trace := rfl

/-! ## One transfer -/

/-- What a data write leaves in the operand latch (R173). -/
def Device.afterData (d : Device) (v : Byte) : Device :=
  if d.nop = 0 then { d with d1 := v, nop := 1, rdy := .busy } else { d with d2 := v, nop := 2, rdy := .busy }

theorem busWrite_data {s : State} {v : Byte} (hb : s.bus.reset = .deasserted) (hr : s.dev.rdy = .ready) (hn : s.dev.nop ≠ 2) :
    s.busWrite false v = .next { s with
      dev := s.dev.afterData v, bus := s.bus.perform (writeCalls false v), trace := .dataWrite v :: s.trace } := by
  have : s.dev.nop = 0 ∨ s.dev.nop = 1 := by omega
  rcases this with h | h <;> simp [State.busWrite, State.transferBlocked, hb, hr, State.dataWrite, h, Device.afterData] <;> rfl

theorem busWrite_command {s : State} {k : Byte} {c : DeviceCommand} (hb : s.bus.reset = .deasserted) (hr : s.dev.rdy = .ready)
    (hk : decodeCommand s.cfg.cmd k = some c) (hn : s.dev.nop = c.operands)
    (hp : c.accessesMemory = true → s.dev.ap.toNat < s.cfg.ramSize) :
    s.busWrite true k = .next { s with
      dev := s.dev.runCommand s.free.memGen c, bus := s.bus.perform (writeCalls true k), trace := .commandWrite k :: s.trace } := by
  have : (c.accessesMemory && !populated s.cfg s.dev.ap.toNat) = false := by
    cases hc : c.accessesMemory with
    | false => rfl
    | true => simp [populated, hp hc]
  simp [State.busWrite, State.transferBlocked, hb, hr, State.commandWrite, hk, hn, this]
  rfl

/-- A command ends with the device busy whether or not it was found ready. -/
theorem runCommand_rdy (d : Device) (r : Readiness) (g : Nat) (c : DeviceCommand) :
    ({ d with rdy := r } : Device).runCommand g c = d.runCommand g c := by
  cases c <;> rfl

theorem value_alike {a b : State} (h : Alike a b) (v : Source) : v.value a.eng = v.value b.eng := by
  rw [h.eng_eq]; cases v <;> rfl

/-- `BusWrite` as a step (R142). -/
theorem Goes.write {s : State} {cd : Bool} {v : Source} {rest : List Micro} {d : Device} {t : Transaction}
    (h : ∀ s' : State, s'.dev = s.dev → s'.cfg = s.cfg → s'.free.memGen = s.free.memGen → s'.bus.reset = .deasserted →
      s'.busWrite cd (v.value s.eng) = .next { s' with
        dev := d, bus := s'.bus.perform (writeCalls cd (v.value s.eng)), trace := t :: s'.trace }) :
    Goes s (.busWrite cd v :: rest)
      { s with dev := d, bus := s.bus.perform (writeCalls cd (v.value s.eng)), trace := t :: s.trace } rest := by
  intro s' ha hl
  refine ⟨{ s' with dev := d, bus := s'.bus.perform (writeCalls cd (v.value s.eng)), trace := t :: s'.trace }, .one ?_, ?_, ?_⟩
  · rw [step_goto hl.rst hl.st]
    have h1 := h (s'.at (.busWrite cd v :: rest)) ha.dev ha.cfg ha.memGen hl.reset
    have h2 : v.value (s'.at (.busWrite cd v :: rest)).eng = v.value s.eng := by rw [← value_alike ha v]; cases v <;> rfl
    show writeStep cd v rest (s'.at (.busWrite cd v :: rest)) = _
    unfold writeStep
    rw [h2, h1]
    cases rest <;> rfl
  · obtain ⟨a1, a2, a3, a4, a5, a6, a7, a8⟩ := alike_iff.mp ha
    refine alike_iff.mpr ⟨a1, a2, rfl, by simp [a4], a5, a6, ?_, a8⟩
    show transfers (t :: s'.trace) = transfers (t :: s.trace)
    rw [show t :: s'.trace = [t] ++ s'.trace from rfl, show t :: s.trace = [t] ++ s.trace from rfl, transfers_append, transfers_append, a7]
  · exact hl.of rfl rfl rfl rfl fun _ => rfl

/-- `WriteData(v)` (R145, R173). -/
theorem Goes.writeData {s : State} (v : Source) (rest : List Micro) (hn : s.dev.nop ≠ 2) :
    Goes s (writeData v ++ rest) (s.sent (s.dev.afterData (v.value s.eng)) false (v.value s.eng) [.dataWrite (v.value s.eng)]) rest := by
  refine (Goes.poll s _).trans ?_
  have h := Goes.write (s := s.polled) (cd := false) (v := v) (rest := rest) (d := s.polled.dev.afterData (v.value s.eng))
    (t := .dataWrite (v.value s.eng)) (fun s' hd _ _ hb => by
      have h := busWrite_data (s := s') (v := v.value s.eng) hb (by rw [hd]; rfl) (by rw [hd]; exact hn)
      rw [hd] at h
      exact h)
  refine h.congr ?_
  refine alike_iff.mpr ⟨rfl, rfl, ?_, rfl, rfl, rfl, rfl, rfl⟩
  show s.polled.dev.afterData _ = s.dev.afterData _
  unfold Device.afterData State.polled
  split <;> rfl

/-- `WriteCmd(k)` (R144, R175). -/
theorem Goes.writeCmd {s : State} {k : Byte} {c : DeviceCommand} (rest : List Micro)
    (hk : decodeCommand s.cfg.cmd k = some c) (hn : s.dev.nop = c.operands)
    (hp : c.accessesMemory = true → s.dev.ap.toNat < s.cfg.ramSize) :
    Goes s (writeCmd k ++ rest) (s.sent (s.dev.runCommand s.free.memGen c) true k [.commandWrite k]) rest := by
  refine (Goes.poll s _).trans ?_
  have h := Goes.write (s := s.polled) (cd := true) (v := .lit k) (rest := rest) (d := s.polled.dev.runCommand s.free.memGen c)
    (t := .commandWrite k) (fun s' hd hc hg hb => by
      have h := busWrite_command (s := s') (k := k) (c := c) hb (by rw [hd]; rfl) (by rw [hc]; exact hk) (by rw [hd]; exact hn)
        (by rw [hd, hc]; exact hp)
      rw [hd, hg] at h
      exact h)
  refine h.congr ?_
  exact alike_iff.mpr ⟨rfl, rfl, runCommand_rdy _ _ _ _, rfl, rfl, rfl, rfl, rfl⟩

/-- `Send2(lo, hi, k)` (R147): the command finds `T.D1 = lo`, `T.D2 = hi`. -/
theorem Goes.send2 {s : State} {lo hi k : Byte} {c : DeviceCommand} (rest : List Micro) (h0 : s.dev.nop = 0)
    (hk : decodeCommand s.cfg.cmd k = some c) (hc : c.operands = 2) :
    Goes s (send2 lo hi k ++ rest)
      (s.sent (({ s.dev with d1 := lo, d2 := hi, nop := 2 } : Device).runCommand s.free.memGen c) true k (send2Trace lo hi k)) rest := by
  have hm : c.accessesMemory = true → False := by cases c <;> simp_all [DeviceCommand.operands, DeviceCommand.accessesMemory]
  have h1 := Goes.writeData (s := s) (.lit lo) (Machine.writeData (.lit hi) ++ Machine.writeCmd k ++ rest) (by rw [h0]; decide)
  have e1 : s.dev.afterData (Source.value (.lit lo) s.eng) = { s.dev with d1 := lo, nop := 1, rdy := .busy } := by
    simp [Device.afterData, h0, Source.value]
  rw [e1] at h1
  have h2 := Goes.writeData (s := s.sent { s.dev with d1 := lo, nop := 1, rdy := .busy } false lo [.dataWrite lo]) (.lit hi)
    (Machine.writeCmd k ++ rest) (by show (1 : Fin 3) ≠ 2; decide)
  have e2 : ({ s.dev with d1 := lo, nop := 1, rdy := .busy } : Device).afterData hi
      = { s.dev with d1 := lo, d2 := hi, nop := 2, rdy := .busy } := rfl
  simp only [Source.value, sent_dev, e2, sent_sent] at h2
  have h3 := Goes.writeCmd (s := s.sent { s.dev with d1 := lo, d2 := hi, nop := 2, rdy := .busy } false hi [.dataWrite lo, .dataWrite hi])
    (k := k) (c := c) rest hk hc.symm (fun h => (hm h).elim)
  simp only [sent_sent, sent_dev, sent_free] at h3
  have h4 := runCommand_rdy ({ s.dev with d1 := lo, d2 := hi, nop := 2 } : Device) .busy s.free.memGen c
  simp only at h4
  rw [h4] at h3
  have := (h1.trans h2).trans h3
  simpa [Machine.send2, send2Trace] using this

/-- `Send1(v, k)` (R147): the command finds `T.D1 = v`. -/
theorem Goes.send1 {s : State} {v : Source} {k : Byte} {c : DeviceCommand} (rest : List Micro) (h0 : s.dev.nop = 0)
    (hk : decodeCommand s.cfg.cmd k = some c) (hc : c.operands = 1) (hp : s.dev.ap.toNat < s.cfg.ramSize) :
    Goes s (send1 v k ++ rest)
      (s.sent (({ s.dev with d1 := v.value s.eng, nop := 1 } : Device).runCommand s.free.memGen c) true k
        [.dataWrite (v.value s.eng), .commandWrite k]) rest := by
  have h1 := Goes.writeData (s := s) v (Machine.writeCmd k ++ rest) (by rw [h0]; decide)
  have e1 : s.dev.afterData (v.value s.eng) = { s.dev with d1 := v.value s.eng, nop := 1, rdy := .busy } := by
    simp [Device.afterData, h0]
  rw [e1] at h1
  have h3 := Goes.writeCmd (s := s.sent { s.dev with d1 := v.value s.eng, nop := 1, rdy := .busy } false (v.value s.eng) [.dataWrite (v.value s.eng)])
    (k := k) (c := c) rest hk hc.symm (fun _ => hp)
  simp only [sent_sent, sent_dev, sent_free] at h3
  have h4 := runCommand_rdy ({ s.dev with d1 := v.value s.eng, nop := 1 } : Device) .busy s.free.memGen c
  simp only at h4
  rw [h4] at h3
  have := h1.trans h3
  simpa [Machine.send1] using this

/-! ## Reads -/

/-- `s` after a poll and a data read with a read pending: `e` holds what the engine did with the byte (R146, R174). -/
def State.received (s : State) (e : Engine) : State :=
  { s with
    eng := e
    dev := { s.dev with rdv := false, rdy := .busy }
    bus := s.bus.afterRead false
    trace := .dataRead s.dev.rdl :: s.trace }

theorem transferBlocked_none {s : State} (hb : s.bus.reset = .deasserted) (hr : s.dev.rdy = .ready) : s.transferBlocked = none := by
  simp [State.transferBlocked, hb, hr]

/-- `E.TMP <- ReadData()` with a read pending (R146, R174, R240). -/
theorem Goes.readTmp {s : State} (rest : List Micro) (hv : s.dev.rdv = true) :
    Goes s (.poll :: .readTmp :: rest) (s.received { s.eng with tmp := s.dev.rdl }) rest := by
  refine (Goes.poll s _).trans ?_
  intro s' ha hl
  have hd := ha.dev
  have hd' : s'.dataByte = s.dev.rdl := by simp [State.dataByte, hd, State.polled, hv]
  have hf : s'.dev.rdv = true := by rw [hd]; exact hv
  refine ⟨s'.dataRead.setEng { s'.eng with tmp := s.dev.rdl }, .one ?_, ?_, ?_⟩
  · rw [step_goto hl.rst hl.st]
    show readTmpStep rest (s'.at (.readTmp :: rest)) = _
    have hb : (s'.at (.readTmp :: rest)).transferBlocked = none := transferBlocked_none hl.reset (by rw [State.at_dev, hd]; rfl)
    have hd2 : (s'.at (.readTmp :: rest)).dataByte = s.dev.rdl := by rw [← hd']; rfl
    unfold readTmpStep
    rw [hb]
    simp only [hd2]
    have : (s'.at (.readTmp :: rest)).dataRead.trace = s'.dataRead.trace := rfl
    cases rest <;> rfl
  · obtain ⟨a1, a2, a3, a4, a5, a6, a7, a8⟩ := alike_iff.mp ha
    refine alike_iff.mpr ⟨a1, ?_, ?_, ?_, a5, ?_, ?_, a8⟩
    · have := ha.eng_eq
      simp only [State.setEng_eng, State.received]
      rw [this]; rfl
    · simp [State.received, hd, State.polled]
    · simp only [State.setEng_bus, State.dataRead_bus, State.received, a4]; rfl
    · simp only [State.setEng_free, State.dataRead_free, hf, if_true, a6]; rfl
    · simp only [State.setEng_trace, State.dataRead_trace, hd', State.received, transfers_read, a7]; rfl
  · exact hl.of rfl rfl rfl rfl fun n => by simp [hf]

/-- `E.RES <- zext_16(ReadData())` with a read pending (R154, R174). -/
theorem Goes.readRes {s : State} (rest : List Micro) (hv : s.dev.rdv = true) :
    Goes s (.poll :: .readRes false :: rest) (s.received { s.eng with res := s.dev.rdl.setWidth 16 }) rest := by
  refine (Goes.poll s _).trans ?_
  intro s' ha hl
  have hd := ha.dev
  have hd' : s'.dataByte = s.dev.rdl := by simp [State.dataByte, hd, State.polled, hv]
  have hf : s'.dev.rdv = true := by rw [hd]; exact hv
  refine ⟨s'.dataRead.setEng { s'.eng with res := s.dev.rdl.setWidth 16 }, .one ?_, ?_, ?_⟩
  · rw [step_goto hl.rst hl.st]
    show readResStep false rest (s'.at (.readRes false :: rest)) = _
    have hb : (s'.at (.readRes false :: rest)).transferBlocked = none := transferBlocked_none hl.reset (by rw [State.at_dev, hd]; rfl)
    have hd2 : (s'.at (.readRes false :: rest)).dataByte = s.dev.rdl := by rw [← hd']; rfl
    unfold readResStep
    rw [hb]
    simp only [hd2, Bool.false_eq_true, if_false]
    cases rest <;> rfl
  · obtain ⟨a1, a2, a3, a4, a5, a6, a7, a8⟩ := alike_iff.mp ha
    refine alike_iff.mpr ⟨a1, ?_, ?_, ?_, a5, ?_, ?_, a8⟩
    · have := ha.eng_eq
      simp only [State.setEng_eng, State.received]
      rw [this]; rfl
    · simp [State.received, hd, State.polled]
    · simp only [State.setEng_bus, State.dataRead_bus, State.received, a4]; rfl
    · simp only [State.setEng_free, State.dataRead_free, hf, if_true, a6]; rfl
    · simp only [State.setEng_trace, State.dataRead_trace, hd', State.received, transfers_read, a7]; rfl
  · exact hl.of rfl rfl rfl rfl fun n => by simp [hf]

end Sys2Proof.Machine
end

