-- ==== Sys2Proof/Laws/Drawing.lean ====
section
/-! SUPPORT. What SetAP and SetPixel do on a responsive device (42_addressing.md R216; 43_pixel_memory.md R240), and what any sequence of pixels
interleaved with updates of working registers leaves: the frame, the pointer, the memory. -/

namespace Sys2Proof.Machine

/-! ## Engine updates -/

theorem Goes.engine {s : State} {m : Micro} {rest q : List Micro} (f : Engine → Engine)
    (hm : ∀ s', Alike s' s → microStep m rest (s'.at (m :: rest)) = .next ((s'.setEng (f s'.eng)).goto q))
    (hf : ∀ (e : Engine) (p : Word), f { e with pcnt := p } = { f e with pcnt := p })
    (hst : ∀ e : Engine, (f e).st = e.st) : Goes s (m :: rest) (s.setEng (f s.eng)) q := by
  refine Goes.internal (fun s' => s'.setEng (f s'.eng)) hm ?_ ?_
  · intro s' ha
    refine ha.setEng ?_
    have h := ha.eng_eq
    rw [h, hf]
  · intro s' hl
    exact hl.of (hst _) rfl rfl rfl fun _ => rfl

@[simp] theorem setReg_st (e : Engine) (i : Fin 16) (v : Int) : (e.setReg i v).st = e.st := rfl
@[simp] theorem setReg_seq (e : Engine) (i : Fin 16) (v : Int) : (e.setReg i v).seq = e.seq := rfl
@[simp] theorem setReg_a (e : Engine) (i : Fin 16) (v : Int) : (e.setReg i v).a = e.a := rfl
@[simp] theorem setReg_b (e : Engine) (i : Fin 16) (v : Int) : (e.setReg i v).b = e.b := rfl
@[simp] theorem setReg_c (e : Engine) (i : Fin 16) (v : Int) : (e.setReg i v).c = e.c := rfl
@[simp] theorem setReg_d (e : Engine) (i : Fin 16) (v : Int) : (e.setReg i v).d = e.d := rfl
@[simp] theorem setReg_aux (e : Engine) (i : Fin 16) (v : Int) : (e.setReg i v).aux = e.aux := rfl
@[simp] theorem setReg_opc (e : Engine) (i : Fin 16) (v : Int) : (e.setReg i v).opc = e.opc := rfl
@[simp] theorem setReg_tmp (e : Engine) (i : Fin 16) (v : Int) : (e.setReg i v).tmp = e.tmp := rfl
@[simp] theorem setReg_bit (e : Engine) (i : Fin 16) (v : Int) : (e.setReg i v).bit = e.bit := rfl
@[simp] theorem setReg_res (e : Engine) (i : Fin 16) (v : Int) : (e.setReg i v).res = e.res := rfl
@[simp] theorem setReg_bof (e : Engine) (i : Fin 16) (v : Int) : (e.setReg i v).bof = e.bof := rfl
@[simp] theorem setReg_err (e : Engine) (i : Fin 16) (v : Int) : (e.setReg i v).err = e.err := rfl
@[simp] theorem setReg_eop (e : Engine) (i : Fin 16) (v : Int) : (e.setReg i v).eop = e.eop := rfl
@[simp] theorem setReg_color (e : Engine) (i : Fin 16) (v : Int) : (e.setReg i v).color = e.color := rfl

/-- A working register read back: the integer written, if it fits in `s32` (R24, R372). -/
theorem reg_setReg_self (e : Engine) (i : Fin 16) (v : Int) (h : -2147483648 ≤ v) (h' : v < 2147483648) : (e.setReg i v).reg i = v := by
  have : (e.setReg i v).x[i] = BitVec.ofInt 32 v := by simp [Engine.setReg]
  simp only [Engine.reg, this, BitVec.toInt_ofInt]
  exact Int.bmod_eq_of_le (by omega) (by omega)

theorem reg_setReg_other (e : Engine) {i j : Fin 16} (v : Int) (h : i ≠ j) : (e.setReg i v).reg j = e.reg j := by
  have : (e.setReg i v).x[j] = e.x[j] := by
    simp only [Engine.setReg, Fin.getElem_fin]
    rw [Vector.getElem_set_ne]
    omega
  simp [Engine.reg, this]

theorem x_setReg_other (e : Engine) {i j : Fin 16} (v : Int) (h : i ≠ j) : (e.setReg i v).x[j] = e.x[j] := by
  simp only [Engine.setReg, Fin.getElem_fin]
  rw [Vector.getElem_set_ne]
  omega

/-! ## SetAP -/

theorem assemble_bytes (a : Half) : assemble (loByte a) (hiByte a) = a := by
  apply BitVec.eq_of_toNat_eq
  simp only [assemble, loByte, hiByte, BitVec.toNat_append, BitVec.extractLsb'_toNat, Nat.shiftRight_eq_div_pow]
  rw [← Nat.shiftLeft_add_eq_or_of_lt (Nat.mod_lt _ (by decide)), Nat.shiftLeft_eq]
  have := a.isLt
  omega

/-- `s` after `SetAP(A)` (R216). -/
def State.pointed (s : State) (a : Half) : State :=
  ((s.setEng (s.eng.setReg ADDR a.toNat)).sent
    { s.dev with ap := a, d1 := loByte a, d2 := hiByte a, nop := 0, rdv := false, rdy := .busy } true s.cfg.cmd.setAddressPointer
    (send2Trace (loByte a) (hiByte a) s.cfg.cmd.setAddressPointer))

theorem Goes.setAP {s : State} (a : Half) (rest : List Micro) (h0 : s.dev.nop = 0) :
    Goes s (.setAP a :: rest) (s.pointed a) rest := by
  refine Goes.intro fun _ hok _ _ => ?_
  have h1 : Goes s (.setAP a :: rest) (s.setEng (s.eng.setReg ADDR a.toNat)) (sendAddr a s.cfg.cmd.setAddressPointer ++ rest) :=
    Goes.engine (fun e => e.setReg ADDR a.toNat)
      (fun s' ha => by
        show Host.Outcome.next (setApStep a rest (s'.at (.setAP a :: rest))) = _
        unfold setApStep
        rw [State.at_cfg, ha.cfg]
        rfl)
      (fun _ _ => rfl) (fun _ => rfl)
  have hk := (decodeCommand_exact (Config.commands_of_ok hok)).2.2.1
  have h2 := Goes.send2 (s := s.setEng (s.eng.setReg ADDR a.toNat)) (lo := loByte a) (hi := hiByte a)
    (k := s.cfg.cmd.setAddressPointer) (c := .setAddressPointer) rest h0 hk rfl
  have h3 := h1.trans h2
  refine h3.congr ?_
  have e : (({ s.dev with d1 := loByte a, d2 := hiByte a, nop := 2 } : Device).runCommand s.free.memGen .setAddressPointer)
      = { s.dev with ap := a, d1 := loByte a, d2 := hiByte a, nop := 0, rdv := false, rdy := .busy } := by
    simp [Device.runCommand, Device.applyCommand, assemble_bytes]
  show Alike ((s.setEng (s.eng.setReg ADDR a.toNat)).sent _ _ _ _) _
  rw [show (s.setEng (s.eng.setReg ADDR a.toNat)).dev = s.dev from rfl, show (s.setEng (s.eng.setReg ADDR a.toNat)).free = s.free from rfl, e]
  exact Alike.refl _

/-! ## SetPixel -/

/-- The address of a pixel's byte and the byte SetPixel stores there (R240). -/
def State.plotAddress (s : State) (x y : Int) : Half := deviceAddress (graphicAddress s.cfg x y)
def State.plotByte (s : State) (x y : Int) (c : Bool) : Byte :=
  mergeBit (s.memByte (s.plotAddress x y).toNat) (BitVec.ofInt 8 (bitOffset s.cfg x)).toNat c

/-- `s` after `SetPixel(x, y, c)` (R240). -/
def State.plotted (s : State) (x y : Int) (c : Bool) : State :=
  let a := s.plotAddress x y
  let v := s.plotByte x y c
  { s with
    eng := { s.eng.setReg ADDR a.toNat with bit := BitVec.ofInt 8 (bitOffset s.cfg x), tmp := v }
    dev := { s.dev with
      ap := a + 1, d1 := v, d2 := hiByte a, nop := 0, rdl := s.memByte a.toNat, rdv := false, rdy := .busy
      mem := Memory.store s.dev.mem a.toNat v }
    bus := s.bus.afterWrite true s.cfg.cmd.dataWriteInc
    trace := (send2Trace (loByte a) (hiByte a) s.cfg.cmd.setAddressPointer
      ++ [Transaction.commandWrite s.cfg.cmd.dataReadNonvar, .dataRead (s.memByte a.toNat), .dataWrite v,
        .commandWrite s.cfg.cmd.dataWriteInc]).reverse
      ++ s.trace }

theorem Goes.setPixel {s : State} (x y : Int) (c : Bool) (rest : List Micro) (h0 : s.dev.nop = 0)
    (hp : (s.plotAddress x y).toNat < s.cfg.ramSize) :
    Goes s (.setPixel x y c :: rest) (s.plotted x y c) rest := by
  refine Goes.intro fun _ hok _ _ => ?_
  have hk := decodeCommand_exact (Config.commands_of_ok hok)
  -- the bit offset
  let s1 : State := s.setEng { s.eng with bit := BitVec.ofInt 8 (bitOffset s.cfg x) }
  let a := s.plotAddress x y
  let tail : List Micro := [.poll, .readTmp, .mergePixel c] ++ Machine.send1 .tmp s.cfg.cmd.dataWriteInc ++ rest
  have h1 : Goes s (.setPixel x y c :: rest) s1 (.setAP a :: (Machine.writeCmd s.cfg.cmd.dataReadNonvar ++ tail)) :=
    Goes.engine (fun e => { e with bit := BitVec.ofInt 8 (bitOffset s.cfg x) })
      (fun s' ha => by
        show Host.Outcome.next (setPixelStep x y c rest (s'.at (.setPixel x y c :: rest))) = _
        unfold setPixelStep
        rw [State.at_cfg, ha.cfg]
        simp only [a, tail, State.plotAddress, List.append_assoc, List.cons_append, List.nil_append]
        rfl)
      (fun _ _ => rfl) (fun _ => rfl)
  have h2 := Goes.setAP (s := s1) a (Machine.writeCmd s.cfg.cmd.dataReadNonvar ++ tail) h0
  let s2 := s1.pointed a
  -- the read command
  have h3 := Goes.writeCmd (s := s2) (k := s.cfg.cmd.dataReadNonvar) (c := .dataReadNonvar) tail hk.2.2.2.2.2.2.2.2.2.2.2.2 rfl (fun _ => hp)
  let s3 := s2.sent (s2.dev.runCommand s2.free.memGen .dataReadNonvar) true s.cfg.cmd.dataReadNonvar [.commandWrite s.cfg.cmd.dataReadNonvar]
  -- the read
  have h4 := Goes.readTmp (s := s3) (.mergePixel c :: (Machine.send1 .tmp s.cfg.cmd.dataWriteInc ++ rest)) rfl
  let s4 := s3.received { s3.eng with tmp := s3.dev.rdl }
  -- the merge
  have h5 : Goes s4 (.mergePixel c :: (Machine.send1 .tmp s.cfg.cmd.dataWriteInc ++ rest))
      (s4.setEng { s4.eng with tmp := mergeBit s4.eng.tmp s4.eng.bit.toNat c }) (Machine.send1 .tmp s.cfg.cmd.dataWriteInc ++ rest) :=
    Goes.engine (fun e => { e with tmp := mergeBit e.tmp e.bit.toNat c }) (fun s' ha => by
        show Host.Outcome.next (mergePixelStep c _ (s'.at _)) = _
        rfl)
      (fun _ _ => rfl) (fun _ => rfl)
  let s5 := s4.setEng { s4.eng with tmp := mergeBit s4.eng.tmp s4.eng.bit.toNat c }
  -- the write
  have h6 := Goes.send1 (s := s5) (v := .tmp) (k := s.cfg.cmd.dataWriteInc) (c := .dataWriteInc) rest rfl hk.2.2.2.2.2.2.2.1 rfl hp
  have h := ((((h1.trans h2).trans h3).trans h4).trans h5).trans h6
  refine h.congr ?_
  exact Alike.refl _

end Sys2Proof.Machine
end

