-- ==== Sys2Proof/Laws/Plots.lean ====
section
/-! SUPPORT. Pixels in a row, interleaved with updates of working registers: what they leave alone, where the pointer ends, what memory then
shows (43_pixel_memory.md R240; 20_memory.md R89). -/

namespace Sys2Proof.Machine

/-- `w` comes from `s` by plotting the points in order with color `c`, and by writing working registers of `regs` in between. -/
inductive Plots (c : Bool) (regs : List (Fin 16)) (s : State) : List (Int × Int) → State → Prop
  | nil : Plots c regs s [] s
  | reg {pts : List (Int × Int)} {w : State} (i : Fin 16) (v : Int) (h : i ∈ regs) (p : Plots c regs s pts w) :
      Plots c regs s pts (w.setEng (w.eng.setReg i v))
  | plot {pts : List (Int × Int)} {w : State} (x y : Int) (p : Plots c regs s pts w) : Plots c regs s (pts ++ [(x, y)]) (w.plotted x y c)

/-- Some working registers written, in order. -/
def Engine.setRegs (e : Engine) (l : List (Fin 16 × Int)) : Engine := l.foldl (fun e p => e.setReg p.1 p.2) e

theorem Plots.regs {c : Bool} {regs : List (Fin 16)} {s w : State} {pts : List (Int × Int)} (l : List (Fin 16 × Int))
    (hl : ∀ p ∈ l, p.1 ∈ regs) (h : Plots c regs s pts w) : Plots c regs s pts (w.setEng (w.eng.setRegs l)) := by
  induction l generalizing w with
  | nil => exact h
  | cons q l ih =>
    have := ih (w := w.setEng (w.eng.setReg q.1 q.2)) (fun p hp => hl p (by simp [hp])) (.reg q.1 q.2 (hl q (by simp)) h)
    exact this

/-- What pixels and register updates leave alone. -/
structure DrawFrame (regs : List (Fin 16)) (s w : State) : Prop where
  cfg : w.cfg = s.cfg
  host : w.host = s.host
  free : w.free = s.free
  responses : w.responses = s.responses
  eng : ∃ x t b, w.eng = { s.eng with x := x, tmp := t, bit := b }
  x : ∀ j : Fin 16, j ≠ ADDR → j ∉ regs → w.eng.x[j] = s.eng.x[j]
  dev : ∃ a d1 d2 rdl rdv rdy m, w.dev =
    { s.dev with ap := a, d1 := d1, d2 := d2, rdl := rdl, rdv := rdv, rdy := rdy, mem := m }
  reset : w.bus.reset = s.bus.reset

theorem Plots.frame {c : Bool} {regs : List (Fin 16)} {s w : State} {pts : List (Int × Int)} (h : Plots c regs s pts w) (h0 : s.dev.nop = 0) :
    DrawFrame regs s w := by
  induction h with
  | nil =>
    exact ⟨rfl, rfl, rfl, rfl, ⟨_, _, _, rfl⟩, fun _ _ _ => rfl, ⟨_, _, _, _, _, _, _, rfl⟩, rfl⟩
  | @reg pts w i v hi p ih =>
    obtain ⟨h1, h2, h3, h4, ⟨x, t, b, h5⟩, h6, ⟨a, d1, d2, rdl, rdv, rdy, m, h7⟩, h8⟩ := ih
    refine ⟨h1, h2, h3, h4, ⟨x.set i (BitVec.ofInt 32 v), t, b, ?_⟩, ?_, ⟨a, d1, d2, rdl, rdv, rdy, m, h7⟩, h8⟩
    · simp [Engine.setReg, h5]
    · intro j hj hj'
      have hij : i ≠ j := fun e => hj' (e ▸ hi)
      rw [← h6 j hj hj', State.setEng_eng, x_setReg_other _ _ hij]
  | @plot pts w px py p ih =>
    obtain ⟨h1, h2, h3, h4, ⟨x, t, b, h5⟩, h6, ⟨a, d1, d2, rdl, rdv, rdy, m, h7⟩, h8⟩ := ih
    refine ⟨h1, h2, h3, h4, ⟨x.set ADDR (BitVec.ofInt 32 (w.plotAddress px py).toNat), (w.plotted px py c).eng.tmp,
      (w.plotted px py c).eng.bit, ?_⟩, ?_,
      ⟨(w.plotted px py c).dev.ap, (w.plotted px py c).dev.d1, (w.plotted px py c).dev.d2, (w.plotted px py c).dev.rdl, false, .busy,
        (w.plotted px py c).dev.mem, ?_⟩, h8⟩
    · simp only [State.plotted, Engine.setReg, h5]
    · intro j hj hj'
      rw [← h6 j hj hj']
      exact x_setReg_other _ _ (Ne.symm hj)
    · simp only [State.plotted, h7, ← h0]

theorem DrawFrame.nop {regs : List (Fin 16)} {s w : State} (h : DrawFrame regs s w) : w.dev.nop = s.dev.nop := by
  obtain ⟨a, d1, d2, rdl, rdv, rdy, m, h⟩ := h.dev; rw [h]

theorem DrawFrame.color {regs : List (Fin 16)} {s w : State} (h : DrawFrame regs s w) : w.eng.color = s.eng.color := by
  obtain ⟨x, t, b, h⟩ := h.eng; rw [h]; rfl

theorem DrawFrame.a {regs : List (Fin 16)} {s w : State} (h : DrawFrame regs s w) : w.eng.a = s.eng.a := by
  obtain ⟨x, t, b, h⟩ := h.eng; rw [h]

theorem DrawFrame.b {regs : List (Fin 16)} {s w : State} (h : DrawFrame regs s w) : w.eng.b = s.eng.b := by
  obtain ⟨x, t, b, h⟩ := h.eng; rw [h]

theorem DrawFrame.c {regs : List (Fin 16)} {s w : State} (h : DrawFrame regs s w) : w.eng.c = s.eng.c := by
  obtain ⟨x, t, b, h⟩ := h.eng; rw [h]

theorem DrawFrame.d {regs : List (Fin 16)} {s w : State} (h : DrawFrame regs s w) : w.eng.d = s.eng.d := by
  obtain ⟨x, t, b, h⟩ := h.eng; rw [h]

/-- A plotted pixel leaves every working register but `x[15]` (R240). -/
theorem reg_plotted (s : State) (x y : Int) (c : Bool) {j : Fin 16} (h : j ≠ ADDR) : (s.plotted x y c).eng.reg j = s.eng.reg j := by
  show (s.eng.setReg ADDR _).reg j = _
  exact reg_setReg_other _ _ (Ne.symm h)

theorem Plots.trans {c : Bool} {regs : List (Fin 16)} {s w v : State} {pts pts' : List (Int × Int)} (h : Plots c regs s pts w)
    (h' : Plots c regs w pts' v) : Plots c regs s (pts ++ pts') v := by
  induction h' with
  | nil => simpa using h
  | reg i v hi p ih => exact .reg i v hi ih
  | plot x y p ih => rw [← List.append_assoc]; exact .plot x y ih

/-- Where the pointer stands after a pixel and the updates that follow it (R240: "`T.AP` is one past the pixel's byte"). -/
theorem Plots.last {c : Bool} {regs : List (Fin 16)} {s w : State} {pts : List (Int × Int)} (h : Plots c regs s pts w) (h0 : s.dev.nop = 0) :
    ∀ p ∈ pts.getLast?, w.dev.ap = deviceAddress (graphicAddress s.cfg p.1 p.2) + 1 ∧ w.dev.nop = 0 ∧ w.dev.rdv = false
      ∧ w.dev.rdy = .busy ∧ w.bus = s.bus.afterWrite true s.cfg.cmd.dataWriteInc := by
  induction h with
  | nil => simp
  | reg i v hi p ih => exact ih
  | plot x y p ih =>
    have f := p.frame h0
    rename_i pts w
    simp only [List.getLast?_append, List.getLast?_singleton, Option.mem_def, Option.some_or, Option.some.injEq]
    rintro _ rfl
    refine ⟨?_, rfl, rfl, rfl, ?_⟩
    · show deviceAddress (graphicAddress w.cfg x y) + 1 = _
      rw [f.cfg]
    · show w.bus.afterWrite true w.cfg.cmd.dataWriteInc = _
      rw [f.cfg]
      cases hpts : pts.getLast? with
      | none =>
        have : pts = [] := List.getLast?_eq_none_iff.mp hpts
        subst this
        clear ih hpts
        have : ∀ pts w, Plots c regs s pts w → pts = [] → w.bus = s.bus := by
          intro pts w hp
          induction hp with
          | nil => intro _; rfl
          | reg i v hi p ih => exact ih
          | plot x y p ih => intro e; simp at e
        rw [this _ _ p rfl]
      | some q => rw [(ih q hpts).2.2.2.2]; simp [Bus.afterWrite]

/-- Seven transfers a pixel (R240, R374). -/
theorem Plots.count {c : Bool} {regs : List (Fin 16)} {s w : State} {pts : List (Int × Int)} (h : Plots c regs s pts w) :
    (transfers w.trace).length = (transfers s.trace).length + 7 * pts.length := by
  induction h with
  | nil => simp
  | reg i v hi p ih => exact ih
  | @plot pts w x y p ih =>
    simp only [State.plotted, send2Trace, List.cons_append, List.nil_append, List.reverse_cons, List.reverse_nil, transfers_command,
      transfers_write, transfers_read, List.length_cons, List.length_append, List.length_nil]
    omega

/-! ## Memory -/

theorem memByte_plotted (s : State) (x y : Int) (c : Bool) (a : Nat) :
    (s.plotted x y c).memByte a = if a = (s.plotAddress x y).toNat then s.plotByte x y c else s.memByte a :=
  Memory.byte_store s.dev.mem s.free.memGen (s.plotAddress x y).toNat a (s.plotByte x y c)

/-- The byte with one bit set or cleared, bit by bit (R240). -/
theorem mergeBit_bit (m : Byte) (n : Nat) (c : Bool) (hn : n < 8) (i : Nat) :
    (mergeBit m n c).getLsbD i = if i = n then c else m.getLsbD i := by
  by_cases hi : i < 8
  · have hs : ((1 : Byte) <<< n).getLsbD i = decide (i = n) := by
      simp only [BitVec.getLsbD_shiftLeft]
      interval_cases n <;> interval_cases i <;> decide
    have hf : (0xFF : Byte).getLsbD i = true := by interval_cases i <;> rfl
    cases c with
    | true => simp only [mergeBit, if_true, BitVec.getLsbD_or, hs]; by_cases h : i = n <;> simp [h]
    | false =>
      simp only [mergeBit, Bool.false_eq_true, if_false, BitVec.getLsbD_and, BitVec.getLsbD_xor, hs, hf]
      by_cases h : i = n <;> simp [h]
  · have h1 : (mergeBit m n c).getLsbD i = false := BitVec.getLsbD_of_ge _ _ (by omega)
    have h2 : m.getLsbD i = false := BitVec.getLsbD_of_ge _ _ (by omega)
    rw [h1, h2, if_neg (by omega)]

/-- The points of a list lie where drawing may plot them: their bytes and bits are what the translator says (R211, R213). -/
def Plottable (g : Config) (pts : List (Int × Int)) : Prop :=
  ∀ p ∈ pts, 0 ≤ graphicAddress g p.1 p.2 ∧ graphicAddress g p.1 p.2 < g.ramSize ∧ g.ramSize ≤ 65536
    ∧ 0 ≤ bitOffset g p.1 ∧ bitOffset g p.1 < 8

theorem deviceAddress_toNat {a : Int} (h : 0 ≤ a) (h' : a < 65536) : ((deviceAddress a).toNat : Int) = a := by
  simp only [deviceAddress, BitVec.toNat_ofInt]
  omega

theorem bitOffset_toNat {b : Int} (h : 0 ≤ b) (h' : b < 8) : ((BitVec.ofInt 8 b).toNat : Int) = b := by
  simp only [BitVec.toNat_ofInt]
  omega

/-- Every bit of memory after pixels: the last color if it belongs to a plotted point, else as before (R240, R371). -/
theorem Plots.bits {c : Bool} {regs : List (Fin 16)} {s w : State} {pts : List (Int × Int)} (h : Plots c regs s pts w) (h0 : s.dev.nop = 0)
    (hp : Plottable s.cfg pts) (a b : Nat) :
    ((∃ p ∈ pts, graphicAddress s.cfg p.1 p.2 = a ∧ bitOffset s.cfg p.1 = b) → (w.memByte a).getLsbD b = c)
      ∧ ((∀ p ∈ pts, ¬ (graphicAddress s.cfg p.1 p.2 = a ∧ bitOffset s.cfg p.1 = b)) → (w.memByte a).getLsbD b = (s.memByte a).getLsbD b) := by
  induction h with
  | nil => simp
  | reg i v hi p ih => exact ih hp
  | plot x y p ih =>
    rename_i pts w
    have f := p.frame h0
    have ih := ih fun q hq => hp q (List.mem_append_left _ hq)
    obtain ⟨g1, g2, g3, g4, g5⟩ := hp (x, y) (by simp)
    have ha : ((w.plotAddress x y).toNat : Int) = graphicAddress s.cfg x y := by
      unfold State.plotAddress; rw [f.cfg]; exact deviceAddress_toNat g1 (by simp only at g2; omega)
    have hb : ((BitVec.ofInt 8 (bitOffset w.cfg x)).toNat : Int) = bitOffset s.cfg x := by rw [f.cfg]; exact bitOffset_toNat g4 g5
    have key : ((w.plotted x y c).memByte a).getLsbD b
        = if graphicAddress s.cfg x y = a ∧ bitOffset s.cfg x = b then c else (w.memByte a).getLsbD b := by
      rw [memByte_plotted]
      by_cases e : a = (w.plotAddress x y).toNat
      · rw [if_pos e]
        unfold State.plotByte
        rw [mergeBit_bit _ _ _ (by simp only at g4 g5; omega), ← e]
        by_cases e' : b = (BitVec.ofInt 8 (bitOffset w.cfg x)).toNat
        · rw [if_pos e', if_pos ⟨by omega, by omega⟩]
        · rw [if_neg e', if_neg (by rintro ⟨_, q⟩; omega)]
      · rw [if_neg e, if_neg (by rintro ⟨q, _⟩; omega)]
    constructor
    · rintro ⟨q, hq, e⟩
      rw [key]
      split
      · rfl
      · rename_i hne
        rcases List.mem_append.mp hq with hq | hq
        · exact ih.1 ⟨q, hq, e⟩
        · simp only [List.mem_singleton] at hq; subst hq; exact absurd e hne
    · intro hall
      rw [key, if_neg (hall (x, y) (by simp))]
      exact ih.2 fun q hq => hall q (List.mem_append_left _ hq)

theorem Plots.drawn {c : Bool} {regs : List (Fin 16)} {s w : State} {pts : List (Int × Int)} (h : Plots c regs s pts w) (h0 : s.dev.nop = 0)
    (hp : Plottable s.cfg pts) : Drawn s w pts c := by
  have f := h.frame h0
  refine ⟨fun p hm => ?_, fun a b ha => (h.bits h0 hp a b).2 ha⟩
  obtain ⟨g1, g2, g3, g4, g5⟩ := hp p hm
  unfold pixel
  rw [f.cfg]
  exact (h.bits h0 hp _ _).1 ⟨p, hm, by omega, by omega⟩

end Sys2Proof.Machine
end

