-- ==== Sys2Proof/Laws/Translator.lean ====
section
/-! SUPPORT. The translator on its admitted range: bounds of the addresses, and that two pixels never share a bit (42_addressing.md R210 to R215). -/

namespace Sys2Proof.Machine

theorem inGraphic_iff {g : Config} {x y : Int} : inGraphic g x y = true ↔
    0 ≤ x ∧ x < g.pixelsPerLine ∧ x / g.fontWidth < g.graphicArea ∧ 0 ≤ y ∧ y < g.numberOfLines := by
  simp only [inGraphic, Bool.and_eq_true, decide_eq_true_eq]
  tauto

theorem inText_iff {g : Config} {x y : Int} : inText g x y = true ↔ 0 ≤ x ∧ x < g.textArea ∧ 0 ≤ y ∧ y < g.textRows := by
  simp only [inText, Bool.and_eq_true, decide_eq_true_eq]
  tauto

/-- `InGraphic` is a product of intervals (R271, R281, R291). -/
theorem inGraphic_between {g : Config} (h : g.ok = true) {x x' y y' p q : Int} (h1 : inGraphic g x y = true) (h2 : inGraphic g x' y' = true)
    (hp : (x ≤ p ∧ p ≤ x') ∨ (x' ≤ p ∧ p ≤ x)) (hq : (y ≤ q ∧ q ≤ y') ∨ (y' ≤ q ∧ q ≤ y)) : inGraphic g p q = true := by
  rw [inGraphic_iff] at *
  have hf : (0 : Int) < g.fontWidth := by rcases Config.fontWidth_cases h with e | e <;> omega
  obtain ⟨a1, a2, a3, a4, a5⟩ := h1
  obtain ⟨b1, b2, b3, b4, b5⟩ := h2
  refine ⟨by omega, by omega, ?_, by omega, by omega⟩
  rcases hp with hp | hp
  · exact lt_of_le_of_lt (Int.ediv_le_ediv hf hp.2) b3
  · exact lt_of_le_of_lt (Int.ediv_le_ediv hf hp.2) a3

theorem column_lt {w n x y : Int} (hx0 : 0 ≤ x) (hx : x < w) (hy0 : 0 ≤ y) (hy : y < n) : 0 ≤ x + w * y ∧ x + w * y < w * n := by
  have hw : 0 < w := by omega
  have h1 : 0 ≤ w * y := Int.mul_nonneg (by omega) hy0
  have h2 : w * (y + 1) ≤ w * n := Int.mul_le_mul_of_nonneg_left (by omega) (by omega)
  have h3 : w * (y + 1) = w * y + w := by ring
  omega

/-- An admitted pixel's byte lies in the graphic area (R214). -/
theorem graphicAddress_bounds {g : Config} (h : g.ok = true) {x y : Int} (hg : inGraphic g x y = true) :
    (g.graphicHome : Int) ≤ graphicAddress g x y ∧ graphicAddress g x y < g.graphicHome + g.graphicSize := by
  obtain ⟨h1, h2, h3, h4, h5⟩ := inGraphic_iff.mp hg
  have hf : (0 : Int) < g.fontWidth := by rcases Config.fontWidth_cases h with e | e <;> omega
  have hd : 0 ≤ x / (g.fontWidth : Int) := Int.ediv_nonneg h1 (by omega)
  have := column_lt (w := g.graphicArea) (n := g.numberOfLines) hd h3 h4 h5
  have e : ((g.graphicSize : Nat) : Int) = (g.graphicArea : Int) * g.numberOfLines := by simp [Config.graphicSize]
  unfold graphicAddress
  omega

/-- An admitted text address lies in the text area (R214). -/
theorem textAddress_bounds {g : Config} {x y : Int} (ht : inText g x y = true) :
    (g.textHome : Int) ≤ textAddress g x y ∧ textAddress g x y < g.textHome + g.textSize := by
  obtain ⟨h1, h2, h3, h4⟩ := inText_iff.mp ht
  have := column_lt (w := g.textArea) (n := g.textRows) h1 h2 h3 h4
  have e : ((g.textSize : Nat) : Int) = (g.textArea : Int) * g.textRows := by simp [Config.textSize]
  unfold textAddress
  omega

theorem bitOffset_bounds {g : Config} (h : g.ok = true) {x : Int} : 0 ≤ bitOffset g x ∧ bitOffset g x < g.fontWidth := by
  have hf : (0 : Int) < g.fontWidth := by rcases Config.fontWidth_cases h with e | e <;> omega
  have h1 := Int.emod_nonneg x (Int.ne_of_gt hf)
  have h2 := Int.emod_lt_of_pos x hf
  unfold bitOffset
  omega

/-- Points that are admitted may be plotted. -/
theorem plottable_of_inGraphic {g : Config} (h : g.ok = true) {pts : List (Int × Int)}
    (hp : ∀ p ∈ pts, inGraphic g p.1 p.2 = true) : Plottable g pts := by
  intro p hm
  have hb := graphicAddress_bounds h (hp p hm)
  have hr := Config.graphic_le h
  have hs := Config.ramSize_le h
  have ho := bitOffset_bounds h (x := p.1)
  have hf : g.fontWidth ≤ 8 := by rcases Config.fontWidth_cases h with e | e <;> omega
  refine ⟨by omega, by omega, hs, ho.1, by omega⟩

/-- Two admitted pixels with one byte and one bit are one pixel (R214). -/
theorem pixel_injective {g : Config} (h : g.ok = true) {x y x' y' : Int} (h1 : inGraphic g x y = true) (h2 : inGraphic g x' y' = true)
    (ha : graphicAddress g x y = graphicAddress g x' y') (hb : bitOffset g x = bitOffset g x') : x = x' ∧ y = y' := by
  obtain ⟨a1, a2, a3, a4, a5⟩ := inGraphic_iff.mp h1
  obtain ⟨b1, b2, b3, b4, b5⟩ := inGraphic_iff.mp h2
  have hf : (0 : Int) < g.fontWidth := by rcases Config.fontWidth_cases h with e | e <;> omega
  have hd : 0 ≤ x / (g.fontWidth : Int) := Int.ediv_nonneg a1 (by omega)
  have hd' : 0 ≤ x' / (g.fontWidth : Int) := Int.ediv_nonneg b1 (by omega)
  unfold graphicAddress at ha
  unfold bitOffset at hb
  have hy : y = y' := by
    rcases lt_trichotomy y y' with hlt | heq | hgt
    · have h3 : (g.graphicArea : Int) * (y + 1) ≤ g.graphicArea * y' := Int.mul_le_mul_of_nonneg_left (by omega) (by omega)
      have h4 : (g.graphicArea : Int) * (y + 1) = g.graphicArea * y + g.graphicArea := by ring
      omega
    · exact heq
    · have h3 : (g.graphicArea : Int) * (y' + 1) ≤ g.graphicArea * y := Int.mul_le_mul_of_nonneg_left (by omega) (by omega)
      have h4 : (g.graphicArea : Int) * (y' + 1) = g.graphicArea * y' + g.graphicArea := by ring
      omega
  subst hy
  refine ⟨?_, rfl⟩
  have e1 := Int.mul_ediv_add_emod x (g.fontWidth : Int)
  have e2 := Int.mul_ediv_add_emod x' (g.fontWidth : Int)
  have hq : x / (g.fontWidth : Int) = x' / (g.fontWidth : Int) := by omega
  have hm : x % (g.fontWidth : Int) = x' % (g.fontWidth : Int) := by omega
  rw [← e1, ← e2, hq, hm]

end Sys2Proof.Machine
end

