-- ==== Sys2Proof/Laws/Shapes.lean ====
section
/-! SUPPORT. The loops of RECT, CIRC and LINE on a responsive device: the points they plot, in order, with the working registers along the way
(45_rectangle.md R270; 46_circle.md R280, R281; 47_line.md R290, R291). -/

namespace Sys2Proof.Machine

/-! ## Lists of pixels -/

/-- Some `SetPixel` calls in a row (R240). -/
theorem Goes.pixels {c : Bool} {regs : List (Fin 16)} (pts : List (Int × Int)) (rest : List Micro) : ∀ {s : State}, s.dev.nop = 0 →
    Plottable s.cfg pts → ∃ w, Goes s (pts.map (fun p => .setPixel p.1 p.2 c) ++ rest) w rest ∧ Plots c regs s pts w
      ∧ ∀ j, j ≠ ADDR → w.eng.reg j = s.eng.reg j := by
  induction pts with
  | nil => intro s _ _; exact ⟨s, .refl _ _, .nil, fun _ _ => rfl⟩
  | cons p pts ih =>
    intro s h0 hp
    obtain ⟨g1, g2, g3, _, _⟩ := hp p (by simp)
    have ha : (s.plotAddress p.1 p.2).toNat < s.cfg.ramSize := by
      have := deviceAddress_toNat g1 (by omega)
      unfold State.plotAddress
      omega
    have h1 := Goes.setPixel (s := s) p.1 p.2 c (pts.map (fun p => .setPixel p.1 p.2 c) ++ rest) h0 ha
    obtain ⟨w, a1, a2, a3⟩ := ih (s := s.plotted p.1 p.2 c) rfl (fun q hq => hp q (by simp [hq]))
    refine ⟨w, h1.trans a1, ?_, fun j hj => by rw [a3 j hj, reg_plotted _ _ _ _ hj]⟩
    have : Plots c regs s [(p.1, p.2)] (s.plotted p.1 p.2 c) := .plot (pts := []) p.1 p.2 .nil
    exact this.trans a2

/-- An engine step that writes one working register. -/
theorem Goes.setReg {s : State} {m : Micro} {rest : List Micro} (i : Fin 16) (v : Int)
    (hm : ∀ s', Alike s' s → microStep m rest (s'.at (m :: rest)) = .next ((s'.setEng (s'.eng.setReg i v)).goto rest)) :
    Goes s (m :: rest) (s.setEng (s.eng.setReg i v)) rest :=
  Goes.engine (fun e => e.setReg i v) hm (fun _ _ => rfl) (fun _ => rfl)

theorem Alike.reg {a b : State} (h : Alike a b) (j : Fin 16) : a.eng.reg j = b.eng.reg j := by rw [h.eng_eq]; rfl
theorem Alike.color {a b : State} (h : Alike a b) : a.eng.color = b.eng.color := by rw [h.eng_eq]; rfl
theorem Alike.a {a b : State} (h : Alike a b) : a.eng.a = b.eng.a := by rw [h.eng_eq]
theorem Alike.b {a b : State} (h : Alike a b) : a.eng.b = b.eng.b := by rw [h.eng_eq]
theorem Alike.c {a b : State} (h : Alike a b) : a.eng.c = b.eng.c := by rw [h.eng_eq]
theorem Alike.d {a b : State} (h : Alike a b) : a.eng.d = b.eng.d := by rw [h.eng_eq]

/-- A step that only changes what is left to do. -/
theorem Goes.branch {s : State} {m : Micro} {rest q : List Micro}
    (hm : ∀ s', Alike s' s → microStep m rest (s'.at (m :: rest)) = .next (s'.goto q)) : Goes s (m :: rest) s q :=
  Goes.internal id hm (fun _ h => h) (fun _ h => h)

theorem Goes.clearCount (s : State) (rest : List Micro) : Goes s (.clearCount :: rest) (s.setEng (s.eng.setReg CNT 0)) rest :=
  Goes.setReg CNT 0 fun s' _ => by show Host.Outcome.next (clearCountStep rest (s'.at _)) = _; rfl

theorem Goes.bumpCount (s : State) (rest : List Micro) :
    Goes s (.bumpCount :: rest) (s.setEng (s.eng.setReg CNT (s.eng.reg CNT + 1))) rest :=
  Goes.setReg CNT (s.eng.reg CNT + 1) fun s' ha => by
    show Host.Outcome.next (bumpCountStep rest (s'.at _)) = _
    unfold bumpCountStep
    rw [← ha.reg CNT]
    cases rest <;> rfl

/-! ## Several registers written at once -/

theorem reg_seq (e : Engine) (q : List Micro) (i : Fin 16) : ({ e with seq := q } : Engine).reg i = e.reg i := rfl
theorem color_seq (e : Engine) (q : List Micro) : ({ e with seq := q } : Engine).color = e.color := rfl

theorem setRegs_with (e : Engine) (l : List (Fin 16 × Int)) :
    ∃ x, ∀ q p, (({ e with seq := q, pcnt := p } : Engine).setRegs l) = { e with seq := q, pcnt := p, x := x } := by
  induction l generalizing e with
  | nil => exact ⟨e.x, fun _ _ => rfl⟩
  | cons a l ih =>
    obtain ⟨x, h⟩ := ih (e.setReg a.1 a.2)
    exact ⟨x, fun q p => h q p⟩

/-- An engine step that writes working registers. -/
theorem Goes.setRegs {s : State} {m : Micro} {rest q : List Micro} (l : List (Fin 16 × Int))
    (hm : ∀ s', Alike s' s → microStep m rest (s'.at (m :: rest)) = .next (((s'.at (m :: rest)).setEng
      ((s'.at (m :: rest)).eng.setRegs l)).goto q)) :
    Goes s (m :: rest) (s.setEng (s.eng.setRegs l)) q := by
  refine Goes.engine (fun e => e.setRegs l) (fun s' ha => ?_) (fun e p => ?_) (fun e => ?_)
  · rw [hm s' ha]
    obtain ⟨x, h⟩ := setRegs_with s'.eng l
    have h1 : (s'.at (m :: rest)).eng.setRegs l = { s'.eng with seq := m :: rest, x := x } := h (m :: rest) s'.eng.pcnt
    have h2 : s'.eng.setRegs l = { s'.eng with x := x } := h s'.eng.seq s'.eng.pcnt
    rw [h1]
    simp only [h2]
    cases q <;> rfl
  · obtain ⟨x, h⟩ := setRegs_with e l
    have h1 := h e.seq p
    have h2 := h e.seq e.pcnt
    exact h1.trans (by rw [show e.setRegs l = _ from h2])
  · obtain ⟨x, h⟩ := setRegs_with e l
    have h2 := h e.seq e.pcnt
    rw [show e.setRegs l = _ from h2]

/-! ## RECT -/

/-- The points of `k` passes of the vertical loop from count `n` on, and of the horizontal loop (R270). -/
def verticalPoints (x y w : Int) (n k : Nat) : List (Int × Int) :=
  (List.range' n k).flatMap fun (i : Nat) => [(x, y + i), (x + w - 1, y + i)]
def horizontalPoints (x y h : Int) (n k : Nat) : List (Int × Int) :=
  (List.range' n k).flatMap fun (i : Nat) => [(x + i, y), (x + i, y + h - 1)]

/-- A counted loop whose passes plot pixels and bump the count: `pts n` are the points of pass `n`, `m` the loop's step. -/
theorem Goes.countedPixels {m : Micro} {rest : List Micro} (pts : Nat → List (Int × Int)) (c : Bool) (bound : Nat) (I : State → Prop)
    (hb : bound < 2147483647)
    (hI : ∀ s w, DrawFrame [CNT] s w → I s → I w)
    (hin : ∀ s (n : Nat), I s → s.eng.reg CNT = n → n < bound →
      Goes s (m :: rest) s ((pts n).map (fun p => .setPixel p.1 p.2 c) ++ .bumpCount :: m :: rest))
    (hout : ∀ s, I s → s.eng.reg CNT = bound → Goes s (m :: rest) s rest)
    (k : Nat) : ∀ {s : State} {n : Nat}, I s → s.dev.nop = 0 → s.eng.reg CNT = n → n + k = bound →
    Plottable s.cfg ((List.range' n k).flatMap pts) →
    ∃ w, Goes s (m :: rest) w rest ∧ Plots c [CNT] s ((List.range' n k).flatMap pts) w := by
  induction k with
  | zero => intro s n hi h0 hn hk hp; exact ⟨s, hout s hi (by omega), .nil⟩
  | succ k ih =>
    intro s n hi h0 hn hk hp
    rw [List.range'_succ, List.flatMap_cons] at hp ⊢
    obtain ⟨w, a1, a2, a3⟩ := Goes.pixels (c := c) (regs := [CNT]) (pts n) (.bumpCount :: m :: rest) h0
      (fun q hq => hp q (List.mem_append_left _ hq))
    have f := a2.frame h0
    have b1 := Goes.bumpCount w (m :: rest)
    have hw : w.eng.reg CNT = n := by rw [a3 CNT (by decide), hn]
    let v : State := w.setEng (w.eng.setReg CNT (w.eng.reg CNT + 1))
    have pv : Plots c [CNT] s (pts n) v := .reg CNT _ (by simp) a2
    have fv := pv.frame h0
    obtain ⟨u, c1, c2⟩ := ih (s := v) (n := n + 1) (hI s v fv hi) (by rw [fv.nop]; exact h0)
      (by show (w.eng.setReg CNT _).reg CNT = _; rw [reg_setReg_self _ _ _ (by omega) (by omega), hw]; push_cast; rfl) (by omega)
      (by rw [fv.cfg]; exact fun q hq => hp q (List.mem_append_right _ hq))
    refine ⟨u, ((hin s n hi hn (by omega)).trans a1).trans (b1.trans c1), pv.trans c2⟩

/-- The latch holds the operands of a rectangle (R23, R270). -/
def HoldsRect (x y w h : Half) (c : Bool) (s : State) : Prop :=
  s.eng.a = x ∧ s.eng.b = y ∧ s.eng.c = w ∧ s.eng.d = h ∧ s.eng.color = c

theorem HoldsRect.of_frame {x y w h : Half} {c : Bool} {regs : List (Fin 16)} {s u : State} (f : DrawFrame regs s u) (hi : HoldsRect x y w h c s) :
    HoldsRect x y w h c u := by
  obtain ⟨h1, h2, h3, h4, h5⟩ := hi
  exact ⟨f.a.trans h1, f.b.trans h2, f.c.trans h3, f.d.trans h4, f.color.trans h5⟩

theorem HoldsRect.of_alike {x y w h : Half} {c : Bool} {s u : State} (f : Alike u s) (hi : HoldsRect x y w h c s) :
    HoldsRect x y w h c u := by
  obtain ⟨h1, h2, h3, h4, h5⟩ := hi
  exact ⟨f.a.trans h1, f.b.trans h2, f.c.trans h3, f.d.trans h4, f.color.trans h5⟩

theorem rectPoints_eq (x y w h : Int) :
    rectPoints x y w h = verticalPoints x y w 0 h.toNat ++ horizontalPoints x y h 0 w.toNat := by
  simp [rectPoints, verticalPoints, horizontalPoints, List.range_eq_range']

/-- The whole of RECT (R270): from its first step to its end, the points in order. -/
theorem Goes.rect {x y w h : Half} {c : Bool} {s : State} (rest : List Micro) (hi : HoldsRect x y w h c s) (h0 : s.dev.nop = 0)
    (hw : 0 ≤ operand w) (hh : 0 ≤ operand h) (hp : Plottable s.cfg (rectPoints (operand x) (operand y) (operand w) (operand h))) :
    ∃ u, Goes s ([.clearCount, .rectVertical, .clearCount, .rectHorizontal] ++ rest) u rest
      ∧ Plots c [CNT] s (rectPoints (operand x) (operand y) (operand w) (operand h)) u := by
  rw [rectPoints_eq] at hp ⊢
  have bw : operand w < 32768 := by unfold operand; have := BitVec.toInt_lt (x := w); omega
  have bh : operand h < 32768 := by unfold operand; have := BitVec.toInt_lt (x := h); omega
  -- the vertical edges
  have s1 := Goes.clearCount s ([.rectVertical, .clearCount, .rectHorizontal] ++ rest)
  have p1 : Plots c [CNT] s [] (s.setEng (s.eng.setReg CNT 0)) := .reg CNT 0 (by simp) .nil
  have f1 := p1.frame h0
  obtain ⟨v, s2, p2⟩ := Goes.countedPixels (m := .rectVertical) (rest := .clearCount :: .rectHorizontal :: rest)
    (fun i => [(operand x, operand y + i), (operand x + operand w - 1, operand y + i)]) c (operand h).toNat (HoldsRect x y w h c) (by omega)
    (fun _ _ f hi => hi.of_frame f)
    (fun s n hi hn hlt => Goes.branch fun s' ha => by
      obtain ⟨e1, e2, e3, e4, e5⟩ := hi.of_alike ha
      show Host.Outcome.next (rectVerticalStep _ (s'.at _)) = _
      have hr : ((s'.at (.rectVertical :: .clearCount :: .rectHorizontal :: rest)).eng.reg CNT) = n := by rw [← hn, ← ha.reg CNT]; rfl
      have hr' : (n : Int) < operand h := by omega
      have hc : (s'.at (.rectVertical :: .clearCount :: .rectHorizontal :: rest)).eng.color = c := e5
      simp only [rectVerticalStep, hr, hc]
      simp only [State.at_eng, e1, e2, e3, e4, hr', if_true, State.goto_at]
      rfl)
    (fun s hi hn => Goes.branch fun s' ha => by
      obtain ⟨e1, e2, e3, e4, e5⟩ := hi.of_alike ha
      show Host.Outcome.next (rectVerticalStep _ (s'.at _)) = _
      have hr : ((s'.at (.rectVertical :: .clearCount :: .rectHorizontal :: rest)).eng.reg CNT) = operand h := by
        have : (s'.at (.rectVertical :: .clearCount :: .rectHorizontal :: rest)).eng.reg CNT = s'.eng.reg CNT := rfl
        rw [this, ha.reg CNT, hn]; omega
      simp only [rectVerticalStep, hr]
      simp only [State.at_eng, e4, lt_irrefl, if_false, State.goto_at])
    (operand h).toNat (s := s.setEng (s.eng.setReg CNT 0)) (n := 0) (hi.of_frame f1) h0
    (by show (s.eng.setReg CNT 0).reg CNT = _; rw [reg_setReg_self _ _ _ (by omega) (by omega)]; rfl) (by omega)
    (fun q hq => hp q (List.mem_append_left _ hq))
  -- the horizontal edges
  have p12 := p1.trans p2
  have f2 := p12.frame h0
  have s3 := Goes.clearCount v (.rectHorizontal :: rest)
  have p3 : Plots c [CNT] v [] (v.setEng (v.eng.setReg CNT 0)) := .reg CNT 0 (by simp) .nil
  have p13 := p12.trans p3
  have f3 := p13.frame h0
  obtain ⟨u, s4, p4⟩ := Goes.countedPixels (m := .rectHorizontal) (rest := rest)
    (fun i => [(operand x + i, operand y), (operand x + i, operand y + operand h - 1)]) c (operand w).toNat (HoldsRect x y w h c) (by omega)
    (fun _ _ f hi => hi.of_frame f)
    (fun s n hi hn hlt => Goes.branch fun s' ha => by
      obtain ⟨e1, e2, e3, e4, e5⟩ := hi.of_alike ha
      show Host.Outcome.next (rectHorizontalStep _ (s'.at _)) = _
      have hr : ((s'.at (.rectHorizontal :: rest)).eng.reg CNT) = n := by rw [← hn, ← ha.reg CNT]; rfl
      have hr' : (n : Int) < operand w := by omega
      have hc : (s'.at (.rectHorizontal :: rest)).eng.color = c := e5
      simp only [rectHorizontalStep, hr, hc]
      simp only [State.at_eng, e1, e2, e3, e4, hr', if_true, State.goto_at]
      rfl)
    (fun s hi hn => Goes.branch fun s' ha => by
      obtain ⟨e1, e2, e3, e4, e5⟩ := hi.of_alike ha
      show Host.Outcome.next (rectHorizontalStep _ (s'.at _)) = _
      have hr : ((s'.at (.rectHorizontal :: rest)).eng.reg CNT) = operand w := by
        have : (s'.at (.rectHorizontal :: rest)).eng.reg CNT = s'.eng.reg CNT := rfl
        rw [this, ha.reg CNT, hn]; omega
      simp only [rectHorizontalStep, hr]
      simp only [State.at_eng, e3, lt_irrefl, if_false, State.goto_at])
    (operand w).toNat (s := v.setEng (v.eng.setReg CNT 0)) (n := 0) (hi.of_frame f3) (by rw [f3.nop]; exact h0)
    (by show (v.eng.setReg CNT 0).reg CNT = _; rw [reg_setReg_self _ _ _ (by omega) (by omega)]; rfl) (by omega)
    (by rw [f3.cfg]; exact fun q hq => hp q (List.mem_append_right _ hq))
  exact ⟨u, (s1.trans s2).trans (s3.trans s4), by simpa [verticalPoints, horizontalPoints] using p13.trans p4⟩

end Sys2Proof.Machine
end

