-- ==== Sys2Proof/Laws/Circles.lean ====
section
/-! SUPPORT. The circle rasterizer: its tuples keep the invariant of R281, its working registers hold them, its loop plots their points
(46_circle.md R280, R281). -/

namespace Sys2Proof.Machine

/-! ## The tuples -/

/-- The invariant at the top of every step and at exit (R281). -/
structure CircleTuple.Inv (r : Int) (t : CircleTuple) : Prop where
  xch : t.xch = 1 - 2 * t.x
  ych : t.ych = 2 * t.y + 1
  rerr : t.rerr = t.x * t.x + t.y * t.y - r * r
  xLow : -1 ≤ t.x
  xHigh : t.x ≤ r
  yLow : 0 ≤ t.y
  yHigh : t.y ≤ t.x + 2

theorem CircleTuple.inv_start {r : Int} (h : 0 ≤ r) : (CircleTuple.start r).Inv r :=
  ⟨by simp [CircleTuple.start], by simp [CircleTuple.start], by simp [CircleTuple.start], by simp only [CircleTuple.start]; omega,
    by simp [CircleTuple.start], by simp [CircleTuple.start], by simp only [CircleTuple.start]; omega⟩

theorem CircleTuple.inv_next {r : Int} {t : CircleTuple} (h : t.Inv r) (hxy : t.y ≤ t.x) : t.next.Inv r := by
  obtain ⟨h1, h2, h3, h4, h5, h6, h7⟩ := h
  unfold CircleTuple.next
  split
  · refine ⟨?_, ?_, ?_, ?_, ?_, ?_, ?_⟩ <;> simp only
    · rw [h1]; ring
    · rw [h2]; ring
    · rw [h3, h2, h1]; ring
    all_goals omega
  · refine ⟨?_, ?_, ?_, ?_, ?_, ?_, ?_⟩ <;> simp only
    · exact h1
    · rw [h2]; ring
    · rw [h3, h2]; ring
    all_goals omega

/-- The bounds of R281 keep every value inside `s32` (R372). -/
theorem CircleTuple.Inv.small {r : Int} {t : CircleTuple} (h : t.Inv r) (hr : r ≤ 16383) :
    (t.rerr ≤ 1073741824 ∧ -1073741824 ≤ t.rerr) ∧ -32768 ≤ t.xch ∧ t.xch ≤ 3 ∧ 0 < t.ych ∧ t.ych ≤ 32775 := by
  obtain ⟨h1, h2, h3, h4, h5, h6, h7⟩ := h
  have a1 : t.x * t.x ≤ 16384 * 16384 := by nlinarith
  have a2 : t.y * t.y ≤ 16386 * 16386 := by nlinarith
  have a3 : r * r ≤ 16384 * 16384 := by nlinarith
  have a4 : 0 ≤ t.x * t.x := mul_self_nonneg _
  have a5 : 0 ≤ t.y * t.y := mul_self_nonneg _
  have a6 : 0 ≤ r * r := mul_self_nonneg _
  refine ⟨⟨by omega, by omega⟩, by omega, by omega, by omega, by omega⟩

/-! ## The registers -/

/-- The working registers hold a tuple (R280). -/
def HoldsTuple (t : CircleTuple) (e : Engine) : Prop :=
  e.reg CIRX = t.x ∧ e.reg CIRY = t.y ∧ e.reg XCH = t.xch ∧ e.reg YCH = t.ych ∧ e.reg RERR = t.rerr

/-- CIRC's registers (R280). -/
def circleRegs : List (Fin 16) := [CIRX, CIRY, XCH, YCH, RERR]

theorem holds_start {e : Engine} (h0 : 0 ≤ operand e.c) (hr : operand e.c ≤ 16383) :
    HoldsTuple (CircleTuple.start (operand e.c)) e.circleStart := by
  unfold Engine.circleStart
  refine ⟨?_, ?_, ?_, ?_, ?_⟩
  · rw [reg_setReg_other _ _ (by decide), reg_setReg_other _ _ (by decide), reg_setReg_other _ _ (by decide), reg_setReg_other _ _ (by decide),
      reg_setReg_self _ _ _ (by omega) (by omega)]; rfl
  · rw [reg_setReg_other _ _ (by decide), reg_setReg_other _ _ (by decide), reg_setReg_other _ _ (by decide),
      reg_setReg_self _ _ _ (by omega) (by omega)]; rfl
  · rw [reg_setReg_other _ _ (by decide), reg_setReg_other _ _ (by decide), reg_setReg_self _ _ _ (by omega) (by omega)]; rfl
  · rw [reg_setReg_other _ _ (by decide), reg_setReg_self _ _ _ (by omega) (by omega)]; rfl
  · rw [reg_setReg_self _ _ _ (by omega) (by omega)]; rfl

/-- One step on the registers is one step on the tuple (R280, R372). -/
theorem circleStep_eq {r : Int} {t : CircleTuple} {e : Engine} (h : HoldsTuple t e) (ht : t.Inv r) (hr : r ≤ 16383) :
    e.circleStep =
      let e1 := ((e.setReg CIRY (t.y + 1)).setReg RERR (t.rerr + t.ych)).setReg YCH (t.ych + 2)
      if 2 * (t.rerr + t.ych) + t.xch > 0 then
        ((e1.setReg CIRX (t.x - 1)).setReg RERR (t.rerr + t.ych + t.xch)).setReg XCH (t.xch + 2)
      else e1 := by
  obtain ⟨h1, h2, h3, h4, h5⟩ := h
  obtain ⟨⟨b1, b2⟩, b3, b4, b5, b6⟩ := ht.small hr
  have b7 := ht.xHigh
  have b8 := ht.xLow
  have b9 := ht.yHigh
  have b10 := ht.yLow
  unfold Engine.circleStep
  simp only [h2]
  rw [reg_setReg_other _ (i := CIRY) (j := RERR) _ (by decide), reg_setReg_other _ (i := CIRY) (j := YCH) _ (by decide), h5, h4]
  rw [reg_setReg_other _ (i := RERR) (j := YCH) _ (by decide), reg_setReg_other _ (i := CIRY) (j := YCH) _ (by decide), h4]
  rw [reg_setReg_other _ (i := YCH) (j := RERR) _ (by decide), reg_setReg_self _ RERR _ (by omega) (by omega)]
  rw [reg_setReg_other _ (i := YCH) (j := XCH) _ (by decide), reg_setReg_other _ (i := RERR) (j := XCH) _ (by decide),
    reg_setReg_other _ (i := CIRY) (j := XCH) _ (by decide), h3]
  split
  · rw [reg_setReg_other _ (i := YCH) (j := CIRX) _ (by decide), reg_setReg_other _ (i := RERR) (j := CIRX) _ (by decide),
      reg_setReg_other _ (i := CIRY) (j := CIRX) _ (by decide), h1]
    rw [reg_setReg_other _ (i := CIRX) (j := RERR) _ (by decide), reg_setReg_other _ (i := YCH) (j := RERR) _ (by decide),
      reg_setReg_self _ RERR _ (by omega) (by omega)]
    rw [reg_setReg_other _ (i := CIRX) (j := XCH) _ (by decide), reg_setReg_other _ (i := YCH) (j := XCH) _ (by decide),
      reg_setReg_other _ (i := RERR) (j := XCH) _ (by decide), reg_setReg_other _ (i := CIRY) (j := XCH) _ (by decide), h3]
    rw [reg_setReg_other _ (i := RERR) (j := XCH) _ (by decide), reg_setReg_other _ (i := CIRX) (j := XCH) _ (by decide),
      reg_setReg_other _ (i := YCH) (j := XCH) _ (by decide),
      reg_setReg_other _ (i := RERR) (j := XCH) _ (by decide), reg_setReg_other _ (i := CIRY) (j := XCH) _ (by decide), h3]
  · rfl

theorem holds_next {r : Int} {t : CircleTuple} {e : Engine} (h : HoldsTuple t e) (ht : t.Inv r) (hr : r ≤ 16383) :
    HoldsTuple t.next e.circleStep := by
  rw [circleStep_eq h ht hr]
  obtain ⟨h1, h2, h3, h4, h5⟩ := h
  obtain ⟨⟨b1, b2⟩, b3, b4, b5, b6⟩ := ht.small hr
  have b7 := ht.xHigh
  have b8 := ht.xLow
  have b9 := ht.yHigh
  have b10 := ht.yLow
  unfold CircleTuple.next
  simp only
  split <;> refine ⟨?_, ?_, ?_, ?_, ?_⟩ <;>
    repeat (first
      | rw [reg_setReg_self _ _ _ (by omega) (by omega)]
      | rw [reg_setReg_other _ _ (by decide)]
      | assumption)

theorem plots_circleStart {c : Bool} (s : State) : Plots c circleRegs s [] (s.setEng s.eng.circleStart) :=
  Plots.regs (w := s) [(CIRX, operand s.eng.c), (CIRY, 0), (XCH, 1 - 2 * operand s.eng.c), (YCH, 1), (RERR, 0)]
    (by simp [circleRegs]) .nil

theorem plots_circleStep {c : Bool} {s w : State} {pts : List (Int × Int)} {r : Int} {t : CircleTuple} (p : Plots c circleRegs s pts w)
    (h : HoldsTuple t w.eng) (ht : t.Inv r) (hr : r ≤ 16383) : Plots c circleRegs s pts (w.setEng w.eng.circleStep) := by
  rw [circleStep_eq h ht hr]
  simp only
  split
  · exact Plots.regs (w := w) [(CIRY, t.y + 1), (RERR, t.rerr + t.ych), (YCH, t.ych + 2), (CIRX, t.x - 1), (RERR, t.rerr + t.ych + t.xch),
      (XCH, t.xch + 2)] (by simp [circleRegs]) p
  · exact Plots.regs (w := w) [(CIRY, t.y + 1), (RERR, t.rerr + t.ych), (YCH, t.ych + 2)] (by simp [circleRegs]) p

/-! ## The loop -/

/-- The latch holds the operands of a circle (R23, R280). -/
def HoldsCircle (cx cy r : Half) (c : Bool) (s : State) : Prop :=
  s.eng.a = cx ∧ s.eng.b = cy ∧ s.eng.c = r ∧ s.eng.color = c

theorem HoldsCircle.of_frame {cx cy r : Half} {c : Bool} {regs : List (Fin 16)} {s u : State} (f : DrawFrame regs s u)
    (hi : HoldsCircle cx cy r c s) : HoldsCircle cx cy r c u := by
  obtain ⟨h1, h2, h3, h4⟩ := hi
  exact ⟨f.a.trans h1, f.b.trans h2, f.c.trans h3, f.color.trans h4⟩

theorem Goes.circleExit {s : State} {t : CircleTuple} (rest : List Micro) (ht : HoldsTuple t s.eng) (hn : ¬ t.x ≥ t.y) :
    Goes s (.circleLoop :: rest) s rest := by
  refine Goes.branch fun s' ha => ?_
  show Host.Outcome.next (circleLoopStep rest (s'.at _)) = _
  have e1 : (s'.at (.circleLoop :: rest)).eng.reg CIRX = t.x := by rw [← ht.1, ← ha.reg CIRX, State.at_eng, reg_seq]
  have e2 : (s'.at (.circleLoop :: rest)).eng.reg CIRY = t.y := by rw [← ht.2.1, ← ha.reg CIRY, State.at_eng, reg_seq]
  simp only [circleLoopStep, e1, e2, if_neg hn, State.goto_at]

theorem Goes.circlePass {cx cy r : Half} {c : Bool} {s : State} {t : CircleTuple} (rest : List Micro) (hc : HoldsCircle cx cy r c s)
    (ht : HoldsTuple t s.eng) (hge : t.x ≥ t.y) :
    Goes s (.circleLoop :: rest) s
      ((octantPoints (operand cx) (operand cy) t.x t.y).map (fun p => .setPixel p.1 p.2 c) ++ .circleStep :: .circleLoop :: rest) := by
  refine Goes.branch fun s' ha => ?_
  show Host.Outcome.next (circleLoopStep rest (s'.at _)) = _
  have e1 : (s'.at (.circleLoop :: rest)).eng.reg CIRX = t.x := by rw [← ht.1, ← ha.reg CIRX, State.at_eng, reg_seq]
  have e2 : (s'.at (.circleLoop :: rest)).eng.reg CIRY = t.y := by rw [← ht.2.1, ← ha.reg CIRY, State.at_eng, reg_seq]
  have e3 : (s'.at (.circleLoop :: rest)).eng.color = c := by rw [← hc.2.2.2, ← ha.color, State.at_eng, color_seq]
  have e4 : (s'.at (.circleLoop :: rest)).eng.a = cx := by rw [← hc.1, ← ha.a, State.at_eng]
  have e5 : (s'.at (.circleLoop :: rest)).eng.b = cy := by rw [← hc.2.1, ← ha.b, State.at_eng]
  simp only [circleLoopStep, e1, e2, e3, e4, e5, if_pos hge, State.goto_at]
  simp only [List.append_assoc, List.cons_append, List.nil_append]

theorem HoldsTuple.of_regs {t : CircleTuple} {e e' : Engine} (h : HoldsTuple t e) (hr : ∀ j, j ≠ ADDR → e'.reg j = e.reg j) : HoldsTuple t e' := by
  obtain ⟨h1, h2, h3, h4, h5⟩ := h
  exact ⟨(hr _ (by decide)).trans h1, (hr _ (by decide)).trans h2, (hr _ (by decide)).trans h3, (hr _ (by decide)).trans h4,
    (hr _ (by decide)).trans h5⟩

/-- The registers a circle step writes (R280). -/
def CircleTuple.writes (t : CircleTuple) : List (Fin 16 × Int) :=
  if 2 * (t.rerr + t.ych) + t.xch > 0 then
    [(CIRY, t.y + 1), (RERR, t.rerr + t.ych), (YCH, t.ych + 2), (CIRX, t.x - 1), (RERR, t.rerr + t.ych + t.xch), (XCH, t.xch + 2)]
  else [(CIRY, t.y + 1), (RERR, t.rerr + t.ych), (YCH, t.ych + 2)]

theorem circleStep_setRegs {r : Int} {t : CircleTuple} {e : Engine} (h : HoldsTuple t e) (ht : t.Inv r) (hr : r ≤ 16383) :
    e.circleStep = e.setRegs t.writes := by
  rw [circleStep_eq h ht hr]
  unfold CircleTuple.writes
  simp only
  split <;> rfl

theorem Goes.circleUpdate {s : State} {t : CircleTuple} {r : Int} (rest : List Micro) (h : HoldsTuple t s.eng) (hi : t.Inv r) (hr : r ≤ 16383) :
    Goes s (.circleStep :: rest) (s.setEng s.eng.circleStep) rest := by
  rw [circleStep_setRegs h hi hr]
  refine Goes.setRegs t.writes fun s' ha => ?_
  have h' : HoldsTuple t (s'.at (.circleStep :: rest)).eng :=
    h.of_regs fun j _ => by rw [State.at_eng, reg_seq, ha.reg]
  rw [← circleStep_setRegs h' hi hr]
  rfl

theorem Goes.circleLoop {cx cy r : Half} {c : Bool} (rest : List Micro) (hr : operand r ≤ 16383) (fuel : Nat) :
    ∀ {s : State} {t : CircleTuple}, HoldsCircle cx cy r c s → s.dev.nop = 0 → HoldsTuple t s.eng → t.Inv (operand r) →
    operand r + 1 - t.y ≤ fuel →
    Plottable s.cfg ((circleTuples fuel t).flatMap fun t => octantPoints (operand cx) (operand cy) t.x t.y) →
    ∃ u, Goes s (.circleLoop :: rest) u rest
      ∧ Plots c circleRegs s ((circleTuples fuel t).flatMap fun t => octantPoints (operand cx) (operand cy) t.x t.y) u := by
  induction fuel with
  | zero =>
    intro s t hc h0 ht hi hf hp
    have := hi.xHigh
    exact ⟨s, Goes.circleExit rest ht (by omega), .nil⟩
  | succ fuel ih =>
    intro s t hc h0 ht hi hf hp
    by_cases hge : t.x ≥ t.y
    · rw [circleTuples, if_pos hge, List.flatMap_cons] at hp ⊢
      have a1 := Goes.circlePass rest hc ht hge
      obtain ⟨w, a2, p2, k2⟩ := Goes.pixels (c := c) (regs := circleRegs) (octantPoints (operand cx) (operand cy) t.x t.y)
        (.circleStep :: .circleLoop :: rest) h0 (fun q hq => hp q (List.mem_append_left _ hq))
      have hw : HoldsTuple t w.eng := ht.of_regs k2
      have a3 := Goes.circleUpdate (.circleLoop :: rest) hw hi hr
      have p3 := plots_circleStep p2 hw hi hr
      have f3 := p3.frame h0
      obtain ⟨u, a4, p4⟩ := ih (s := w.setEng w.eng.circleStep) (t := t.next) (hc.of_frame f3) (by rw [f3.nop]; exact h0) (holds_next hw hi hr)
        (CircleTuple.inv_next hi (by omega))
        (by
          have : t.next.y = t.y + 1 := by unfold CircleTuple.next; split <;> rfl
          omega)
        (by rw [f3.cfg]; exact fun q hq => hp q (List.mem_append_right _ hq))
      exact ⟨u, (a1.trans a2).trans (a3.trans a4), p3.trans p4⟩
    · rw [circleTuples, if_neg hge] at hp ⊢
      exact ⟨s, Goes.circleExit rest ht hge, .nil⟩

theorem circleStart_setRegs (e : Engine) :
    e.circleStart = e.setRegs [(CIRX, operand e.c), (CIRY, 0), (XCH, 1 - 2 * operand e.c), (YCH, 1), (RERR, 0)] := rfl

/-- The whole of CIRC (R280): from its first step to its end, the points in order. -/
theorem Goes.circle {cx cy r : Half} {c : Bool} {s : State} (rest : List Micro) (hc : HoldsCircle cx cy r c s) (h0 : s.dev.nop = 0)
    (h1 : 0 ≤ operand r) (hr : operand r ≤ 16383) (hp : Plottable s.cfg (circlePoints (operand cx) (operand cy) (operand r))) :
    ∃ u, Goes s ([.circleStart, .circleLoop] ++ rest) u rest
      ∧ Plots c circleRegs s (circlePoints (operand cx) (operand cy) (operand r)) u := by
  have a1 : Goes s ([.circleStart, .circleLoop] ++ rest) (s.setEng s.eng.circleStart) (.circleLoop :: rest) := by
    rw [circleStart_setRegs]
    rw [List.cons_append, List.singleton_append]
    refine Goes.setRegs _ fun s' ha => ?_
    show Host.Outcome.next (circleStartStep _ (s'.at _)) = _
    have e : (s'.at (.circleStart :: .circleLoop :: rest)).eng.c = s.eng.c := by rw [State.at_eng, ← ha.c]
    unfold circleStartStep
    rw [circleStart_setRegs, e]
  have p1 := plots_circleStart (c := c) s
  have f1 := p1.frame h0
  have hs : HoldsTuple (CircleTuple.start (operand r)) s.eng.circleStart := by
    have := holds_start (e := s.eng) (by rw [hc.2.2.1]; exact h1) (by rw [hc.2.2.1]; exact hr)
    rwa [hc.2.2.1] at this
  obtain ⟨u, a2, p2⟩ := Goes.circleLoop (c := c) rest hr (operand r + 1).toNat (hc.of_frame f1) (f1.nop.trans h0) hs (CircleTuple.inv_start h1)
    (by simp only [CircleTuple.start]; omega) (by rw [f1.cfg]; exact hp)
  exact ⟨u, a1.trans a2, p1.trans p2⟩

end Sys2Proof.Machine
end

