-- ==== Sys2Proof/Laws/Fills.lean ====
section
/-! SUPPORT. Runs of write-and-increment on a responsive device: `Fill` and the eight bytes of a glyph (43_pixel_memory.md R242, R246), and the
storing of a list of bytes at rising addresses. -/

namespace Sys2Proof.Machine

/-! ## Bytes at rising addresses -/

/-- A list of bytes stored from an address up. -/
def Memory.storeAll (m : Memory) (a : Nat) : List Byte → Memory
  | [] => m
  | v :: vs => Memory.storeAll (Memory.store m a v) (a + 1) vs

theorem Memory.byte_storeAll (vs : List Byte) : ∀ (m : Memory) (g a b : Nat),
    Memory.byte (Memory.storeAll m a vs) g b = if a ≤ b then vs.getD (b - a) (Memory.byte m g b) else Memory.byte m g b := by
  induction vs with
  | nil => intro m g a b; simp [Memory.storeAll]
  | cons v vs ih =>
    intro m g a b
    rw [Memory.storeAll, ih, Memory.byte_store]
    by_cases h : a ≤ b
    · by_cases h' : b = a
      · subst h'; simp
      · rw [if_pos (by omega), if_pos h, if_neg h', show b - a = (b - (a + 1)) + 1 by omega]; simp
    · rw [if_neg (by omega), if_neg h, if_neg (by omega)]

/-! ## One byte -/

/-- `s` after a byte was sent with write-and-increment and counted (R242, R246). -/
def State.stored (s : State) (v : Byte) : State :=
  { s with
    eng := s.eng.setReg CNT (s.eng.reg CNT + 1)
    dev := { s.dev with
      ap := s.dev.ap + 1, d1 := v, nop := 0, rdv := false, rdy := .busy, mem := Memory.store s.dev.mem s.dev.ap.toNat v }
    bus := s.bus.afterWrite true s.cfg.cmd.dataWriteInc
    trace := [.commandWrite s.cfg.cmd.dataWriteInc, .dataWrite v] ++ s.trace }

theorem Goes.stored {s : State} {v : Source} (m : Micro) (rest : List Micro) (h0 : s.dev.nop = 0) (hp : s.dev.ap.toNat < s.cfg.ramSize) :
    Goes s (Machine.send1 v s.cfg.cmd.dataWriteInc ++ [.bumpCount, m] ++ rest) (s.stored (v.value s.eng)) (m :: rest) := by
  refine Goes.intro fun _ hok _ _ => ?_
  have hk := decodeCommand_exact (Config.commands_of_ok hok)
  have h1 := Goes.send1 (s := s) (v := v) (k := s.cfg.cmd.dataWriteInc) (c := .dataWriteInc) ([.bumpCount, m] ++ rest) h0
    hk.2.2.2.2.2.2.2.1 rfl hp
  rw [← List.append_assoc] at h1
  refine (h1.trans (Goes.bumpCount _ _)).congr ?_
  exact Alike.refl _

/-! ## Fill -/

/-- `s` after `n` zero bytes (R242). -/
def State.filled (s : State) : Nat → State
  | 0 => s
  | n + 1 => (s.stored 0).filled n

/-- What a run of write-and-increment leaves alone. -/
structure RunFrame (s w : State) : Prop where
  cfg : w.cfg = s.cfg
  host : w.host = s.host
  free : w.free = s.free
  responses : w.responses = s.responses
  nop : w.dev.nop = 0
  eng : ∃ v, w.eng = { s.eng with x := v }
  x : ∀ j : Fin 16, j ≠ CNT → w.eng.x[j] = s.eng.x[j]

theorem RunFrame.refl {s : State} (h0 : s.dev.nop = 0) : RunFrame s s :=
  ⟨rfl, rfl, rfl, rfl, h0, ⟨_, rfl⟩, fun _ _ => rfl⟩

theorem RunFrame.stored {s w : State} (h : RunFrame s w) (v : Byte) : RunFrame s (w.stored v) := by
  obtain ⟨h1, h2, h3, h4, h5, ⟨x, h6⟩, h7⟩ := h
  refine ⟨h1, h2, h3, h4, rfl, ⟨x.set CNT (BitVec.ofInt 32 (w.eng.reg CNT + 1)), ?_⟩, fun j hj => ?_⟩
  · show w.eng.setReg CNT _ = _
    simp only [Engine.setReg, h6]
  · rw [← h7 j hj]
    exact x_setReg_other _ _ (Ne.symm hj)

theorem stored_count (s : State) (v : Byte) {n : Nat} (hn : s.eng.reg CNT = n) (hs : n < 1000000) : (s.stored v).eng.reg CNT = ((n + 1 : Nat) : Int) := by
  show (s.eng.setReg CNT (s.eng.reg CNT + 1)).reg CNT = _
  rw [reg_setReg_self _ _ _ (by omega) (by omega), hn]
  push_cast; rfl

/-- The loop of `Fill` (R242): `k` bytes are left to write. -/
theorem Goes.fillLoop {N : Nat} (rest : List Micro) (hN : N ≤ 65536) (k : Nat) : ∀ {s : State} {n : Nat}, s.dev.nop = 0 → s.eng.reg CNT = n →
    n + k = N → s.dev.ap.toNat + k ≤ s.cfg.ramSize → s.cfg.ramSize ≤ 65536 → Goes s (.fillLoop N :: rest) (s.filled k) rest := by
  induction k with
  | zero =>
    intro s n h0 hn hk hp hr
    refine Goes.branch fun s' ha => ?_
    show Host.Outcome.next (fillLoopStep N rest (s'.at (.fillLoop N :: rest))) = _
    have e : (s'.at (.fillLoop N :: rest)).eng.reg CNT = n := by rw [State.at_eng, reg_seq, ha.reg, hn]
    unfold fillLoopStep
    rw [e, if_neg (by omega), State.goto_at]
  | succ k ih =>
    intro s n h0 hn hk hp hr
    have a1 : Goes s (.fillLoop N :: rest) s (Machine.send1 (.lit 0) s.cfg.cmd.dataWriteInc ++ [.bumpCount, .fillLoop N] ++ rest) := by
      refine Goes.branch fun s' ha => ?_
      show Host.Outcome.next (fillLoopStep N rest (s'.at (.fillLoop N :: rest))) = _
      have e : (s'.at (.fillLoop N :: rest)).eng.reg CNT = n := by rw [State.at_eng, reg_seq, ha.reg, hn]
      unfold fillLoopStep
      rw [e, if_pos (by omega), State.goto_at, State.at_cfg, ha.cfg]
    have a2 := Goes.stored (s := s) (v := .lit 0) (.fillLoop N) rest h0 (by omega)
    have hap : k = 0 ∨ (s.dev.ap + 1).toNat = s.dev.ap.toNat + 1 := by
      rcases Nat.eq_zero_or_pos k with e | e
      · exact .inl e
      · right
        have : (1 : Half).toNat = 1 := rfl
        rw [BitVec.toNat_add, this]
        exact Nat.mod_eq_of_lt (by omega)
    rcases Nat.eq_zero_or_pos k with e | e
    · subst e
      -- the last byte: the loop ends at the next test
      refine (a1.trans a2).trans ?_
      refine Goes.branch fun s' ha => ?_
      show Host.Outcome.next (fillLoopStep N rest (s'.at (.fillLoop N :: rest))) = _
      have e : (s'.at (.fillLoop N :: rest)).eng.reg CNT = ((n + 1 : Nat) : Int) := by
        rw [State.at_eng, reg_seq, ha.reg]; exact stored_count s _ hn (by omega)
      unfold fillLoopStep
      rw [e, if_neg (by omega), State.goto_at]
    · have a3 := ih (s := s.stored 0) (n := n + 1) rfl (stored_count s 0 hn (by omega)) (by omega)
        (by
          show (s.dev.ap + 1).toNat + k ≤ s.cfg.ramSize
          rcases hap with h | h <;> omega) hr
      exact (a1.trans a2).trans a3

theorem filled_facts (n : Nat) : ∀ (s : State), s.dev.nop = 0 → s.dev.ap.toNat + n ≤ 65536 →
    RunFrame s (s.filled n)
      ∧ (s.filled n).dev = (if n = 0 then s.dev else { s.dev with
          ap := s.dev.ap + BitVec.ofNat 16 n, d1 := 0, rdv := false, rdy := .busy
          mem := Memory.storeAll s.dev.mem s.dev.ap.toNat (List.replicate n 0) })
      ∧ (s.filled n).bus = (if n = 0 then s.bus else s.bus.afterWrite true s.cfg.cmd.dataWriteInc)
      ∧ (s.filled n).trace = (List.replicate n [Transaction.commandWrite s.cfg.cmd.dataWriteInc, .dataWrite 0]).flatten ++ s.trace := by
  induction n with
  | zero => intro s h0 _; exact ⟨.refl h0, rfl, rfl, rfl⟩
  | succ n ih =>
    intro s h0 hb
    rcases Nat.eq_zero_or_pos n with e | e
    · subst e
      refine ⟨(RunFrame.refl h0).stored 0, ?_, rfl, rfl⟩
      show ({ s.dev with ap := s.dev.ap + 1, d1 := 0, nop := 0, rdv := false, rdy := .busy
                         mem := Memory.store s.dev.mem s.dev.ap.toNat 0 } : Device) = _
      rw [← h0]
      rfl
    · have hap : (s.dev.ap + 1).toNat = s.dev.ap.toNat + 1 := by
        have : (1 : Half).toNat = 1 := rfl
        rw [BitVec.toNat_add, this]
        exact Nat.mod_eq_of_lt (by omega)
      obtain ⟨f, d, b, t⟩ := ih (s.stored 0) rfl (by show (s.dev.ap + 1).toNat + n ≤ 65536; omega)
      refine ⟨?_, ?_, ?_, ?_⟩
      · have f0 := (RunFrame.refl h0).stored 0
        obtain ⟨x1, g1⟩ := f.eng
        obtain ⟨x0, g0⟩ := f0.eng
        refine ⟨f.cfg, f.host, f.free, f.responses, f.nop, ⟨x1, ?_⟩, fun j hj => (f.x j hj).trans (f0.x j hj)⟩
        show ((s.stored 0).filled n).eng = _
        rw [g1, g0]
      · show ((s.stored 0).filled n).dev = _
        rw [d, if_neg (by omega), if_neg (by omega)]
        have e1 : (s.stored 0).dev.ap = s.dev.ap + 1 := rfl
        have e2 : (s.stored 0).dev.mem = Memory.store s.dev.mem s.dev.ap.toNat 0 := rfl
        rw [e1, e2, hap]
        have e3 : s.dev.ap + 1 + BitVec.ofNat 16 n = s.dev.ap + BitVec.ofNat 16 (n + 1) := by
          rw [BitVec.add_assoc]
          congr 1
          apply BitVec.eq_of_toNat_eq
          simp [Nat.add_comm]
        rw [e3]
        show ({ s.dev with ap := _, d1 := 0, nop := 0, rdv := false, rdy := .busy, mem := _ } : Device) = _
        rw [← h0]
        rfl
      · show ((s.stored 0).filled n).bus = _
        rw [b, if_neg (by omega), if_neg (by omega)]
        rfl
      · show ((s.stored 0).filled n).trace = _
        rw [t]
        show _ ++ ([.commandWrite s.cfg.cmd.dataWriteInc, .dataWrite 0] ++ s.trace) = _
        rw [← List.append_assoc]
        congr 1
        rw [List.replicate_succ', List.flatten_append]
        simp [State.stored]

/-- What `Fill(A, n)` leaves (R242), from its start. -/
structure Filled (s : State) (a : Half) (n : Nat) (w : State) : Prop where
  cfg : w.cfg = s.cfg
  host : w.host = s.host
  free : w.free = s.free
  responses : w.responses = s.responses
  eng : ∃ v, w.eng = { s.eng with x := v }
  x : ∀ j : Fin 16, j ≠ CNT → j ≠ ADDR → w.eng.x[j] = s.eng.x[j]
  dev : w.dev = { s.dev with
    ap := a + BitVec.ofNat 16 n, d1 := (if n = 0 then loByte a else 0), d2 := hiByte a, nop := 0, rdv := false, rdy := .busy
    mem := Memory.storeAll s.dev.mem a.toNat (List.replicate n 0) }
  bus : w.bus = (if n = 0 then s.bus.afterWrite true s.cfg.cmd.setAddressPointer else s.bus.afterWrite true s.cfg.cmd.dataWriteInc)
  trace : w.trace = (List.replicate n [Transaction.commandWrite s.cfg.cmd.dataWriteInc, .dataWrite 0]).flatten
    ++ ((send2Trace (loByte a) (hiByte a) s.cfg.cmd.setAddressPointer).reverse ++ s.trace)

/-- `Fill(A, n)` (R242). -/
theorem Goes.fill {s : State} (a : Half) (n : Nat) (rest : List Micro) (h0 : s.dev.nop = 0) (hb : a.toNat + n ≤ s.cfg.ramSize)
    (hr : s.cfg.ramSize ≤ 65536) : ∃ w, Goes s (Machine.fill a n ++ rest) w rest ∧ Filled s a n w := by
  let s1 := s.pointed a
  let s2 := s1.setEng (s1.eng.setReg CNT 0)
  have a1 := Goes.setAP (s := s) a (.clearCount :: .fillLoop n :: rest) h0
  have a2 := Goes.clearCount s1 (.fillLoop n :: rest)
  have a3 := Goes.fillLoop (N := n) rest (by omega) n (s := s2) (n := 0) rfl
    (by show (s1.eng.setReg CNT 0).reg CNT = _; rw [reg_setReg_self _ _ _ (by omega) (by omega)]; rfl) (by omega) hb hr
  obtain ⟨f, d, b, t⟩ := filled_facts n s2 rfl (by show a.toNat + n ≤ 65536; omega)
  refine ⟨s2.filled n, (a1.trans a2).trans a3, ⟨f.cfg, f.host, f.free, f.responses, ?_, ?_, ?_, ?_, t⟩⟩
  · obtain ⟨x, h⟩ := f.eng
    exact ⟨x, by rw [h]; rfl⟩
  · intro j h1 h2
    rw [f.x j h1]
    show ((s.eng.setReg ADDR a.toNat).setReg CNT 0).x[j] = _
    rw [x_setReg_other _ _ (Ne.symm h1), x_setReg_other _ _ (Ne.symm h2)]
  · rw [d]
    by_cases hn : n = 0
    · subst hn
      rw [if_pos rfl, if_pos rfl]
      show ({ s.dev with ap := a, d1 := loByte a, d2 := hiByte a, nop := 0, rdv := false, rdy := .busy } : Device) = _
      have : a + BitVec.ofNat 16 0 = a := by simp
      rw [this]
      rfl
    · rw [if_neg hn, if_neg hn]
      rfl
  · rw [b]
    by_cases hn : n = 0
    · subst hn; rfl
    · rw [if_neg hn, if_neg hn]; rfl

/-! ## The bytes of a glyph (R246) -/

/-- `s` after some bytes. -/
def State.wrote (s : State) : List Byte → State
  | [] => s
  | v :: vs => (s.stored v).wrote vs

theorem Goes.glyphLoop (rest : List Micro) (k : Nat) : ∀ {s : State} {n : Nat}, s.dev.nop = 0 → s.eng.reg CNT = n → n + k = 8 →
    s.dev.ap.toNat + k ≤ s.cfg.ramSize → s.cfg.ramSize ≤ 65536 →
    Goes s (.glyphLoop :: rest) (s.wrote ((List.range' n k).map fun i => s.eng.glyph.getD i 0)) rest := by
  induction k with
  | zero =>
    intro s n h0 hn hk hp hr
    refine Goes.branch fun s' ha => ?_
    show Host.Outcome.next (glyphLoopStep rest (s'.at (.glyphLoop :: rest))) = _
    have e : (s'.at (.glyphLoop :: rest)).eng.reg CNT = n := by rw [State.at_eng, reg_seq, ha.reg, hn]
    unfold glyphLoopStep
    rw [e, if_neg (by omega), State.goto_at]
  | succ k ih =>
    intro s n h0 hn hk hp hr
    have a1 : Goes s (.glyphLoop :: rest) s (Machine.send1 .glyph s.cfg.cmd.dataWriteInc ++ [.bumpCount, .glyphLoop] ++ rest) := by
      refine Goes.branch fun s' ha => ?_
      show Host.Outcome.next (glyphLoopStep rest (s'.at (.glyphLoop :: rest))) = _
      have e : (s'.at (.glyphLoop :: rest)).eng.reg CNT = n := by rw [State.at_eng, reg_seq, ha.reg, hn]
      unfold glyphLoopStep
      rw [e, if_pos (by omega), State.goto_at, State.at_cfg, ha.cfg]
    have a2 := Goes.stored (s := s) (v := .glyph) .glyphLoop rest h0 (by omega)
    have hv : Source.value .glyph s.eng = s.eng.glyph.getD n 0 := by
      show s.eng.glyph.getD (s.eng.reg CNT).toNat 0 = _
      rw [hn]; rfl
    rw [hv] at a2
    have hg : (s.stored (s.eng.glyph.getD n 0)).eng.glyph = s.eng.glyph := rfl
    have hap : k = 0 ∨ (s.dev.ap + 1).toNat = s.dev.ap.toNat + 1 := by
      rcases Nat.eq_zero_or_pos k with e | e
      · exact .inl e
      · right
        have : (1 : Half).toNat = 1 := rfl
        rw [BitVec.toNat_add, this]
        exact Nat.mod_eq_of_lt (by omega)
    rw [List.range'_succ, List.map_cons]
    rcases Nat.eq_zero_or_pos k with e | e
    · subst e
      refine (a1.trans a2).trans ?_
      refine Goes.branch fun s' ha => ?_
      show Host.Outcome.next (glyphLoopStep rest (s'.at (.glyphLoop :: rest))) = _
      have e : (s'.at (.glyphLoop :: rest)).eng.reg CNT = ((n + 1 : Nat) : Int) := by
        rw [State.at_eng, reg_seq, ha.reg]; exact stored_count s _ hn (by omega)
      unfold glyphLoopStep
      rw [e, if_neg (by omega), State.goto_at]
    · have a3 := ih (s := s.stored (s.eng.glyph.getD n 0)) (n := n + 1) rfl (stored_count s _ hn (by omega)) (by omega)
        (by
          show (s.dev.ap + 1).toNat + k ≤ s.cfg.ramSize
          rcases hap with h | h <;> omega) hr
      rw [hg] at a3
      exact (a1.trans a2).trans a3

theorem wrote_facts (vs : List Byte) : ∀ (s : State), s.dev.nop = 0 → s.dev.ap.toNat + vs.length ≤ 65536 →
    RunFrame s (s.wrote vs)
      ∧ (s.wrote vs).dev = (match vs.getLast? with
          | none => s.dev
          | some v => { s.dev with
              ap := s.dev.ap + BitVec.ofNat 16 vs.length, d1 := v, rdv := false, rdy := .busy
              mem := Memory.storeAll s.dev.mem s.dev.ap.toNat vs })
      ∧ (s.wrote vs).bus = (if vs = [] then s.bus else s.bus.afterWrite true s.cfg.cmd.dataWriteInc)
      ∧ (s.wrote vs).trace = (vs.flatMap fun v => [Transaction.dataWrite v, .commandWrite s.cfg.cmd.dataWriteInc]).reverse ++ s.trace := by
  induction vs with
  | nil => intro s h0 _; exact ⟨.refl h0, rfl, rfl, rfl⟩
  | cons v vs ih =>
    intro s h0 hb
    have f0 := (RunFrame.refl h0).stored v
    cases vs with
    | nil =>
      refine ⟨f0, ?_, rfl, rfl⟩
      show ({ s.dev with ap := s.dev.ap + 1, d1 := v, nop := 0, rdv := false, rdy := .busy
                         mem := Memory.store s.dev.mem s.dev.ap.toNat v } : Device) = _
      rw [← h0]
      rfl
    | cons v' vs =>
      have hap : (s.dev.ap + 1).toNat = s.dev.ap.toNat + 1 := by
        have : (1 : Half).toNat = 1 := rfl
        rw [BitVec.toNat_add, this]
        simp only [List.length_cons] at hb
        exact Nat.mod_eq_of_lt (by omega)
      obtain ⟨f, d, b, t⟩ := ih (s.stored v) rfl (by show (s.dev.ap + 1).toNat + _ ≤ 65536; simp only [List.length_cons] at hb ⊢; omega)
      refine ⟨?_, ?_, ?_, ?_⟩
      · obtain ⟨x1, g1⟩ := f.eng
        obtain ⟨x0, g0⟩ := f0.eng
        refine ⟨f.cfg, f.host, f.free, f.responses, f.nop, ⟨x1, ?_⟩, fun j hj => (f.x j hj).trans (f0.x j hj)⟩
        show ((s.stored v).wrote (v' :: vs)).eng = _
        rw [g1, g0]
      · show ((s.stored v).wrote (v' :: vs)).dev = _
        rw [d, List.getLast?_cons_cons]
        cases hl : (v' :: vs).getLast? with
        | none => simp at hl
        | some l =>
          simp only
          have e1 : (s.stored v).dev.ap = s.dev.ap + 1 := rfl
          have e2 : (s.stored v).dev.mem = Memory.store s.dev.mem s.dev.ap.toNat v := rfl
          rw [e1, e2, hap]
          have e3 : s.dev.ap + 1 + BitVec.ofNat 16 (v' :: vs).length = s.dev.ap + BitVec.ofNat 16 (v :: v' :: vs).length := by
            rw [BitVec.add_assoc]
            congr 1
            apply BitVec.eq_of_toNat_eq
            simp [Nat.add_comm]
          rw [e3]
          show ({ s.dev with ap := _, d1 := l, nop := 0, rdv := false, rdy := .busy, mem := _ } : Device) = _
          rw [← h0]
          rfl
      · show ((s.stored v).wrote (v' :: vs)).bus = _
        rw [b, if_neg (by simp), if_neg (by simp)]
        rfl
      · show ((s.stored v).wrote (v' :: vs)).trace = _
        rw [t]
        show _ ++ ([.commandWrite s.cfg.cmd.dataWriteInc, .dataWrite v] ++ s.trace) = _
        rw [← List.append_assoc]
        congr 1
        simp [State.stored]

end Sys2Proof.Machine
end

