-- ==== Sys2Proof/Laws/Lines.lean ====
section
/-! SUPPORT. The line rasterizer: the accumulator's bounds, the registers along the way, and the points its two loops plot (47_line.md R290,
R291). -/

namespace Sys2Proof.Machine

/-- LINE's registers (R290). -/
def lineRegs : List (Fin 16) := [CURX, CURY, DX, DY, TWODX, TWODY, XINC, YINC, ACC]

/-- The latch holds the operands of a line (R23, R290). -/
def HoldsLine (x1 y1 x2 y2 : Half) (c : Bool) (s : State) : Prop :=
  s.eng.a = x1 ∧ s.eng.b = y1 ∧ s.eng.c = x2 ∧ s.eng.d = y2 ∧ s.eng.color = c

theorem HoldsLine.of_frame {x1 y1 x2 y2 : Half} {c : Bool} {regs : List (Fin 16)} {s u : State} (f : DrawFrame regs s u)
    (hi : HoldsLine x1 y1 x2 y2 c s) : HoldsLine x1 y1 x2 y2 c u := by
  obtain ⟨h1, h2, h3, h4, h5⟩ := hi
  exact ⟨f.a.trans h1, f.b.trans h2, f.c.trans h3, f.d.trans h4, f.color.trans h5⟩

/-! ## The driving loop on integers -/

/-- What LINE's registers hold along one driving axis: the driving and the other coordinate, the accumulator (R290). -/
structure LinePoint where
  p   : Int
  q   : Int
  acc : Int

/-- One pass (R290). -/
def LinePoint.next (inc inc' d twod twod' : Int) (t : LinePoint) : LinePoint :=
  if t.acc + twod' > d then { p := t.p + inc, q := t.q + inc', acc := t.acc + twod' - twod }
  else { p := t.p + inc, q := t.q, acc := t.acc + twod' }

theorem lineTrail_succ (inc inc' d twod twod' : Int) (n : Nat) (t : LinePoint) :
    lineTrail inc inc' d twod twod' (n + 1) t.p t.q t.acc =
      ((t.next inc inc' d twod twod').p, (t.next inc inc' d twod twod').q)
        :: lineTrail inc inc' d twod twod' n (t.next inc inc' d twod twod').p (t.next inc inc' d twod twod').q
          (t.next inc inc' d twod twod').acc := by
  unfold LinePoint.next
  simp only [lineTrail]
  split <;> rfl

/-- The accumulator stays in `(-d, d]` (R291). -/
theorem LinePoint.acc_next {inc inc' d d' : Int} {t : LinePoint} (h1 : -d < t.acc) (h2 : t.acc ≤ d) (h3 : 0 ≤ d') (h4 : d' ≤ d) :
    -d < (t.next inc inc' d (2 * d) (2 * d')).acc ∧ (t.next inc inc' d (2 * d) (2 * d')).acc ≤ d := by
  unfold LinePoint.next
  split <;> simp only <;> omega

theorem sub_mul_le {d d' k : Int} (hd : 0 < d) (h1 : -d < 2 * d * (d' - k)) (h2 : 2 * d * (d' - k) ≤ d) : k = d' := by
  by_contra hne
  rcases lt_or_gt_of_ne hne with h | h
  · have : 2 * d * 1 ≤ 2 * d * (d' - k) := Int.mul_le_mul_of_nonneg_left (by omega) (by omega)
    omega
  · have : 2 * d * (d' - k) ≤ 2 * d * (-1) := Int.mul_le_mul_of_nonneg_left (by omega) (by omega)
    omega

/-- After `n` passes with `k` moves of the other coordinate (R291): where the trail stands. -/
theorem lineTrail_get {inc inc' d d' : Int} (h3 : 0 ≤ d') (h4 : d' ≤ d) (n : Nat) : ∀ (t : LinePoint), -d < t.acc → t.acc ≤ d →
    (lineTrail inc inc' d (2 * d) (2 * d') n t.p t.q t.acc).length = n ∧
    ∀ (m : Nat) (pt : Int × Int), (lineTrail inc inc' d (2 * d) (2 * d') n t.p t.q t.acc)[m]? = some pt →
      ∃ k : Int, 0 ≤ k ∧ pt.1 = t.p + inc * (m + 1) ∧ pt.2 = t.q + inc' * k
        ∧ -d < t.acc + 2 * d' * (m + 1) - 2 * d * k ∧ t.acc + 2 * d' * (m + 1) - 2 * d * k ≤ d := by
  induction n with
  | zero => intro t _ _; simp [lineTrail]
  | succ n ih =>
    intro t ha hb
    have hn := LinePoint.acc_next (inc := inc) (inc' := inc') ha hb h3 h4
    obtain ⟨i1, i2⟩ := ih (t.next inc inc' d (2 * d) (2 * d')) hn.1 hn.2
    rw [lineTrail_succ]
    refine ⟨by simp [i1], ?_⟩
    intro m pt hm
    have hstep : ∃ j : Int, 0 ≤ j ∧ (t.next inc inc' d (2 * d) (2 * d')).p = t.p + inc
        ∧ (t.next inc inc' d (2 * d) (2 * d')).q = t.q + inc' * j
        ∧ (t.next inc inc' d (2 * d) (2 * d')).acc = t.acc + 2 * d' - 2 * d * j := by
      unfold LinePoint.next
      split
      · exact ⟨1, by omega, rfl, by simp, by simp⟩
      · exact ⟨0, by omega, rfl, by simp, by simp⟩
    obtain ⟨j, j0, j1, j2, j3⟩ := hstep
    cases m with
    | zero =>
      simp only [List.getElem?_cons_zero, Option.some.injEq] at hm
      subst hm
      refine ⟨j, j0, by simp [j1], by simp [j2], ?_, ?_⟩
      · have := hn.1; rw [j3] at this; simpa using this
      · have := hn.2; rw [j3] at this; simpa using this
    | succ m =>
      simp only [List.getElem?_cons_succ] at hm
      obtain ⟨k, k0, k1, k2, k3, k4⟩ := i2 m pt hm
      refine ⟨k + j, by omega, ?_, ?_, ?_, ?_⟩
      · rw [k1, j1]; push_cast; ring
      · rw [k2, j2]; ring
      · rw [j3] at k3
        have e : t.acc + 2 * d' * ((m + 1 : Nat) + 1) - 2 * d * (k + j) = t.acc + 2 * d' - 2 * d * j + 2 * d' * (m + 1) - 2 * d * k := by
          push_cast; ring
        rw [e]; exact k3
      · rw [j3] at k4
        have e : t.acc + 2 * d' * ((m + 1 : Nat) + 1) - 2 * d * (k + j) = t.acc + 2 * d' - 2 * d * j + 2 * d' * (m + 1) - 2 * d * k := by
          push_cast; ring
        rw [e]; exact k4

/-! ## The x-driven loop -/

theorem color_setRegs (e : Engine) (l : List (Fin 16 × Int)) : (e.setRegs l).color = e.color := by
  obtain ⟨x, h⟩ := setRegs_with e l
  rw [show e.setRegs l = _ from h e.seq e.pcnt]
  rfl

/-- The registers of the x-driven loop hold a point; `inc`, `inc'` are the increments, `d`, `d'` the two deltas (R290). -/
structure HoldsX (inc inc' d d' : Int) (t : LinePoint) (e : Engine) : Prop where
  rp : e.reg CURX = t.p
  rq : e.reg CURY = t.q
  racc : e.reg ACC = t.acc
  rinc : e.reg XINC = inc
  rinc' : e.reg YINC = inc'
  rd : e.reg DX = d
  rtwod : e.reg TWODX = 2 * d
  rtwod' : e.reg TWODY = 2 * d'

theorem HoldsX.of_regs {inc inc' d d' : Int} {t : LinePoint} {e e' : Engine} (h : HoldsX inc inc' d d' t e)
    (hr : ∀ j, j ≠ ADDR → e'.reg j = e.reg j) : HoldsX inc inc' d d' t e' :=
  ⟨(hr _ (by decide)).trans h.rp, (hr _ (by decide)).trans h.rq, (hr _ (by decide)).trans h.racc, (hr _ (by decide)).trans h.rinc,
    (hr _ (by decide)).trans h.rinc', (hr _ (by decide)).trans h.rd, (hr _ (by decide)).trans h.rtwod, (hr _ (by decide)).trans h.rtwod'⟩

/-- The registers one pass writes (R290). -/
def LinePoint.writesX (inc inc' d d' : Int) (t : LinePoint) : List (Fin 16 × Int) :=
  if t.acc + 2 * d' > d then [(CURX, t.p + inc), (ACC, t.acc + 2 * d'), (CURY, t.q + inc'), (ACC, t.acc + 2 * d' - 2 * d)]
  else [(CURX, t.p + inc), (ACC, t.acc + 2 * d')]

theorem LinePoint.writesX_regs (inc inc' d d' : Int) (t : LinePoint) : ∀ p ∈ t.writesX inc inc' d d', p.1 ∈ lineRegs := by
  unfold LinePoint.writesX
  split <;> simp [lineRegs]

/-- The values are small enough for `s32` (R291, R372). -/
def LinePoint.Small (d d' : Int) (t : LinePoint) : Prop :=
  0 ≤ d' ∧ d' ≤ d ∧ d ≤ 32767 ∧ -d < t.acc ∧ t.acc ≤ d ∧ -1000000 ≤ t.p ∧ t.p ≤ 1000000 ∧ -1000000 ≤ t.q ∧ t.q ≤ 1000000

theorem advanceX_setRegs {inc inc' d d' : Int} {t : LinePoint} {e : Engine} (h : HoldsX inc inc' d d' t e) (hs : t.Small d d') :
    e.lineAdvanceX = e.setRegs (t.writesX inc inc' d d') := by
  obtain ⟨b1, b2, b3, b4, b5, b6, b7, b8, b9⟩ := hs
  unfold Engine.lineAdvanceX
  simp only [h.rp, h.rinc]
  rw [reg_setReg_other _ (i := CURX) (j := ACC) _ (by decide), reg_setReg_other _ (i := CURX) (j := TWODY) _ (by decide), h.racc, h.rtwod']
  rw [reg_setReg_self _ ACC _ (by omega) (by omega), reg_setReg_other _ (i := ACC) (j := DX) _ (by decide),
    reg_setReg_other _ (i := CURX) (j := DX) _ (by decide), h.rd]
  unfold LinePoint.writesX
  split
  · rw [reg_setReg_other _ (i := ACC) (j := CURY) _ (by decide), reg_setReg_other _ (i := CURX) (j := CURY) _ (by decide), h.rq,
      reg_setReg_other _ (i := ACC) (j := YINC) _ (by decide), reg_setReg_other _ (i := CURX) (j := YINC) _ (by decide), h.rinc',
      reg_setReg_other _ (i := CURY) (j := ACC) _ (by decide), reg_setReg_self _ ACC _ (by omega) (by omega),
      reg_setReg_other _ (i := CURY) (j := TWODX) _ (by decide), reg_setReg_other _ (i := ACC) (j := TWODX) _ (by decide),
      reg_setReg_other _ (i := CURX) (j := TWODX) _ (by decide), h.rtwod]
    rfl
  · rfl

theorem holdsX_next {inc inc' d d' : Int} {t : LinePoint} {e : Engine} (h : HoldsX inc inc' d d' t e) (hs : t.Small d d')
    (hi : inc = 1 ∨ inc = -1) (hi' : inc' = 1 ∨ inc' = -1) :
    HoldsX inc inc' d d' (t.next inc inc' d (2 * d) (2 * d')) e.lineAdvanceX := by
  rw [advanceX_setRegs h hs]
  obtain ⟨b1, b2, b3, b4, b5, b6, b7, b8, b9⟩ := hs
  obtain ⟨h1, h2, h3, h4, h5, h6, h7, h8⟩ := h
  unfold LinePoint.writesX LinePoint.next
  split <;> simp only [Engine.setRegs, List.foldl_cons, List.foldl_nil] <;> refine ⟨?_, ?_, ?_, ?_, ?_, ?_, ?_, ?_⟩ <;>
    repeat (first
      | rw [reg_setReg_self _ _ _ (by omega) (by omega)]
      | rw [reg_setReg_other _ _ (by decide)]
      | assumption)

/-- One pass of the x-driven loop up to its pixel (R290). -/
theorem Goes.lineStepX {x1 y1 x2 y2 : Half} {c : Bool} {inc inc' d d' : Int} {s : State} {t : LinePoint} (rest : List Micro)
    (hc : HoldsLine x1 y1 x2 y2 c s) (h : HoldsX inc inc' d d' t s.eng) (hs : t.Small d d') (hi : inc = 1 ∨ inc = -1)
    (hi' : inc' = 1 ∨ inc' = -1) :
    Goes s (.lineStepX :: rest) (s.setEng s.eng.lineAdvanceX)
      (.setPixel (t.next inc inc' d (2 * d) (2 * d')).p (t.next inc inc' d (2 * d) (2 * d')).q c :: .lineUntilX :: rest) := by
  rw [advanceX_setRegs h hs]
  refine Goes.setRegs _ fun s' ha => ?_
  show Host.Outcome.next (lineStepXStep rest (s'.at (.lineStepX :: rest))) = _
  have h' : HoldsX inc inc' d d' t (s'.at (.lineStepX :: rest)).eng := h.of_regs fun j _ => by rw [State.at_eng, reg_seq, ha.reg]
  have hn := holdsX_next h' hs hi hi'
  have hcol : (s'.at (.lineStepX :: rest)).eng.lineAdvanceX.color = c := by
    rw [advanceX_setRegs h' hs, color_setRegs, State.at_eng, color_seq, ha.color, hc.2.2.2.2]
  unfold lineStepXStep
  simp only [hn.rp, hn.rq, hcol]
  rw [← advanceX_setRegs h' hs]
  rfl

theorem Goes.lineUntilX {x1 y1 x2 y2 : Half} {c : Bool} {inc inc' d d' : Int} {s : State} {t : LinePoint} (rest : List Micro)
    (hc : HoldsLine x1 y1 x2 y2 c s) (h : HoldsX inc inc' d d' t s.eng) :
    Goes s (.lineUntilX :: rest) s (if t.p = operand x2 then rest else .lineStepX :: rest) := by
  refine Goes.branch fun s' ha => ?_
  show Host.Outcome.next (lineUntilXStep rest (s'.at (.lineUntilX :: rest))) = _
  have e1 : (s'.at (.lineUntilX :: rest)).eng.reg CURX = t.p := by rw [State.at_eng, reg_seq, ha.reg, h.rp]
  have e2 : (s'.at (.lineUntilX :: rest)).eng.c = x2 := by rw [State.at_eng]; exact ha.c.trans hc.2.2.1
  simp only [lineUntilXStep, e1, e2]
  split <;> simp only [State.goto_at]

/-- The x-driven loop: `n` passes to the end (R290, R291). -/
theorem Goes.lineLoopX {x1 y1 x2 y2 : Half} {c : Bool} {inc inc' d d' : Int} (rest : List Micro) (hi : inc = 1 ∨ inc = -1)
    (hi' : inc' = 1 ∨ inc' = -1) (n : Nat) : ∀ {s : State} {t : LinePoint}, HoldsLine x1 y1 x2 y2 c s → s.dev.nop = 0 →
    HoldsX inc inc' d d' t s.eng → t.Small d d' → 0 < n → operand x2 = t.p + inc * n →
    -900000 ≤ t.p - n ∧ t.p + n ≤ 900000 ∧ -900000 ≤ t.q - n ∧ t.q + n ≤ 900000 →
    Plottable s.cfg ((lineTrail inc inc' d (2 * d) (2 * d') n t.p t.q t.acc)) →
    ∃ u, Goes s (.lineStepX :: rest) u rest
      ∧ Plots c lineRegs s ((lineTrail inc inc' d (2 * d) (2 * d') n t.p t.q t.acc)) u := by
  induction n with
  | zero => intro s t _ _ _ _ h; omega
  | succ n ih =>
    intro s t hc h0 h hs _ he hb hp
    rw [lineTrail_succ] at hp ⊢
    have a1 := Goes.lineStepX rest hc h hs hi hi'
    have hn := holdsX_next h hs hi hi'
    have p1 : Plots c lineRegs s [] (s.setEng s.eng.lineAdvanceX) := by
      rw [advanceX_setRegs h hs]
      exact .regs _ (LinePoint.writesX_regs inc inc' d d' t) .nil
    have f1 := p1.frame h0
    let t' := t.next inc inc' d (2 * d) (2 * d')
    have hp' : t'.p = t.p + inc := by simp only [t', LinePoint.next]; split <;> rfl
    have hq' : t'.q = t.q ∨ t'.q = t.q + inc' := by simp only [t', LinePoint.next]; split <;> simp
    have ha' := LinePoint.acc_next (inc := inc) (inc' := inc') hs.2.2.2.1 hs.2.2.2.2.1 hs.1 hs.2.1
    obtain ⟨w, a2, p2, k2⟩ := Goes.pixels (c := c) (regs := lineRegs) [(t'.p, t'.q)] (.lineUntilX :: rest)
      (s := s.setEng s.eng.lineAdvanceX) (f1.nop.trans h0)
      (by rw [f1.cfg]; exact fun q hq => hp q (by simp only [List.mem_singleton] at hq; subst hq; exact List.mem_cons_self))
    have hw : HoldsX inc inc' d d' t' w.eng := hn.of_regs k2
    have p12 := p1.trans p2
    have f2 := p12.frame h0
    have a3 := Goes.lineUntilX rest (hc.of_frame f2) hw
    obtain ⟨s1, s2, s3, _, _, s6, s7, s8, s9⟩ := hs
    by_cases hz : n = 0
    · subst hz
      have : t'.p = operand x2 := by rw [hp', he]; push_cast; ring
      rw [if_pos this] at a3
      exact ⟨w, (a1.trans a2).trans a3, p12⟩
    · have hne : ¬ t'.p = operand x2 := by
        rw [hp', he]; push_cast
        rcases hi with e | e <;> subst e <;> omega
      rw [if_neg hne] at a3
      obtain ⟨u, a4, p4⟩ := ih (s := w) (t := t') (hc.of_frame f2) (f2.nop.trans h0) hw
        ⟨s1, s2, s3, ha'.1, ha'.2, by rcases hi with e | e <;> omega, by rcases hi with e | e <;> omega,
          by rcases hi' with e | e <;> rcases hq' with g | g <;> omega, by rcases hi' with e | e <;> rcases hq' with g | g <;> omega⟩
        (by omega) (by rw [hp', he]; push_cast; ring)
        ⟨by rcases hi with e | e <;> omega, by rcases hi with e | e <;> omega,
          by rcases hi' with e | e <;> rcases hq' with g | g <;> omega, by rcases hi' with e | e <;> rcases hq' with g | g <;> omega⟩
        (by rw [f2.cfg]; exact fun q hq => hp q (List.mem_cons_of_mem _ hq))
      exact ⟨u, (a1.trans a2).trans (a3.trans a4), p12.trans p4⟩

/-! ## The y-driven loop -/

/-- The registers of the y-driven loop hold a point; `inc`, `inc'` are the increments, `d`, `d'` the two deltas (R290). -/
structure HoldsY (inc inc' d d' : Int) (t : LinePoint) (e : Engine) : Prop where
  rp : e.reg CURY = t.p
  rq : e.reg CURX = t.q
  racc : e.reg ACC = t.acc
  rinc : e.reg YINC = inc
  rinc' : e.reg XINC = inc'
  rd : e.reg DY = d
  rtwod : e.reg TWODY = 2 * d
  rtwod' : e.reg TWODX = 2 * d'

theorem HoldsY.of_regs {inc inc' d d' : Int} {t : LinePoint} {e e' : Engine} (h : HoldsY inc inc' d d' t e)
    (hr : ∀ j, j ≠ ADDR → e'.reg j = e.reg j) : HoldsY inc inc' d d' t e' :=
  ⟨(hr _ (by decide)).trans h.rp, (hr _ (by decide)).trans h.rq, (hr _ (by decide)).trans h.racc, (hr _ (by decide)).trans h.rinc,
    (hr _ (by decide)).trans h.rinc', (hr _ (by decide)).trans h.rd, (hr _ (by decide)).trans h.rtwod, (hr _ (by decide)).trans h.rtwod'⟩

/-- The registers one pass writes (R290). -/
def LinePoint.writesY (inc inc' d d' : Int) (t : LinePoint) : List (Fin 16 × Int) :=
  if t.acc + 2 * d' > d then [(CURY, t.p + inc), (ACC, t.acc + 2 * d'), (CURX, t.q + inc'), (ACC, t.acc + 2 * d' - 2 * d)]
  else [(CURY, t.p + inc), (ACC, t.acc + 2 * d')]

theorem LinePoint.writesY_regs (inc inc' d d' : Int) (t : LinePoint) : ∀ p ∈ t.writesY inc inc' d d', p.1 ∈ lineRegs := by
  unfold LinePoint.writesY
  split <;> simp [lineRegs]

theorem advanceY_setRegs {inc inc' d d' : Int} {t : LinePoint} {e : Engine} (h : HoldsY inc inc' d d' t e) (hs : t.Small d d') :
    e.lineAdvanceY = e.setRegs (t.writesY inc inc' d d') := by
  obtain ⟨b1, b2, b3, b4, b5, b6, b7, b8, b9⟩ := hs
  unfold Engine.lineAdvanceY
  simp only [h.rp, h.rinc]
  rw [reg_setReg_other _ (i := CURY) (j := ACC) _ (by decide), reg_setReg_other _ (i := CURY) (j := TWODX) _ (by decide), h.racc, h.rtwod']
  rw [reg_setReg_self _ ACC _ (by omega) (by omega), reg_setReg_other _ (i := ACC) (j := DY) _ (by decide),
    reg_setReg_other _ (i := CURY) (j := DY) _ (by decide), h.rd]
  unfold LinePoint.writesY
  split
  · rw [reg_setReg_other _ (i := ACC) (j := CURX) _ (by decide), reg_setReg_other _ (i := CURY) (j := CURX) _ (by decide), h.rq,
      reg_setReg_other _ (i := ACC) (j := XINC) _ (by decide), reg_setReg_other _ (i := CURY) (j := XINC) _ (by decide), h.rinc',
      reg_setReg_other _ (i := CURX) (j := ACC) _ (by decide), reg_setReg_self _ ACC _ (by omega) (by omega),
      reg_setReg_other _ (i := CURX) (j := TWODY) _ (by decide), reg_setReg_other _ (i := ACC) (j := TWODY) _ (by decide),
      reg_setReg_other _ (i := CURY) (j := TWODY) _ (by decide), h.rtwod]
    rfl
  · rfl

theorem holdsY_next {inc inc' d d' : Int} {t : LinePoint} {e : Engine} (h : HoldsY inc inc' d d' t e) (hs : t.Small d d')
    (hi : inc = 1 ∨ inc = -1) (hi' : inc' = 1 ∨ inc' = -1) :
    HoldsY inc inc' d d' (t.next inc inc' d (2 * d) (2 * d')) e.lineAdvanceY := by
  rw [advanceY_setRegs h hs]
  obtain ⟨b1, b2, b3, b4, b5, b6, b7, b8, b9⟩ := hs
  obtain ⟨h1, h2, h3, h4, h5, h6, h7, h8⟩ := h
  unfold LinePoint.writesY LinePoint.next
  split <;> simp only [Engine.setRegs, List.foldl_cons, List.foldl_nil] <;> refine ⟨?_, ?_, ?_, ?_, ?_, ?_, ?_, ?_⟩ <;>
    repeat (first
      | rw [reg_setReg_self _ _ _ (by omega) (by omega)]
      | rw [reg_setReg_other _ _ (by decide)]
      | assumption)

/-- One pass of the y-driven loop up to its pixel (R290). -/
theorem Goes.lineStepY {x1 y1 x2 y2 : Half} {c : Bool} {inc inc' d d' : Int} {s : State} {t : LinePoint} (rest : List Micro)
    (hc : HoldsLine x1 y1 x2 y2 c s) (h : HoldsY inc inc' d d' t s.eng) (hs : t.Small d d') (hi : inc = 1 ∨ inc = -1)
    (hi' : inc' = 1 ∨ inc' = -1) :
    Goes s (.lineStepY :: rest) (s.setEng s.eng.lineAdvanceY)
      (.setPixel (t.next inc inc' d (2 * d) (2 * d')).q (t.next inc inc' d (2 * d) (2 * d')).p c :: .lineUntilY :: rest) := by
  rw [advanceY_setRegs h hs]
  refine Goes.setRegs _ fun s' ha => ?_
  show Host.Outcome.next (lineStepYStep rest (s'.at (.lineStepY :: rest))) = _
  have h' : HoldsY inc inc' d d' t (s'.at (.lineStepY :: rest)).eng := h.of_regs fun j _ => by rw [State.at_eng, reg_seq, ha.reg]
  have hn := holdsY_next h' hs hi hi'
  have hcol : (s'.at (.lineStepY :: rest)).eng.lineAdvanceY.color = c := by
    rw [advanceY_setRegs h' hs, color_setRegs, State.at_eng, color_seq, ha.color, hc.2.2.2.2]
  unfold lineStepYStep
  simp only [hn.rp, hn.rq, hcol]
  rw [← advanceY_setRegs h' hs]
  rfl

theorem Goes.lineUntilY {x1 y1 x2 y2 : Half} {c : Bool} {inc inc' d d' : Int} {s : State} {t : LinePoint} (rest : List Micro)
    (hc : HoldsLine x1 y1 x2 y2 c s) (h : HoldsY inc inc' d d' t s.eng) :
    Goes s (.lineUntilY :: rest) s (if t.p = operand y2 then rest else .lineStepY :: rest) := by
  refine Goes.branch fun s' ha => ?_
  show Host.Outcome.next (lineUntilYStep rest (s'.at (.lineUntilY :: rest))) = _
  have e1 : (s'.at (.lineUntilY :: rest)).eng.reg CURY = t.p := by rw [State.at_eng, reg_seq, ha.reg, h.rp]
  have e2 : (s'.at (.lineUntilY :: rest)).eng.d = y2 := by rw [State.at_eng]; exact ha.d.trans hc.2.2.2.1
  simp only [lineUntilYStep, e1, e2]
  split <;> simp only [State.goto_at]

/-- The y-driven loop: `n` passes to the end (R290, R291). -/
theorem Goes.lineLoopY {x1 y1 x2 y2 : Half} {c : Bool} {inc inc' d d' : Int} (rest : List Micro) (hi : inc = 1 ∨ inc = -1)
    (hi' : inc' = 1 ∨ inc' = -1) (n : Nat) : ∀ {s : State} {t : LinePoint}, HoldsLine x1 y1 x2 y2 c s → s.dev.nop = 0 →
    HoldsY inc inc' d d' t s.eng → t.Small d d' → 0 < n → operand y2 = t.p + inc * n →
    -900000 ≤ t.p - n ∧ t.p + n ≤ 900000 ∧ -900000 ≤ t.q - n ∧ t.q + n ≤ 900000 →
    Plottable s.cfg ((lineTrail inc inc' d (2 * d) (2 * d') n t.p t.q t.acc).map (fun p => (p.2, p.1))) →
    ∃ u, Goes s (.lineStepY :: rest) u rest
      ∧ Plots c lineRegs s ((lineTrail inc inc' d (2 * d) (2 * d') n t.p t.q t.acc).map (fun p => (p.2, p.1))) u := by
  induction n with
  | zero => intro s t _ _ _ _ h; omega
  | succ n ih =>
    intro s t hc h0 h hs _ he hb hp
    rw [lineTrail_succ, List.map_cons] at hp ⊢
    have a1 := Goes.lineStepY rest hc h hs hi hi'
    have hn := holdsY_next h hs hi hi'
    have p1 : Plots c lineRegs s [] (s.setEng s.eng.lineAdvanceY) := by
      rw [advanceY_setRegs h hs]
      exact .regs _ (LinePoint.writesY_regs inc inc' d d' t) .nil
    have f1 := p1.frame h0
    let t' := t.next inc inc' d (2 * d) (2 * d')
    have hp' : t'.p = t.p + inc := by simp only [t', LinePoint.next]; split <;> rfl
    have hq' : t'.q = t.q ∨ t'.q = t.q + inc' := by simp only [t', LinePoint.next]; split <;> simp
    have ha' := LinePoint.acc_next (inc := inc) (inc' := inc') hs.2.2.2.1 hs.2.2.2.2.1 hs.1 hs.2.1
    obtain ⟨w, a2, p2, k2⟩ := Goes.pixels (c := c) (regs := lineRegs) [(t'.q, t'.p)] (.lineUntilY :: rest)
      (s := s.setEng s.eng.lineAdvanceY) (f1.nop.trans h0)
      (by rw [f1.cfg]; exact fun q hq => hp q (by simp only [List.mem_singleton] at hq; subst hq; exact List.mem_cons_self))
    have hw : HoldsY inc inc' d d' t' w.eng := hn.of_regs k2
    have p12 := p1.trans p2
    have f2 := p12.frame h0
    have a3 := Goes.lineUntilY rest (hc.of_frame f2) hw
    obtain ⟨s1, s2, s3, _, _, s6, s7, s8, s9⟩ := hs
    by_cases hz : n = 0
    · subst hz
      have : t'.p = operand y2 := by rw [hp', he]; push_cast; ring
      rw [if_pos this] at a3
      exact ⟨w, (a1.trans a2).trans a3, p12⟩
    · have hne : ¬ t'.p = operand y2 := by
        rw [hp', he]; push_cast
        rcases hi with e | e <;> subst e <;> omega
      rw [if_neg hne] at a3
      obtain ⟨u, a4, p4⟩ := ih (s := w) (t := t') (hc.of_frame f2) (f2.nop.trans h0) hw
        ⟨s1, s2, s3, ha'.1, ha'.2, by rcases hi with e | e <;> omega, by rcases hi with e | e <;> omega,
          by rcases hi' with e | e <;> rcases hq' with g | g <;> omega, by rcases hi' with e | e <;> rcases hq' with g | g <;> omega⟩
        (by omega) (by rw [hp', he]; push_cast; ring)
        ⟨by rcases hi with e | e <;> omega, by rcases hi with e | e <;> omega,
          by rcases hi' with e | e <;> rcases hq' with g | g <;> omega, by rcases hi' with e | e <;> rcases hq' with g | g <;> omega⟩
        (by rw [f2.cfg]; exact fun q hq => hp q (List.mem_cons_of_mem _ hq))
      exact ⟨u, (a1.trans a2).trans (a3.trans a4), p12.trans p4⟩

/-! ## The whole line -/

/-- The registers LINE writes before its start pixel (R290). -/
def lineWrites (x1 y1 dx dy : Int) : List (Fin 16 × Int) :=
  [(DX, dx), (DY, dy), (TWODX, dx + dx), (TWODY, dy + dy), (CURX, x1), (CURY, y1), (XINC, 1), (YINC, 1)]
    ++ (if dx < 0 then [(XINC, -1), (DX, -dx), (TWODX, -(dx + dx))] else [])
    ++ (if dy < 0 then [(YINC, -1), (DY, -dy), (TWODY, -(dy + dy))] else [])

theorem lineStart_setRegs (e : Engine) :
    e.lineStart = e.setRegs (lineWrites (operand e.a) (operand e.b) (operand e.c - operand e.a) (operand e.d - operand e.b)) := by
  unfold Engine.lineStart lineWrites
  simp only
  split <;> split <;> rfl

/-- What the registers hold before the start pixel (R290). -/
structure HoldsDeltas (x1 y1 dx dy : Int) (e : Engine) : Prop where
  rx : e.reg CURX = x1
  ry : e.reg CURY = y1
  rdx : e.reg DX = dx.natAbs
  rdy : e.reg DY = dy.natAbs
  rtwodx : e.reg TWODX = 2 * dx.natAbs
  rtwody : e.reg TWODY = 2 * dy.natAbs
  rxinc : e.reg XINC = lineSign dx
  ryinc : e.reg YINC = lineSign dy

theorem HoldsDeltas.of_regs {x1 y1 dx dy : Int} {e e' : Engine} (h : HoldsDeltas x1 y1 dx dy e) (hr : ∀ j, j ≠ ADDR → e'.reg j = e.reg j) :
    HoldsDeltas x1 y1 dx dy e' :=
  ⟨(hr _ (by decide)).trans h.rx, (hr _ (by decide)).trans h.ry, (hr _ (by decide)).trans h.rdx, (hr _ (by decide)).trans h.rdy,
    (hr _ (by decide)).trans h.rtwodx, (hr _ (by decide)).trans h.rtwody, (hr _ (by decide)).trans h.rxinc, (hr _ (by decide)).trans h.ryinc⟩

theorem lineWrites_regs (x1 y1 dx dy : Int) : ∀ p ∈ lineWrites x1 y1 dx dy, p.1 ∈ lineRegs := by
  unfold lineWrites
  split <;> split <;> simp [lineRegs]

theorem holds_lineWrites {e : Engine} {x1 y1 dx dy : Int} (h1 : -40000 ≤ x1) (h2 : x1 ≤ 40000) (h3 : -40000 ≤ y1) (h4 : y1 ≤ 40000)
    (h5 : -70000 ≤ dx) (h6 : dx ≤ 70000) (h7 : -70000 ≤ dy) (h8 : dy ≤ 70000) :
    HoldsDeltas x1 y1 dx dy (e.setRegs (lineWrites x1 y1 dx dy)) := by
  unfold lineWrites
  split <;> split <;>
    simp only [Engine.setRegs, List.cons_append, List.nil_append, List.append_nil, List.foldl_cons, List.foldl_nil] <;>
    refine ⟨?_, ?_, ?_, ?_, ?_, ?_, ?_, ?_⟩ <;>
    repeat (first
      | rw [reg_setReg_self _ _ _ (by omega) (by omega)]
      | rw [reg_setReg_other _ _ (by decide)]
      | omega
      | (simp only [lineSign]; split <;> omega))

/-- `lineBranch` when there is more than one point: the accumulator is cleared and the axis chosen (R290). -/
theorem Goes.lineBranch {s : State} {x1 y1 dx dy : Int} (rest : List Micro) (h : HoldsDeltas x1 y1 dx dy s.eng) (hne : dx ≠ 0 ∨ dy ≠ 0) :
    Goes s (.lineBranch :: rest) (s.setEng (s.eng.setReg ACC 0))
      ((if dy.natAbs ≤ dx.natAbs then .lineStepX else .lineStepY) :: rest) := by
  refine Goes.engine (fun e => e.setReg ACC 0) (fun s' ha => ?_) (fun _ _ => rfl) (fun _ => rfl)
  show Host.Outcome.next (lineBranchStep rest (s'.at (.lineBranch :: rest))) = _
  have h' : HoldsDeltas x1 y1 dx dy (s'.at (.lineBranch :: rest)).eng := h.of_regs fun j _ => by rw [State.at_eng, reg_seq, ha.reg]
  unfold lineBranchStep
  rw [h'.rdx, h'.rdy, if_pos (by omega)]
  by_cases hle : dy.natAbs ≤ dx.natAbs
  · rw [if_pos hle, if_pos (by omega)]; rfl
  · rw [if_neg hle, if_neg (by omega)]; rfl

theorem Goes.lineSingle {s : State} {x1 y1 : Int} (rest : List Micro) (h : HoldsDeltas x1 y1 0 0 s.eng) :
    Goes s (.lineBranch :: rest) s rest := by
  refine Goes.branch fun s' ha => ?_
  show Host.Outcome.next (lineBranchStep rest (s'.at (.lineBranch :: rest))) = _
  have h' : HoldsDeltas x1 y1 0 0 (s'.at (.lineBranch :: rest)).eng := h.of_regs fun j _ => by rw [State.at_eng, reg_seq, ha.reg]
  unfold lineBranchStep
  rw [h'.rdx, h'.rdy, if_neg (by simp)]
  simp only [State.goto_at]

/-- The whole of LINE (R290): from its first step to its end, the points in order. -/
theorem Goes.line {x1 y1 x2 y2 : Half} {c : Bool} {s : State} (rest : List Micro) (hc : HoldsLine x1 y1 x2 y2 c s) (h0 : s.dev.nop = 0)
    (hd : (operand x2 - operand x1).natAbs ≤ 32767 ∧ (operand y2 - operand y1).natAbs ≤ 32767)
    (hp : Plottable s.cfg (linePoints (operand x1) (operand y1) (operand x2) (operand y2))) :
    ∃ u, Goes s ([.lineStart] ++ rest) u rest
      ∧ Plots c lineRegs s (linePoints (operand x1) (operand y1) (operand x2) (operand y2)) u := by
  have b1 : -32768 ≤ operand x1 ∧ operand x1 < 32768 := ⟨BitVec.le_toInt x1, BitVec.toInt_lt⟩
  have b2 : -32768 ≤ operand y1 ∧ operand y1 < 32768 := ⟨BitVec.le_toInt y1, BitVec.toInt_lt⟩
  have b3 : -32768 ≤ operand x2 ∧ operand x2 < 32768 := ⟨BitVec.le_toInt x2, BitVec.toInt_lt⟩
  have b4 : -32768 ≤ operand y2 ∧ operand y2 < 32768 := ⟨BitVec.le_toInt y2, BitVec.toInt_lt⟩
  generalize hdx : operand x2 - operand x1 = dx at hd
  generalize hdy : operand y2 - operand y1 = dy at hd
  have hl : s.eng.lineStart = s.eng.setRegs (lineWrites (operand x1) (operand y1) dx dy) := by
    rw [lineStart_setRegs, hc.1, hc.2.1, hc.2.2.1, hc.2.2.2.1, hdx, hdy]
  -- the start pixel
  have a1 : Goes s ([.lineStart] ++ rest) (s.setEng s.eng.lineStart)
      (.setPixel (operand x1) (operand y1) c :: .lineBranch :: rest) := by
    rw [List.singleton_append, hl]
    refine Goes.setRegs _ fun s' ha => ?_
    show Host.Outcome.next (lineStartStep rest (s'.at (.lineStart :: rest))) = _
    have e : (s'.at (.lineStart :: rest)).eng.lineStart
        = (s'.at (.lineStart :: rest)).eng.setRegs (lineWrites (operand x1) (operand y1) dx dy) := by
      rw [lineStart_setRegs]
      simp only [State.at_eng, ha.a, ha.b, ha.c, ha.d, hc.1, hc.2.1, hc.2.2.1, hc.2.2.2.1, hdx, hdy]
    have e2 : (s'.at (.lineStart :: rest)).eng.color = c := by rw [State.at_eng, color_seq, ha.color, hc.2.2.2.2]
    have e3 : (s'.at (.lineStart :: rest)).eng.a = x1 := by rw [State.at_eng]; exact ha.a.trans hc.1
    have e4 : (s'.at (.lineStart :: rest)).eng.b = y1 := by rw [State.at_eng]; exact ha.b.trans hc.2.1
    unfold lineStartStep
    rw [e, e2, e3, e4]
    rfl
  have p1 : Plots c lineRegs s [] (s.setEng s.eng.lineStart) := by rw [hl]; exact .regs _ (lineWrites_regs _ _ _ _) .nil
  have f1 := p1.frame h0
  have hr1 : HoldsDeltas (operand x1) (operand y1) dx dy (s.setEng s.eng.lineStart).eng := by
    show HoldsDeltas _ _ _ _ s.eng.lineStart
    rw [hl]
    exact holds_lineWrites (by omega) (by omega) (by omega) (by omega) (by omega) (by omega) (by omega) (by omega)
  obtain ⟨w, a2, p2, k2⟩ := Goes.pixels (c := c) (regs := lineRegs) [(operand x1, operand y1)] (.lineBranch :: rest)
    (s := s.setEng s.eng.lineStart) (f1.nop.trans h0) (by
      rw [f1.cfg]
      intro q hq
      simp only [List.mem_singleton] at hq
      subst hq
      exact hp _ (by unfold linePoints; exact List.mem_cons_self))
  have hw := hr1.of_regs k2
  have p12 := p1.trans p2
  have f2 := p12.frame h0
  by_cases hz : dx = 0 ∧ dy = 0
  · obtain ⟨z1, z2⟩ := hz
    subst z1 z2
    refine ⟨w, (a1.trans a2).trans (Goes.lineSingle rest hw), ?_⟩
    have : linePoints (operand x1) (operand y1) (operand x2) (operand y2) = [(operand x1, operand y1)] := by
      unfold linePoints
      simp only [hdx, hdy]
      simp [lineTrail]
    rw [this]
    exact p12
  · have hne : dx ≠ 0 ∨ dy ≠ 0 := by omega
    have a3 := Goes.lineBranch rest hw hne
    let v : State := w.setEng (w.eng.setReg ACC 0)
    have p3 : Plots c lineRegs s [(operand x1, operand y1)] v := .reg ACC 0 (by simp [lineRegs]) p12
    have f3 := p3.frame h0
    have hsx : lineSign dx = 1 ∨ lineSign dx = -1 := by unfold lineSign; split <;> simp
    have hsy : lineSign dy = 1 ∨ lineSign dy = -1 := by unfold lineSign; split <;> simp
    have hv : HoldsDeltas (operand x1) (operand y1) dx dy v.eng ∧ v.eng.reg ACC = 0 := by
      refine ⟨⟨?_, ?_, ?_, ?_, ?_, ?_, ?_, ?_⟩, reg_setReg_self _ _ _ (by omega) (by omega)⟩ <;>
        simp only [v, State.setEng_eng] <;> rw [reg_setReg_other _ _ (by decide)]
      · exact hw.rx
      · exact hw.ry
      · exact hw.rdx
      · exact hw.rdy
      · exact hw.rtwodx
      · exact hw.rtwody
      · exact hw.rxinc
      · exact hw.ryinc
    by_cases hle : dy.natAbs ≤ dx.natAbs
    · rw [if_pos hle] at a3
      have e : linePoints (operand x1) (operand y1) (operand x2) (operand y2) = (operand x1, operand y1) ::
          lineTrail (lineSign dx) (lineSign dy) dx.natAbs (2 * dx.natAbs) (2 * dy.natAbs) dx.natAbs (operand x1) (operand y1) 0 := by
        unfold linePoints
        simp only [hdx, hdy, Int.toNat_natCast]
        rw [if_pos (by omega)]
      rw [e] at hp ⊢
      obtain ⟨u, a4, p4⟩ := Goes.lineLoopX (c := c) (inc := lineSign dx) (inc' := lineSign dy) (d := dx.natAbs) (d' := dy.natAbs) rest hsx hsy
        dx.natAbs (s := v) (t := ⟨operand x1, operand y1, 0⟩) (hc.of_frame f3) (f3.nop.trans h0)
        ⟨hv.1.rx, hv.1.ry, hv.2, hv.1.rxinc, hv.1.ryinc, hv.1.rdx, hv.1.rtwodx, hv.1.rtwody⟩
        ⟨by omega, by omega, by omega, by simp only; omega, by simp only; omega, by simp only; omega, by simp only; omega, by simp only; omega,
          by simp only; omega⟩ (by omega)
        (by simp only [lineSign]; split <;> omega) (by simp only; omega)
        (by rw [f3.cfg]; exact fun q hq => hp q (List.mem_cons_of_mem _ hq))
      exact ⟨u, (a1.trans a2).trans (a3.trans a4), p3.trans p4⟩
    · rw [if_neg hle] at a3
      have e : linePoints (operand x1) (operand y1) (operand x2) (operand y2) = (operand x1, operand y1) ::
          (lineTrail (lineSign dy) (lineSign dx) dy.natAbs (2 * dy.natAbs) (2 * dx.natAbs) dy.natAbs (operand y1) (operand x1) 0).map
            fun p => (p.2, p.1) := by
        unfold linePoints
        simp only [hdx, hdy, Int.toNat_natCast]
        rw [if_neg (by omega)]
      rw [e] at hp ⊢
      obtain ⟨u, a4, p4⟩ := Goes.lineLoopY (c := c) (inc := lineSign dy) (inc' := lineSign dx) (d := dy.natAbs) (d' := dx.natAbs) rest hsy hsx
        dy.natAbs (s := v) (t := ⟨operand y1, operand x1, 0⟩) (hc.of_frame f3) (f3.nop.trans h0)
        ⟨hv.1.ry, hv.1.rx, hv.2, hv.1.ryinc, hv.1.rxinc, hv.1.rdy, hv.1.rtwody, hv.1.rtwodx⟩
        ⟨by omega, by omega, by omega, by simp only; omega, by simp only; omega, by simp only; omega, by simp only; omega, by simp only; omega,
          by simp only; omega⟩ (by omega)
        (by simp only [lineSign]; split <;> omega) (by simp only; omega)
        (by rw [f3.cfg]; exact fun q hq => hp q (List.mem_cons_of_mem _ hq))
      exact ⟨u, (a1.trans a2).trans (a3.trans a4), p3.trans p4⟩

end Sys2Proof.Machine
end

