-- ==== Sys2Proof/Laws/Operations.lean ====
section
/-! SUPPORT. From the acceptance of an operation to its end: how the program logic applies to exec, and that the points of the shapes are admitted
when the range check passed (30_encoding.md R110; 45_rectangle.md R271; 46_circle.md R281; 47_line.md R291). -/

namespace Sys2Proof.Machine

/-! ## Entry and exit -/

/-- `s` with operation `i` latched and running (R21, R23). -/
def State.begun (s : State) (i : Instr) : State := (s.accepted (encode i)).setEng { s.eng.latch (encode i) with st := .run }

theorem startOperation_eq {i : Instr} {m : Micro} {rest : List Micro} (s : State) :
    startOperation i (m :: rest) s = .next ((s.begun i).goto (m :: rest)) := rfl

theorem live_begun {s : State} (i : Instr) (h : Serving s) : Live (s.begun i) := ⟨rfl, h⟩

/-- An operation whose steps end leaves the state `w` says, but for what its polls leave free. -/
theorem startOperation_ends {s w : State} {i : Instr} {m : Micro} {rest : List Micro} (hs : Serving s) (h : Goes (s.begun i) (m :: rest) w []) :
    ∃ t u, startOperation i (m :: rest) s = .next t ∧ Reaches t u ∧ Alike u w.finish ∧ Responsive u := by
  obtain ⟨u, h1, h2, h3⟩ := h.ends (live_begun i hs)
  exact ⟨_, u, startOperation_eq s, h1, h2, h3⟩

/-! ## What an ended operation leaves -/

/-- A run that ended in `w`, said as what became of the engine, the device, the bus lines and the trace (State.ended). -/
theorem Alike.ended {s u w : State} {i : Instr} {e : Engine} {d : Device} {b : Bus} {ts : List Transaction} (h : Alike u w.finish)
    (hc : w.cfg = s.cfg)
    (he : { w.eng with st := .idle, seq := [], pcnt := 0 } = { e.holding i with st := .idle, seq := [], pcnt := 0 })
    (hd : w.dev = d) (hb : w.bus = b) (hh : { w.host with rspValid := true } = { s.host with rspValid := true })
    (hf : { w.free with given := [], drawn := 0 } = { s.free with given := [], drawn := 0 })
    (ht : transfers w.trace = transfers (ts.reverse ++ s.trace)) (hr : w.responses = s.responses) :
    u.exceptPolls = (s.ended i e d b ts).exceptPolls := by
  refine h.trans ?_
  have hres : w.eng.res = e.res := by
    have := congrArg Engine.res he
    exact this
  have hbof : w.eng.bof = e.bof := by
    have := congrArg Engine.bof he
    exact this
  refine alike_iff.mpr ⟨hc, he, hd, hb, ?_, hf, ht, ?_⟩
  · exact congrArg (fun h : HostPort => { h with rspValid := true, rspCode := 0 }) hh
  · simp [State.ended, State.rspData, State.rspBof, hres, hbof, hr]

/-- A drawing operation that plotted at least one pixel leaves what DrawingFrame says. -/
theorem DrawingFrame.of_plots {s u w : State} {i : Instr} {c : Bool} {regs : List (Fin 16)} {pts : List (Int × Int)} (hc : CleanEntry s)
    (h : Alike u w.finish) (p : Plots c regs (s.begun i) pts w) (hne : pts ≠ []) : DrawingFrame s u i (regs ++ [ADDR]) := by
  have f := p.frame (s := s.begun i) hc.2.2.2
  obtain ⟨q, hq⟩ : ∃ q, pts.getLast? = some q := by
    cases h : pts.getLast? with
    | none => exact (hne (by simpa using h)).elim
    | some q => exact ⟨q, rfl⟩
  obtain ⟨l1, l2, l3, l4, l5⟩ := p.last (s := s.begun i) hc.2.2.2 q hq
  obtain ⟨x, t, b, he⟩ := f.eng
  obtain ⟨a, d1, d2, rdl, rdv, rdy, m, hd⟩ := f.dev
  have e := h.eng_eq
  have ed := h.dev
  simp only [State.finish_dev] at ed
  have hx : ∀ j : Fin 16, j ∉ regs ++ [ADDR] → u.eng.x[j] = s.eng.x[j] := by
    intro j hj
    simp only [List.mem_append, List.mem_cons, List.not_mem_nil, or_false, not_or] at hj
    rw [h.x]
    exact f.x j hj.2 hj.1
  have hr : u.responses = { code := 0, data := s.eng.res, bof := s.eng.bof.extractLsb' 0 3 } :: s.responses := by
    rw [h.responses, State.finish_responses, f.responses]
    simp only [State.rspData, State.rspBof, he]
    rfl
  have hm : u.free.memGen = s.free.memGen := by rw [h.memGen, State.finish_free, f.free]; rfl
  have hn : u.free.resets = s.free.resets := by rw [h.resets, State.finish_free, f.free]; rfl
  have hh : u.host = { s.host with rspValid := true, rspCode := 0 } := by rw [h.host, State.finish_host, f.host]; rfl
  unfold DrawingFrame
  rw [hr, hm, hn, hh]
  refine ⟨h.cfg.trans f.cfg, ?_, ?_, ?_, ?_, ?_, ?_, ?_, ?_, ?_, ?_, ?_, ?_, hx, ?_, ?_, ?_, ?_, ?_, ?_, ?_, ?_, ?_, ?_, ?_, ?_, h.bus.trans l5, rfl, rfl,
    rfl, rfl⟩
  all_goals first
    | (rw [e]; rfl)
    | (rw [e, State.finish_eng, he]; rfl)
    | (rw [ed, hd]; rfl)
    | (rw [ed]; first | exact l2 | exact l3 | exact l4)

/-- The pixels a drawing operation plotted, in the state its run ended in. -/
theorem Drawn.of_plots {s u w : State} {i : Instr} {c : Bool} {regs : List (Fin 16)} {pts : List (Int × Int)} (hc : CleanEntry s)
    (h : Alike u w.finish) (p : Plots c regs (s.begun i) pts w) (hp : Plottable s.cfg pts) : Drawn s u pts c := by
  obtain ⟨d1, d2⟩ := p.drawn (s := s.begun i) hc.2.2.2 hp
  have hm : ∀ a, u.memByte a = w.memByte a := by intro a; rw [State.memByte, h.dev, h.memGen]; rfl
  refine ⟨fun q hq => ?_, fun a b ha => ?_⟩
  · rw [← d1 q hq]
    unfold pixel
    rw [hm, h.cfg]
    rfl
  · rw [hm]
    exact d2 a b ha

/-! ## Descriptor fields of an encoding -/

theorem descriptorOf_fields (opc aux : Byte) (a b c d : Half) :
    (descriptorOf opc aux a b c d).opc = opc ∧ (descriptorOf opc aux a b c d).aux = aux ∧ (descriptorOf opc aux a b c d).a = a
      ∧ (descriptorOf opc aux a b c d).b = b ∧ (descriptorOf opc aux a b c d).c = c ∧ (descriptorOf opc aux a b c d).d = d := by
  refine ⟨?_, ?_, ?_, ?_, ?_, ?_⟩ <;> apply BitVec.eq_of_getLsbD_eq <;> intro i hi <;>
    simp only [descriptorOf, Descriptor.opc, Descriptor.aux, Descriptor.a, Descriptor.b, Descriptor.c, Descriptor.d,
      BitVec.getLsbD_extractLsb', BitVec.getLsbD_append] <;> interval_cases i <;> simp

@[simp] theorem descriptorOf_opc (opc aux : Byte) (a b c d : Half) : (descriptorOf opc aux a b c d).opc = opc :=
  (descriptorOf_fields opc aux a b c d).1
@[simp] theorem descriptorOf_aux (opc aux : Byte) (a b c d : Half) : (descriptorOf opc aux a b c d).aux = aux :=
  (descriptorOf_fields opc aux a b c d).2.1
@[simp] theorem descriptorOf_a (opc aux : Byte) (a b c d : Half) : (descriptorOf opc aux a b c d).a = a :=
  (descriptorOf_fields opc aux a b c d).2.2.1
@[simp] theorem descriptorOf_b (opc aux : Byte) (a b c d : Half) : (descriptorOf opc aux a b c d).b = b :=
  (descriptorOf_fields opc aux a b c d).2.2.2.1
@[simp] theorem descriptorOf_c (opc aux : Byte) (a b c d : Half) : (descriptorOf opc aux a b c d).c = c :=
  (descriptorOf_fields opc aux a b c d).2.2.2.2.1
@[simp] theorem descriptorOf_d (opc aux : Byte) (a b c d : Half) : (descriptorOf opc aux a b c d).d = d :=
  (descriptorOf_fields opc aux a b c d).2.2.2.2.2

@[simp] theorem colorField_bit (color : Bool) : (colorField color).getLsbD 0 = color := by cases color <;> rfl

theorem hiByte_append (x y : Byte) : hiByte (x ++ y) = x := by
  apply BitVec.eq_of_getLsbD_eq
  intro i hi
  simp only [hiByte, BitVec.getLsbD_extractLsb', BitVec.getLsbD_append, hi, decide_true, Bool.true_and]
  rw [if_neg (by omega)]
  congr 1
  omega

theorem loByte_append (x y : Byte) : loByte (x ++ y) = y := by
  apply BitVec.eq_of_getLsbD_eq
  intro i hi
  simp only [loByte, BitVec.getLsbD_extractLsb', BitVec.getLsbD_append, hi, decide_true, Bool.true_and]
  rw [if_pos (by omega)]
  congr 1
  omega

/-- The glyph bytes of a descriptor are the bytes of its four operand fields (R23, R108). -/
theorem descriptor_glyph (d : Descriptor) :
    d.glyph = [hiByte d.a, loByte d.a, hiByte d.b, loByte d.b, hiByte d.c, loByte d.c, hiByte d.d, loByte d.d] := by
  have h : ∀ n k : Nat, k + 8 ≤ 16 → (d.extractLsb' n 16).extractLsb' k 8 = d.extractLsb' (n + k) 8 := by
    intro n k hk
    apply BitVec.eq_of_getLsbD_eq
    intro i hi
    simp only [BitVec.getLsbD_extractLsb', hi, decide_true, Bool.true_and]
    rw [decide_eq_true (by omega), Bool.true_and, Nat.add_assoc]
  simp only [Descriptor.glyph, hiByte, loByte, Descriptor.a, Descriptor.b, Descriptor.c, Descriptor.d, h, Nat.le_refl, Nat.reduceAdd,
    Nat.reduceLeDiff, Nat.add_zero]

/-- The latch of DEFC holds its glyph (R246). -/
theorem latch_glyph (e : Engine) (slot : Byte) {glyph : List Byte} (h : glyph.length = 8) :
    (e.latch (encode (.defc slot glyph))).glyph = glyph := by
  match glyph, h with
  | [a, b, c, d, e', f, g, k], _ =>
    simp only [Engine.latch, Engine.glyph, encode, descriptorOf_a, descriptorOf_b, descriptorOf_c, descriptorOf_d, glyphField, hiByte_append,
      loByte_append]
    rfl

/-- The color bit of an encoding (R107). -/
theorem descriptorOf_color (o x : Byte) (a b c d : Half) : (descriptorOf o x a b c d).color = x.getLsbD 0 := by
  have h : (descriptorOf o x a b c d).color = ((descriptorOf o x a b c d).aux).getLsbD 0 := by
    simp only [Descriptor.color, Descriptor.aux, BitVec.getLsbD_extractLsb', Nat.add_zero, Nat.zero_lt_succ, decide_true, Bool.true_and]
  rw [h, descriptorOf_aux]

/-! ## The points of the shapes are admitted -/

theorem rect_admitted {g : Config} (h : g.ok = true) {x y w hh : Int} (hr : rectInRange g x y w hh = true) :
    1 ≤ w ∧ 1 ≤ hh ∧ ∀ p ∈ rectPoints x y w hh, inGraphic g p.1 p.2 = true := by
  simp only [rectInRange, Bool.and_eq_true, decide_eq_true_eq] at hr
  obtain ⟨⟨⟨h1, h2⟩, h3⟩, h4⟩ := hr
  refine ⟨h1, h2, ?_⟩
  intro p hp
  simp only [rectPoints, List.mem_append, List.mem_flatMap, List.mem_range, List.mem_cons, List.not_mem_nil, or_false] at hp
  rcases hp with ⟨n, hn, rfl | rfl⟩ | ⟨n, hn, rfl | rfl⟩ <;>
    exact inGraphic_between h h3 h4 (.inl ⟨by simp only; omega, by simp only; omega⟩) (.inl ⟨by simp only; omega, by simp only; omega⟩)

theorem circleTuples_bounds {r : Int} (fuel : Nat) : ∀ {t : CircleTuple}, t.Inv r → ∀ u ∈ circleTuples fuel t, 0 ≤ u.y ∧ u.y ≤ u.x ∧ u.x ≤ r := by
  induction fuel with
  | zero => intro t _ u hu; simp [circleTuples] at hu
  | succ fuel ih =>
    intro t hi u hu
    rw [circleTuples] at hu
    split at hu
    · rcases List.mem_cons.mp hu with rfl | hu
      · exact ⟨hi.yLow, by omega, hi.xHigh⟩
      · exact ih (CircleTuple.inv_next hi (by omega)) u hu
    · simp at hu

theorem circle_admitted {g : Config} (h : g.ok = true) {cx cy r : Int} (hr : circleInRange g cx cy r = true) :
    0 ≤ r ∧ r ≤ 16383 ∧ ∀ p ∈ circlePoints cx cy r, inGraphic g p.1 p.2 = true := by
  simp only [circleInRange, Bool.and_eq_true, decide_eq_true_eq] at hr
  obtain ⟨⟨h1, h2⟩, h3⟩ := hr
  have hb := Config.pixel_bounds h
  have g2 := inGraphic_iff.mp h2
  have g3 := inGraphic_iff.mp h3
  refine ⟨h1, by omega, ?_⟩
  intro p hp
  simp only [circlePoints, List.mem_flatMap] at hp
  obtain ⟨t, ht, hp⟩ := hp
  obtain ⟨b1, b2, b3⟩ := circleTuples_bounds _ (CircleTuple.inv_start h1) t ht
  simp only [octantPoints, List.mem_cons, List.not_mem_nil, or_false] at hp
  rcases hp with rfl | rfl | rfl | rfl | rfl | rfl | rfl | rfl <;>
    exact inGraphic_between h h2 h3 (.inl ⟨by simp only; omega, by simp only; omega⟩) (.inl ⟨by simp only; omega, by simp only; omega⟩)

/-- Every point of a line lies between its ends (R291). -/
theorem linePoints_between {x1 y1 x2 y2 : Int} : ∀ p ∈ linePoints x1 y1 x2 y2,
    ((x1 ≤ p.1 ∧ p.1 ≤ x2) ∨ (x2 ≤ p.1 ∧ p.1 ≤ x1)) ∧ ((y1 ≤ p.2 ∧ p.2 ≤ y2) ∨ (y2 ≤ p.2 ∧ p.2 ≤ y1)) := by
  have key : ∀ (a b u v : Int) (d d' : Nat), d = (u - a).natAbs → d' = (v - b).natAbs → d' ≤ d → 0 < d →
      ∀ p ∈ lineTrail (lineSign (u - a)) (lineSign (v - b)) d (2 * d) (2 * d') d a b 0,
        ((a ≤ p.1 ∧ p.1 ≤ u) ∨ (u ≤ p.1 ∧ p.1 ≤ a)) ∧ ((b ≤ p.2 ∧ p.2 ≤ v) ∨ (v ≤ p.2 ∧ p.2 ≤ b)) := by
    intro a b u v d d' hd hd' hle hpos p hp
    obtain ⟨l1, l2⟩ := lineTrail_get (inc := lineSign (u - a)) (inc' := lineSign (v - b)) (d := d) (d' := d') (by omega) (by omega) d
      ⟨a, b, 0⟩ (by simp only; omega) (by simp only; omega)
    obtain ⟨m, hm⟩ := List.mem_iff_getElem?.mp hp
    have hlt : m < d := by
      have := (List.getElem?_eq_some_iff.mp hm).1
      simp only at l1
      omega
    obtain ⟨k, k0, k1, k2, k3, k4⟩ := l2 m p hm
    simp only [zero_add] at k1 k2 k3 k4
    have hk : k ≤ d' := by
      by_contra hgt
      have h1 : 2 * (d : Int) * (d' + 1) ≤ 2 * d * k := Int.mul_le_mul_of_nonneg_left (by omega) (by omega)
      have h2 : 2 * (d' : Int) * (m + 1) ≤ 2 * d' * d := Int.mul_le_mul_of_nonneg_left (by omega) (by omega)
      have h3 : 2 * (d : Int) * (d' + 1) = 2 * d' * d + 2 * d := by ring
      omega
    have hs1 : lineSign (u - a) * (m + 1 : Int) = (if u - a < 0 then -((m : Int) + 1) else m + 1) := by
      unfold lineSign; split <;> ring
    have hs2 : lineSign (v - b) * k = (if v - b < 0 then -k else k) := by unfold lineSign; split <;> ring
    rw [k1, k2, hs1, hs2]
    constructor
    · split <;> omega
    · split <;> omega
  intro p hp
  unfold linePoints at hp
  simp only [List.mem_cons, Int.toNat_natCast] at hp
  rcases hp with rfl | hp
  · simp only; omega
  · split at hp
    · by_cases hz : (x2 - x1).natAbs = 0
      · rw [hz] at hp; simp [lineTrail] at hp
      · exact key x1 y1 x2 y2 _ _ rfl rfl (by omega) (by omega) p hp
    · simp only [List.mem_map] at hp
      obtain ⟨q, hq, rfl⟩ := hp
      have := key y1 x1 y2 x2 _ _ rfl rfl (by omega) (by omega) q hq
      exact ⟨this.2, this.1⟩

theorem line_admitted {g : Config} (h : g.ok = true) {x1 y1 x2 y2 : Int} (hr : lineInRange g x1 y1 x2 y2 = true) :
    ((x2 - x1).natAbs ≤ 32767 ∧ (y2 - y1).natAbs ≤ 32767) ∧ ∀ p ∈ linePoints x1 y1 x2 y2, inGraphic g p.1 p.2 = true := by
  simp only [lineInRange, Bool.and_eq_true] at hr
  obtain ⟨h1, h2⟩ := hr
  have hb := Config.pixel_bounds h
  have g1 := inGraphic_iff.mp h1
  have g2 := inGraphic_iff.mp h2
  refine ⟨by omega, fun p hp => ?_⟩
  obtain ⟨b1, b2⟩ := linePoints_between p hp
  exact inGraphic_between h h1 h2 b1 b2

/-! ## INIT -/

/-- `s` after step 1 of INIT (R156, R194). -/
def State.restarted (s : State) : State := s.resetDevice.setBus { s.bus with reset := .deasserted }

/-- The three steps of INIT's hardware reset (R156 step 1). -/
theorem init_reaches {s : State} {m : Micro} {rest : List Micro} (hr : s.host.rst = []) :
    Reaches ((s.begun .init).goto (.assertReset :: .settle :: .releaseReset :: m :: rest))
      (((s.begun .init).restarted).goto (m :: rest)) := by
  refine .head (t := ((s.begun .init).resetDevice.setBus { s.bus with reset := .asserted }).goto (.settle :: .releaseReset :: m :: rest)) ?_ <|
    .head (t := ((s.begun .init).resetDevice.setBus { s.bus with reset := .asserted }).goto (.releaseReset :: m :: rest)) ?_ <| .one ?_
  · rw [step_goto (s := s.begun .init) hr rfl]; rfl
  · rw [step_goto (s := (s.begun .init).resetDevice.setBus { s.bus with reset := .asserted }) hr rfl]; rfl
  · rw [step_goto (s := (s.begun .init).resetDevice.setBus { s.bus with reset := .asserted }) hr rfl]; rfl

end Sys2Proof.Machine
end

