-- ==== Sys2Proof/Laws/PerInstr.lean ====
section
/-! SUPPORT. The family EncodingFitsTable: the descriptor of every operation satisfies mask and match value of its row of the opcode map
(30_encoding.md R103, R104), one lemma per operation. -/

namespace Sys2Proof

/-! ## Descriptors field by field -/

theorem descriptorOf_and (o x o' x' : Byte) (a b c d a' b' c' d' : Half) :
    descriptorOf o x a b c d &&& descriptorOf o' x' a' b' c' d'
      = descriptorOf (o &&& o') (x &&& x') (a &&& a') (b &&& b') (c &&& c') (d &&& d') := by
  have h : (o ++ x ++ a ++ b ++ c ++ d) &&& (o' ++ x' ++ a' ++ b' ++ c' ++ d')
      = (o &&& o') ++ (x &&& x') ++ (a &&& a') ++ (b &&& b') ++ (c &&& c') ++ (d &&& d') := by
    simp only [BitVec.and_append]
  exact h

/-- A row's match value as a descriptor (R104). -/
theorem matchValue_eq (r : Row) : r.matchValue = descriptorOf r.opc 0 0 0 0 0 := by
  cases r with
  | mk o f b =>
    have h : (o ++ (0 : BitVec 72)).toNat = (o ++ (0 : Byte) ++ (0 : Half) ++ (0 : Half) ++ (0 : Half) ++ (0 : Half)).toNat := by
      simp only [BitVec.toNat_append]
      simp [Nat.shiftLeft_eq, Nat.mul_assoc]
    exact BitVec.eq_of_toNat_eq h

/-- The masks of R104, field by field: all ones where the format reserves the field. -/
theorem mask_N : Format.N.mask = descriptorOf 0xFF 0xFF 0xFFFF 0xFFFF 0xFFFF 0xFFFF := by decide
theorem mask_V : Format.V.mask = descriptorOf 0xFF 0 0xFFFF 0xFFFF 0xFFFF 0xFFFF := by decide
theorem mask_P : Format.P.mask = descriptorOf 0xFF 0xFF 0 0 0xFFFF 0xFFFF := by decide
theorem mask_PC : Format.PC.mask = descriptorOf 0xFF 0xFE 0 0 0xFFFF 0xFFFF := by decide
theorem mask_T : Format.T.mask = descriptorOf 0xFF 0xFE 0 0 0 0xFFFF := by decide
theorem mask_Q : Format.Q.mask = descriptorOf 0xFF 0xFE 0 0 0 0 := by decide
theorem mask_G : Format.G.mask = descriptorOf 0xFF 0 0 0 0 0 := by decide

theorem byte_and_ones (v : Byte) : v &&& 0xFF = v := by have := BitVec.and_allOnes (x := v); simpa using this
theorem byte_and_zero (v : Byte) : v &&& 0 = 0 := BitVec.and_zero
theorem half_and_ones (v : Half) : v &&& 0xFFFF = v := by have := BitVec.and_allOnes (x := v); simpa using this
theorem half_and_zero (v : Half) : v &&& 0 = 0 := BitVec.and_zero
theorem colorField_reserved (c : Bool) : colorField c &&& 0xFE = 0 := by cases c <;> decide

namespace Laws.EncodingFitsTable

/-- The descriptor of `i` is admitted by a row of the opcode map. -/
def Statement (i : Instr) : Prop := ∃ r ∈ opcodeMap, r.admits (encode i) = true

/-- A row admits what equals its match value under its mask. -/
theorem of_row {i : Instr} (r : Row) (hr : r ∈ opcodeMap) (h : encode i &&& r.format.mask = descriptorOf r.opc 0 0 0 0 0) : Statement i :=
  ⟨r, hr, by simp only [Row.admits, matchValue_eq, h, beq_self_eq_true]⟩

theorem wrc (v : Byte) : Statement (.wrc v) :=
  of_row ⟨0x01, .V, fun d => .wrc d.aux⟩ (by simp [opcodeMap]) (by
    simp only [encode, mask_V, descriptorOf_and, byte_and_ones, byte_and_zero, half_and_ones])

theorem wrd (v : Byte) : Statement (.wrd v) :=
  of_row ⟨0x02, .V, fun d => .wrd d.aux⟩ (by simp [opcodeMap]) (by
    simp only [encode, mask_V, descriptorOf_and, byte_and_ones, byte_and_zero, half_and_ones])

theorem rdd : Statement .rdd := of_row ⟨0x03, .N, fun _ => .rdd⟩ (by simp [opcodeMap]) (by decide)

theorem rds : Statement .rds := of_row ⟨0x04, .N, fun _ => .rds⟩ (by simp [opcodeMap]) (by decide)

theorem init : Statement .init := of_row ⟨0x05, .N, fun _ => .init⟩ (by simp [opcodeMap]) (by decide)

theorem close : Statement .close := of_row ⟨0x06, .N, fun _ => .close⟩ (by simp [opcodeMap]) (by decide)

theorem txa (x y : Half) : Statement (.txa x y) :=
  of_row ⟨0x10, .P, fun d => .txa d.a d.b⟩ (by simp [opcodeMap]) (by
    simp only [encode, mask_P, descriptorOf_and, byte_and_ones, half_and_zero, half_and_ones])

theorem gra (x y : Half) : Statement (.gra x y) :=
  of_row ⟨0x11, .P, fun d => .gra d.a d.b⟩ (by simp [opcodeMap]) (by
    simp only [encode, mask_P, descriptorOf_and, byte_and_ones, half_and_zero, half_and_ones])

theorem cga (slot : Byte) : Statement (.cga slot) :=
  of_row ⟨0x12, .V, fun d => .cga d.aux⟩ (by simp [opcodeMap]) (by
    simp only [encode, mask_V, descriptorOf_and, byte_and_ones, byte_and_zero, half_and_ones])

theorem sap (x y : Half) : Statement (.sap x y) :=
  of_row ⟨0x13, .P, fun d => .sap d.a d.b⟩ (by simp [opcodeMap]) (by
    simp only [encode, mask_P, descriptorOf_and, byte_and_ones, half_and_zero, half_and_ones])

theorem scp (x y : Half) : Statement (.scp x y) :=
  of_row ⟨0x14, .P, fun d => .scp d.a d.b⟩ (by simp [opcodeMap]) (by
    simp only [encode, mask_P, descriptorOf_and, byte_and_ones, half_and_zero, half_and_ones])

theorem sor (v : Byte) : Statement (.sor v) :=
  of_row ⟨0x15, .V, fun d => .sor d.aux⟩ (by simp [opcodeMap]) (by
    simp only [encode, mask_V, descriptorOf_and, byte_and_ones, byte_and_zero, half_and_ones])

theorem spx (x y : Half) (color : Bool) : Statement (.spx x y color) :=
  of_row ⟨0x20, .PC, fun d => .spx d.a d.b d.color⟩ (by simp [opcodeMap]) (by
    simp only [encode, mask_PC, descriptorOf_and, byte_and_ones, colorField_reserved, half_and_zero, half_and_ones])

theorem clt : Statement .clt := of_row ⟨0x21, .N, fun _ => .clt⟩ (by simp [opcodeMap]) (by decide)

theorem clg : Statement .clg := of_row ⟨0x22, .N, fun _ => .clg⟩ (by simp [opcodeMap]) (by decide)

theorem clc : Statement .clc := of_row ⟨0x23, .N, fun _ => .clc⟩ (by simp [opcodeMap]) (by decide)

theorem defc (slot : Byte) (glyph : List Byte) : Statement (.defc slot glyph) :=
  of_row ⟨0x24, .G, fun d => .defc d.aux d.glyph⟩ (by simp [opcodeMap]) (by
    simp only [encode, mask_G, descriptorOf_and, byte_and_ones, byte_and_zero, half_and_zero])

theorem wch (ch : Byte) : Statement (.wch ch) :=
  of_row ⟨0x25, .V, fun d => .wch d.aux⟩ (by simp [opcodeMap]) (by
    simp only [encode, mask_V, descriptorOf_and, byte_and_ones, byte_and_zero, half_and_ones])

theorem rect (x y w h : Half) (color : Bool) : Statement (.rect x y w h color) :=
  of_row ⟨0x30, .Q, fun d => .rect d.a d.b d.c d.d d.color⟩ (by simp [opcodeMap]) (by
    simp only [encode, mask_Q, descriptorOf_and, byte_and_ones, colorField_reserved, half_and_zero])

theorem circ (cx cy r : Half) (color : Bool) : Statement (.circ cx cy r color) :=
  of_row ⟨0x31, .T, fun d => .circ d.a d.b d.c d.color⟩ (by simp [opcodeMap]) (by
    simp only [encode, mask_T, descriptorOf_and, byte_and_ones, colorField_reserved, half_and_zero, half_and_ones])

theorem line (x1 y1 x2 y2 : Half) (color : Bool) : Statement (.line x1 y1 x2 y2 color) :=
  of_row ⟨0x32, .Q, fun d => .line d.a d.b d.c d.d d.color⟩ (by simp [opcodeMap]) (by
    simp only [encode, mask_Q, descriptorOf_and, byte_and_ones, colorField_reserved, half_and_zero])

end Laws.EncodingFitsTable

end Sys2Proof
end

