-- ==== Sys2Proof/Laws/Steps.lean ====
section
/-! SUPPORT. Everything one step of the sequencer can do, said once: what each transfer leaves when it is taken, what a pass of a poll leaves, and what
the steps that make no transaction leave. -/

namespace Sys2Proof.Machine

/-! ## Going on -/

theorem goto_split (s : State) (q : List Micro) :
    (q = [] ∧ s.goto q = s.finish) ∨ (q ≠ [] ∧ s.goto q = s.setEng { s.eng with seq := q }) := by
  cases q with
  | nil => exact .inl ⟨rfl, rfl⟩
  | cons m r => exact .inr ⟨by simp, rfl⟩

@[simp] theorem goto_cfg (s : State) (q : List Micro) : (s.goto q).cfg = s.cfg := by cases q <;> rfl
@[simp] theorem goto_dev (s : State) (q : List Micro) : (s.goto q).dev = s.dev := by cases q <;> rfl
@[simp] theorem goto_bus (s : State) (q : List Micro) : (s.goto q).bus = s.bus := by cases q <;> rfl
@[simp] theorem goto_free (s : State) (q : List Micro) : (s.goto q).free = s.free := by cases q <;> rfl
@[simp] theorem goto_trace (s : State) (q : List Micro) : (s.goto q).trace = s.trace := by cases q <;> rfl
@[simp] theorem goto_seq (s : State) (q : List Micro) : (s.goto q).eng.seq = q := by cases q <;> rfl
@[simp] theorem goto_res (s : State) (q : List Micro) : (s.goto q).eng.res = s.eng.res := by cases q <;> rfl
@[simp] theorem goto_bof (s : State) (q : List Micro) : (s.goto q).eng.bof = s.eng.bof := by cases q <;> rfl
@[simp] theorem goto_err (s : State) (q : List Micro) : (s.goto q).eng.err = s.eng.err := by cases q <;> rfl
@[simp] theorem goto_eop (s : State) (q : List Micro) : (s.goto q).eng.eop = s.eng.eop := by cases q <;> rfl
@[simp] theorem goto_opc (s : State) (q : List Micro) : (s.goto q).eng.opc = s.eng.opc := by cases q <;> rfl
@[simp] theorem goto_bit (s : State) (q : List Micro) : (s.goto q).eng.bit = s.eng.bit := by cases q <;> rfl

/-- After going on, the operation is in progress exactly when steps remain (R21, R22). -/
theorem goto_running {s : State} (h : s.eng.st = .run) (q : List Micro) : (s.goto q).eng.st = (if q = [] then .idle else .run) := by
  cases q with
  | nil => rfl
  | cons m r => simp [State.goto, h]

/-! ## Transfers -/

/-- A bus write that is taken (R142, R173, R175): the device was ready and out of reset; a data write appended to the operand latch, or a command with
its operands ran at a populated address. -/
theorem busWrite_cases {s t : State} {cd : Bool} {v : Byte} (h : s.busWrite cd v = .next t) :
    s.bus.reset = .deasserted ∧ s.dev.rdy = .ready
      ∧ ((cd = false ∧ s.dev.nop ≠ 2 ∧ t = { s with
            dev := s.dev.afterData v, bus := s.bus.perform (writeCalls false v), trace := .dataWrite v :: s.trace })
        ∨ ∃ c, cd = true ∧ decodeCommand s.cfg.cmd v = some c ∧ s.dev.nop = c.operands
            ∧ (c.accessesMemory = true → s.dev.ap.toNat < s.cfg.ramSize) ∧ t = { s with
              dev := s.dev.runCommand s.free.memGen c, bus := s.bus.perform (writeCalls true v), trace := .commandWrite v :: s.trace }) := by
  cases hb : s.bus.reset with
  | asserted => simp [State.busWrite, State.transferBlocked, hb] at h
  | deasserted =>
    cases hr : s.dev.rdy with
    | busy => simp [State.busWrite, State.transferBlocked, hb, hr] at h
    | ready =>
      refine ⟨rfl, rfl, ?_⟩
      cases cd with
      | false =>
        left
        by_cases hn : s.dev.nop = 2
        · simp [State.busWrite, State.transferBlocked, hb, hr, State.dataWrite, hn] at h
        · rw [busWrite_data hb hr hn] at h
          exact ⟨rfl, hn, by injection h with h; exact h.symm⟩
      | true =>
        right
        cases hk : decodeCommand s.cfg.cmd v with
        | none => simp [State.busWrite, State.transferBlocked, hb, hr, State.commandWrite, hk] at h
        | some c =>
          by_cases hn : s.dev.nop = c.operands
          · by_cases hp : c.accessesMemory = true → s.dev.ap.toNat < s.cfg.ramSize
            · rw [busWrite_command hb hr hk hn hp] at h
              exact ⟨c, rfl, rfl, hn, hp, by injection h with h; exact h.symm⟩
            · have : (c.accessesMemory && !populated s.cfg s.dev.ap.toNat) = true := by
                have := Classical.not_imp.mp hp
                simp [populated, this.1, this.2]
              simp [State.busWrite, State.transferBlocked, hb, hr, State.commandWrite, hk, hn, this] at h
          · simp [State.busWrite, State.transferBlocked, hb, hr, State.commandWrite, hk, hn] at h

/-- A transfer is not blocked only on a ready device out of reset (R193, R194). -/
theorem transferBlocked_cases {s : State} (h : s.transferBlocked = none) : s.bus.reset = .deasserted ∧ s.dev.rdy = .ready := by
  cases hb : s.bus.reset with
  | asserted => simp [State.transferBlocked, hb] at h
  | deasserted =>
    cases hr : s.dev.rdy with
    | busy => simp [State.transferBlocked, hb, hr] at h
    | ready => exact ⟨rfl, rfl⟩

/-- `BusWrite` as a step (R142). -/
theorem writeStep_cases {s t : State} {cd : Bool} {v : Source} {rest : List Micro} (h : writeStep cd v rest s = .next t) :
    ∃ u, s.busWrite cd (v.value s.eng) = .next u ∧ t = u.goto rest := by
  unfold writeStep at h
  split at h
  · rename_i u hu; exact ⟨u, hu, by injection h with h; exact h.symm⟩
  · cases h
  · cases h

/-- `E.TMP <- BusRead(0)` as a step (R240). -/
theorem readTmpStep_cases {s t : State} {rest : List Micro} (h : readTmpStep rest s = .next t) :
    s.bus.reset = .deasserted ∧ s.dev.rdy = .ready ∧ t = (s.dataRead.setEng { s.eng with tmp := s.dataByte }).goto rest := by
  unfold readTmpStep at h
  split at h
  · cases h
  · rename_i hb
    have := transferBlocked_cases hb
    exact ⟨this.1, this.2, by injection h with h; exact h.symm⟩

/-- `E.RES <- BusRead(cd)` as a step (R154, R155). -/
theorem readResStep_cases {s t : State} {cd : Bool} {rest : List Micro} (h : readResStep cd rest s = .next t) :
    s.bus.reset = .deasserted ∧ s.dev.rdy = .ready
      ∧ ((cd = true ∧ t = (s.statusRead.setEng { s.eng with res := s.statusByte.setWidth 16 }).goto rest)
        ∨ (cd = false ∧ t = (s.dataRead.setEng { s.eng with res := s.dataByte.setWidth 16 }).goto rest)) := by
  unfold readResStep at h
  split at h
  · cases h
  · rename_i hb
    have := transferBlocked_cases hb
    refine ⟨this.1, this.2, ?_⟩
    cases cd with
    | true => exact .inl ⟨rfl, by injection h with h; exact h.symm⟩
    | false => exact .inr ⟨rfl, by injection h with h; exact h.symm⟩

/-- A pass of a poll (R141, R313): the device was found ready, or not and the poll goes on, or the limit is reached. -/
theorem pollPass_cases {s t : State} {rest : List Micro} (h : pollPass rest s = .next t) :
    s.bus.reset = .deasserted
      ∧ ((statusReady s.statusByte = true ∧ t = s.statusRead.goto rest)
        ∨ (statusReady s.statusByte = false
            ∧ (t = s.statusRead.setEng { s.eng with pcnt := s.eng.pcnt + 1, seq := .pollAgain :: rest }
              ∨ t = (s.statusRead.setEng { s.eng with pcnt := s.eng.pcnt + 1, seq := .pollAgain :: rest }).takeFault .deviceTimeout))) := by
  cases hb : s.bus.reset with
  | asserted => simp [pollPass, hb] at h
  | deasserted =>
    refine ⟨rfl, ?_⟩
    rw [pollPass_eq rest hb] at h
    cases hst : statusReady s.statusByte with
    | true =>
      left
      rw [hst, if_pos rfl] at h
      exact ⟨rfl, by injection h with h; exact h.symm⟩
    | false =>
      right
      refine ⟨rfl, ?_⟩
      rw [hst, if_neg (by simp)] at h
      simp only at h
      split at h
      · exact .inr (by injection h with h; exact h.symm)
      · exact .inl (by injection h with h; exact h.symm)

/-! ## Steps that make no transaction -/

/-- The steps inside the engine: no transaction, no change on the bus lines. -/
def Micro.isInternal : Micro → Bool
  | .setAP _ | .setPixel _ _ _ | .mergePixel _ | .clearCount | .bumpCount | .fillLoop _ | .glyphLoop | .rectVertical | .rectHorizontal
  | .circleStart | .circleLoop | .circleStep | .lineStart | .lineBranch | .lineStepX | .lineUntilX | .lineStepY | .lineUntilY | .settle => true
  | .poll | .pollAgain | .busWrite _ _ | .readTmp | .readRes _ | .assertReset | .releaseReset | .quiesce => false

/-- Writing a working register keeps "nothing but `x` has changed". -/
theorem setReg_onlyX {e e' : Engine} (h : e' = { e with x := e'.x }) (i : Fin 16) (v : Int) :
    e'.setReg i v = { e with x := (e'.setReg i v).x } := by
  generalize hy : e'.x = y at h
  subst h
  rfl

theorem circleStep_x (e : Engine) : e.circleStep = { e with x := e.circleStep.x } := by
  unfold Engine.circleStep
  simp only
  split <;> exact setReg_onlyX (by repeat' (first | refine setReg_onlyX ?_ _ _ | rfl)) _ _

theorem lineStart_x (e : Engine) : e.lineStart = { e with x := e.lineStart.x } := by
  unfold Engine.lineStart
  simp only
  split <;> split <;> exact setReg_onlyX (by repeat' (first | refine setReg_onlyX ?_ _ _ | rfl)) _ _

theorem lineAdvanceX_x (e : Engine) : e.lineAdvanceX = { e with x := e.lineAdvanceX.x } := by
  unfold Engine.lineAdvanceX
  simp only
  split <;> exact setReg_onlyX (by repeat' (first | refine setReg_onlyX ?_ _ _ | rfl)) _ _

theorem lineAdvanceY_x (e : Engine) : e.lineAdvanceY = { e with x := e.lineAdvanceY.x } := by
  unfold Engine.lineAdvanceY
  simp only
  split <;> exact setReg_onlyX (by repeat' (first | refine setReg_onlyX ?_ _ _ | rfl)) _ _

theorem circleStart_x (e : Engine) : e.circleStart = { e with x := e.circleStart.x } := by
  unfold Engine.circleStart
  exact setReg_onlyX (by repeat' (first | refine setReg_onlyX ?_ _ _ | rfl)) _ _

/-- Steps put before what remains keep "every transfer stands after a poll". -/
theorem polledBefore_append {q r : List Micro} {b : Bool} (h : polledBefore b q = true) (h' : polledBefore false r = true) :
    polledBefore b (q ++ r) = true := by
  induction q generalizing b with
  | nil =>
    cases b with
    | false => exact h'
    | true =>
      cases r with
      | nil => rfl
      | cons m r =>
        have h2 : polledBefore m.isPoll r = true := by
          simp only [polledBefore, Bool.and_eq_true] at h'
          exact h'.2
        show ((true || !m.isTransfer) && polledBefore m.isPoll r) = true
        rw [h2]; rfl
  | cons m q ih =>
    simp only [List.cons_append, polledBefore, Bool.and_eq_true] at h ⊢
    exact ⟨h.1, ih h.2⟩

/-- What a step inside the engine does: it changes the working registers, `E.TMP`, `E.BIT` and what is left to do, and nothing else; where every transfer that
was left stood after a poll, every transfer that is left does. -/
def StaysInside (m : Micro) (rest : List Micro) (s : State) : Prop :=
  ∃ x tmp bit q, microStep m rest s = .next ((s.setEng { s.eng with x := x, tmp := tmp, bit := bit }).goto q)
    ∧ (bit = s.eng.bit ∨ ∃ px, bit = BitVec.ofInt 8 (bitOffset s.cfg px))
    ∧ (polledBefore false rest = true → polledBefore false q = true)

/-- A step that changes no register of the engine and goes on with `q`. -/
theorem staysInside_of_goto {m : Micro} {rest q : List Micro} {s : State} (h : microStep m rest s = .next (s.goto q))
    (hq : polledBefore false rest = true → polledBefore false q = true) : StaysInside m rest s :=
  ⟨s.eng.x, s.eng.tmp, s.eng.bit, q, h, .inl rfl, hq⟩

/-- A step that changes nothing but working registers and goes on with `q`. -/
theorem staysInside_of_x {m : Micro} {rest q : List Micro} {s : State} {e : Engine} (he : e = { s.eng with x := e.x })
    (h : microStep m rest s = .next ((s.setEng e).goto q)) (hq : polledBefore false rest = true → polledBefore false q = true) :
    StaysInside m rest s :=
  ⟨e.x, s.eng.tmp, s.eng.bit, q, by rw [h]; exact congrArg (fun e => Host.Outcome.next ((s.setEng e).goto q)) he, .inl rfl, hq⟩

theorem staysInside_fillLoop (n : Nat) (rest : List Micro) (s : State) : StaysInside (.fillLoop n) rest s := by
  unfold StaysInside
  simp only [microStep, fillLoopStep]
  split
  · exact ⟨s.eng.x, s.eng.tmp, s.eng.bit, _, rfl, .inl rfl, fun h => polledBefore_append rfl h⟩
  · exact ⟨s.eng.x, s.eng.tmp, s.eng.bit, _, rfl, .inl rfl, id⟩

theorem staysInside_glyphLoop (rest : List Micro) (s : State) : StaysInside .glyphLoop rest s := by
  unfold StaysInside
  simp only [microStep, glyphLoopStep]
  split
  · exact ⟨s.eng.x, s.eng.tmp, s.eng.bit, _, rfl, .inl rfl, fun h => polledBefore_append rfl h⟩
  · exact ⟨s.eng.x, s.eng.tmp, s.eng.bit, _, rfl, .inl rfl, id⟩

theorem staysInside_rectVertical (rest : List Micro) (s : State) : StaysInside .rectVertical rest s := by
  unfold StaysInside
  simp only [microStep, rectVerticalStep]
  split
  · exact ⟨s.eng.x, s.eng.tmp, s.eng.bit, _, rfl, .inl rfl, fun h => polledBefore_append rfl h⟩
  · exact ⟨s.eng.x, s.eng.tmp, s.eng.bit, _, rfl, .inl rfl, id⟩

theorem staysInside_rectHorizontal (rest : List Micro) (s : State) : StaysInside .rectHorizontal rest s := by
  unfold StaysInside
  simp only [microStep, rectHorizontalStep]
  split
  · exact ⟨s.eng.x, s.eng.tmp, s.eng.bit, _, rfl, .inl rfl, fun h => polledBefore_append rfl h⟩
  · exact ⟨s.eng.x, s.eng.tmp, s.eng.bit, _, rfl, .inl rfl, id⟩

theorem staysInside_circleLoop (rest : List Micro) (s : State) : StaysInside .circleLoop rest s := by
  unfold StaysInside
  simp only [microStep, circleLoopStep]
  split
  · exact ⟨s.eng.x, s.eng.tmp, s.eng.bit, _, rfl, .inl rfl, fun h => polledBefore_append rfl h⟩
  · exact ⟨s.eng.x, s.eng.tmp, s.eng.bit, _, rfl, .inl rfl, id⟩

theorem staysInside_lineBranch (rest : List Micro) (s : State) : StaysInside .lineBranch rest s := by
  unfold StaysInside
  simp only [microStep, lineBranchStep]
  split
  · refine ⟨_, s.eng.tmp, s.eng.bit, _, rfl, .inl rfl, fun h => polledBefore_append ?_ h⟩
    split <;> rfl
  · exact ⟨s.eng.x, s.eng.tmp, s.eng.bit, _, rfl, .inl rfl, id⟩

theorem staysInside_lineUntilX (rest : List Micro) (s : State) : StaysInside .lineUntilX rest s := by
  unfold StaysInside
  simp only [microStep, lineUntilXStep]
  split
  · exact ⟨s.eng.x, s.eng.tmp, s.eng.bit, _, rfl, .inl rfl, id⟩
  · exact ⟨s.eng.x, s.eng.tmp, s.eng.bit, .lineStepX :: rest, rfl, .inl rfl, fun h => polledBefore_append (q := [.lineStepX]) rfl h⟩

theorem staysInside_lineUntilY (rest : List Micro) (s : State) : StaysInside .lineUntilY rest s := by
  unfold StaysInside
  simp only [microStep, lineUntilYStep]
  split
  · exact ⟨s.eng.x, s.eng.tmp, s.eng.bit, _, rfl, .inl rfl, id⟩
  · exact ⟨s.eng.x, s.eng.tmp, s.eng.bit, .lineStepY :: rest, rfl, .inl rfl, fun h => polledBefore_append (q := [.lineStepY]) rfl h⟩

/-- Every step inside the engine stays inside it. -/
theorem microStep_internal {m : Micro} (rest : List Micro) (s : State) (hm : m.isInternal = true) : StaysInside m rest s := by
  cases m with
  | setAP addr => exact ⟨_, s.eng.tmp, s.eng.bit, _, rfl, .inl rfl, fun h => polledBefore_append rfl h⟩
  | setPixel x y c => exact ⟨s.eng.x, s.eng.tmp, _, _, rfl, .inr ⟨x, rfl⟩, fun h => polledBefore_append (by rfl) h⟩
  | mergePixel c => exact ⟨s.eng.x, _, s.eng.bit, _, rfl, .inl rfl, id⟩
  | clearCount => exact ⟨_, s.eng.tmp, s.eng.bit, _, rfl, .inl rfl, id⟩
  | bumpCount => exact ⟨_, s.eng.tmp, s.eng.bit, _, rfl, .inl rfl, id⟩
  | fillLoop n => exact staysInside_fillLoop n rest s
  | glyphLoop => exact staysInside_glyphLoop rest s
  | rectVertical => exact staysInside_rectVertical rest s
  | rectHorizontal => exact staysInside_rectHorizontal rest s
  | circleStart => exact staysInside_of_x (circleStart_x s.eng) rfl id
  | circleLoop => exact staysInside_circleLoop rest s
  | circleStep => exact staysInside_of_x (circleStep_x s.eng) rfl id
  | lineStart => exact staysInside_of_x (lineStart_x s.eng) rfl fun h => polledBefore_append (by rfl) h
  | lineBranch => exact staysInside_lineBranch rest s
  | lineStepX =>
    exact staysInside_of_x (q := [.setPixel (s.eng.lineAdvanceX.reg CURX) (s.eng.lineAdvanceX.reg CURY) s.eng.lineAdvanceX.color, .lineUntilX] ++ rest)
      (lineAdvanceX_x s.eng) rfl fun h => polledBefore_append (by rfl) h
  | lineStepY =>
    exact staysInside_of_x (q := [.setPixel (s.eng.lineAdvanceY.reg CURX) (s.eng.lineAdvanceY.reg CURY) s.eng.lineAdvanceY.color, .lineUntilY] ++ rest)
      (lineAdvanceY_x s.eng) rfl fun h => polledBefore_append (by rfl) h
  | lineUntilX => exact staysInside_lineUntilX rest s
  | lineUntilY => exact staysInside_lineUntilY rest s
  | settle => exact staysInside_of_goto rfl id
  | poll => simp [Micro.isInternal] at hm
  | pollAgain => simp [Micro.isInternal] at hm
  | busWrite cd v => simp [Micro.isInternal] at hm
  | readTmp => simp [Micro.isInternal] at hm
  | readRes cd => simp [Micro.isInternal] at hm
  | assertReset => simp [Micro.isInternal] at hm
  | releaseReset => simp [Micro.isInternal] at hm
  | quiesce => simp [Micro.isInternal] at hm

/-! ## Acceptance (R110) -/

/-- What accepting an operation can do: begin its steps, in which every transfer stands after a poll; answer a query; or reject it. -/
theorem exec_cases (i : Instr) (s : State) :
    (∃ m rest, polledBefore false (m :: rest) = true ∧ exec i s = startOperation i (m :: rest) s)
      ∨ (∃ res bof, (bof = s.eng.bof ∨ ((∃ x y, i = .gra x y) ∧ ∃ px, bof = BitVec.ofInt 8 (bitOffset s.cfg px)))
          ∧ ((∃ x y, i = .txa x y) ∨ (∃ x y, i = .gra x y) ∨ ∃ slot, i = .cga slot)
          ∧ exec i s = .next (((s.accepted (encode i)).setEng { s.eng.latch (encode i) with res := res, bof := bof }).finish))
      ∨ exec i s = rejectRange i s := by
  have cons_append : ∀ {m : Micro} {q r : List Micro}, m :: q ++ r = m :: (q ++ r) := rfl
  cases i with
  | wrc v => exact .inl ⟨_, _, rfl, rfl⟩
  | wrd v => exact .inl ⟨_, _, rfl, rfl⟩
  | rdd => exact .inl ⟨_, _, rfl, rfl⟩
  | rds => exact .inl ⟨_, _, rfl, rfl⟩
  | init => exact .inl ⟨_, _, rfl, rfl⟩
  | close => exact .inl ⟨_, _, rfl, rfl⟩
  | txa x y =>
    right
    simp only [exec, execTxa]
    split
    · exact .inl ⟨_, s.eng.bof, .inl rfl, .inl ⟨x, y, rfl⟩, rfl⟩
    · exact .inr rfl
  | gra x y =>
    right
    simp only [exec, execGra]
    split
    · exact .inl ⟨_, _, .inr ⟨⟨x, y, rfl⟩, _, rfl⟩, .inr (.inl ⟨x, y, rfl⟩), rfl⟩
    · exact .inr rfl
  | cga slot =>
    right
    simp only [exec, execCga]
    split
    · exact .inl ⟨_, s.eng.bof, .inl rfl, .inr (.inr ⟨slot, rfl⟩), rfl⟩
    · exact .inr rfl
  | sor v => exact .inl ⟨_, _, rfl, rfl⟩
  | clt => exact .inl ⟨_, _, rfl, rfl⟩
  | clg => exact .inl ⟨_, _, rfl, rfl⟩
  | clc => exact .inl ⟨_, _, rfl, rfl⟩
  | wch ch => exact .inl ⟨_, _, rfl, rfl⟩
  | sap x y =>
    simp only [exec, execSap]
    split
    · exact .inl ⟨_, _, rfl, rfl⟩
    · exact .inr (.inr rfl)
  | scp x y =>
    simp only [exec, execScp]
    split
    · exact .inl ⟨_, _, rfl, rfl⟩
    · exact .inr (.inr rfl)
  | spx x y c =>
    simp only [exec, execSpx]
    split
    · exact .inl ⟨_, _, rfl, rfl⟩
    · exact .inr (.inr rfl)
  | defc slot glyph =>
    simp only [exec, execDefc]
    split
    · exact .inl ⟨_, _, rfl, rfl⟩
    · exact .inr (.inr rfl)
  | rect x y w h c =>
    simp only [exec, execRect]
    split
    · exact .inl ⟨_, _, rfl, rfl⟩
    · exact .inr (.inr rfl)
  | circ cx cy r c =>
    simp only [exec, execCirc]
    split
    · exact .inl ⟨_, _, rfl, rfl⟩
    · exact .inr (.inr rfl)
  | line x1 y1 x2 y2 c =>
    simp only [exec, execLine]
    split
    · exact .inl ⟨_, _, rfl, rfl⟩
    · exact .inr (.inr rfl)

/-- What a step can be (R21, R22, R48, R350): an engine reset, a step of the running operation, an acceptance, or nothing. -/
theorem step_cases {s t : State} (h : step s = .next t) :
    (∃ later, s.host.rst = true :: later ∧ t = (s.setHost { s.host with rst := later }).engineReset)
      ∨ ∃ v, v = s.setHost { s.host with rst := s.host.rst.tail } ∧ s.host.rst.head? ≠ some true
          ∧ ((s.eng.st = .run ∧ ((∃ m rest, s.eng.seq = m :: rest ∧ microStep m rest v = .next t) ∨ (s.eng.seq = [] ∧ t = v.finish)))
            ∨ (s.eng.st = .idle ∧ ∃ d ds, s.host.req = d :: ds ∧ acceptDescriptor d (v.setHost { v.host with req := ds }) = .next t)
            ∨ (s.eng.st = .idle ∧ s.host.req = [] ∧ t = v) ∨ (s.eng.st = .fault ∧ t = v)) := by
  have un : ∀ v : State, v.eng = s.eng → v.host.req = s.host.req → stepUnreset v = .next t →
      (s.eng.st = .run ∧ ((∃ m rest, s.eng.seq = m :: rest ∧ microStep m rest v = .next t) ∨ (s.eng.seq = [] ∧ t = v.finish)))
        ∨ (s.eng.st = .idle ∧ ∃ d ds, s.host.req = d :: ds ∧ acceptDescriptor d (v.setHost { v.host with req := ds }) = .next t)
        ∨ (s.eng.st = .idle ∧ s.host.req = [] ∧ t = v) ∨ (s.eng.st = .fault ∧ t = v) := by
    intro v he hq hv
    unfold stepUnreset at hv
    rw [he] at hv
    cases hst : s.eng.st with
    | idle =>
      rw [hst] at hv
      simp only [idleStep, hq] at hv
      cases hr : s.host.req with
      | nil =>
        rw [hr] at hv
        exact .inr (.inr (.inl ⟨rfl, rfl, by injection hv with hv; exact hv.symm⟩))
      | cons d ds =>
        rw [hr] at hv
        exact .inr (.inl ⟨rfl, d, ds, rfl, hv⟩)
    | run =>
      rw [hst] at hv
      simp only [sequencerStep, he] at hv
      refine .inl ⟨rfl, ?_⟩
      cases hr : s.eng.seq with
      | nil => rw [hr] at hv; exact .inr ⟨rfl, by injection hv with hv; exact hv.symm⟩
      | cons m rest => rw [hr] at hv; exact .inl ⟨m, rest, rfl, hv⟩
    | fault =>
      rw [hst] at hv
      exact .inr (.inr (.inr ⟨rfl, by injection hv with hv; exact hv.symm⟩))
  unfold step cycle at h
  cases hr : s.host.rst with
  | nil =>
    rw [hr] at h
    refine .inr ⟨s, ?_, by simp, un s rfl rfl h⟩
    rw [List.tail_nil, ← hr]
    rfl
  | cons b later =>
    cases b with
    | true =>
      rw [hr] at h
      exact .inl ⟨later, rfl, by injection h with h; exact h.symm⟩
    | false =>
      rw [hr] at h
      exact .inr ⟨_, rfl, by simp, un _ rfl rfl h⟩

end Sys2Proof.Machine
end

