-- ==== Sys2Proof/Tests/Slice0.lean ====
section
/-! SUPPORT. Tests of the model against values worked out outside it (95_test_vectors.md, named V…, and encodings written out field by
field from 30_encoding.md R101 to R108), and for every obligation with hypotheses a state and operands that meet them. -/

namespace Sys2Proof.Tests

open Sys2Proof.Machine

/-! ## Small states -/

/-- An idle engine, the device out of reset and answering every status read with `0x03`. -/
def ready : State :=
  { State.reset with
    bus := { Bus.quiescent with reset := .deasserted }
    free := { State.reset.free with after := some 0x03 } }

/-- An engine with steps to do and a device found ready. -/
def running (q : List Micro) : State :=
  { ready with eng := { Engine.reset with st := .run, seq := q }, dev := { Device.reset with rdy := .ready } }

/-- The device answers every status read with `0x00`. -/
def silent (q : List Micro) : State :=
  { running q with dev := Device.reset, free := { State.reset.free with after := some 0x00 } }

/-- A host that presents descriptors. -/
def presenting (ds : List Descriptor) : State := { ready with host := { State.reset.host with req := ds } }

/-- The scenario with another font, poll limit, glyph count or memory size. -/
def font6 : Config := { Config.default with fontWidth := 6 }
def limit3 : Config := { Config.default with pollLimit := 3 }
def glyphs128 : Config := { Config.default with extCgGlyphs := 128 }
def smallRam : Config := { Config.default with ramSize := 8192 }

/-- Whether the outcome is a next state with a property. -/
def nextSat (o : Host.Outcome State Fault Refusal) (p : State → Bool) : Bool :=
  match o with
  | .next t => p t
  | .fault _ => false
  | .refused _ => false

/-- Whether the outcome is a given refusal. -/
def refusedWith (o : Host.Outcome State Fault Refusal) (r : Refusal) : Bool :=
  match o with
  | .next _ => false
  | .fault _ => false
  | .refused q => q == r

/-! ## Decoding: each word written out from R102, R103 -/

theorem test_decode_wrc : decode (0b00000001#8 ++ 0b10011100#8 ++ 0#64) = .ok (.wrc 0x9C) := by decide
theorem test_decode_wrd : decode (0b00000010#8 ++ 0b00101010#8 ++ 0#64) = .ok (.wrd 0x2A) := by decide
theorem test_decode_rdd : decode (0b00000011#8 ++ 0#72) = .ok .rdd := by decide
theorem test_decode_rds : decode (0b00000100#8 ++ 0#72) = .ok .rds := by decide
theorem test_decode_init : decode (0b00000101#8 ++ 0#72) = .ok .init := by decide
theorem test_decode_close : decode (0b00000110#8 ++ 0#72) = .ok .close := by decide
theorem test_decode_txa : decode (0b00010000#8 ++ 0#8 ++ 0x0005#16 ++ 0x0002#16 ++ 0#32) = .ok (.txa 5 2) := by decide
theorem test_decode_gra : decode (0b00010001#8 ++ 0#8 ++ 0x000A#16 ++ 0x0005#16 ++ 0#32) = .ok (.gra 10 5) := by decide
theorem test_decode_cga : decode (0b00010010#8 ++ 0b11111111#8 ++ 0#64) = .ok (.cga 255) := by decide
theorem test_decode_sap : decode (0b00010011#8 ++ 0#8 ++ 0x001D#16 ++ 0x000F#16 ++ 0#32) = .ok (.sap 29 15) := by decide
theorem test_decode_scp : decode (0b00010100#8 ++ 0#8 ++ 0x0003#16 ++ 0x0001#16 ++ 0#32) = .ok (.scp 3 1) := by decide
theorem test_decode_sor : decode (0b00010101#8 ++ 0b00000010#8 ++ 0#64) = .ok (.sor 2) := by decide
theorem test_decode_spx :
    decode (0b00100000#8 ++ 0b0000000#7 ++ 1#1 ++ 0xFFFF#16 ++ 0x0005#16 ++ 0#32) = .ok (.spx (-1) 5 true) := by decide
theorem test_decode_clt : decode (0b00100001#8 ++ 0#72) = .ok .clt := by decide
theorem test_decode_clg : decode (0b00100010#8 ++ 0#72) = .ok .clg := by decide
theorem test_decode_clc : decode (0b00100011#8 ++ 0#72) = .ok .clc := by decide
theorem test_decode_defc :
    decode (0b00100100#8 ++ 1#8 ++ 0x00#8 ++ 0x7E#8 ++ 0x42#8 ++ 0x43#8 ++ 0x44#8 ++ 0x45#8 ++ 0x7F#8 ++ 0x01#8)
      = .ok (.defc 1 [0x00, 0x7E, 0x42, 0x43, 0x44, 0x45, 0x7F, 0x01]) := by decide
theorem test_decode_wch : decode (0b00100101#8 ++ 0b01001000#8 ++ 0#64) = .ok (.wch 0x48) := by decide
theorem test_decode_rect :
    decode (0b00110000#8 ++ 0b0000000#7 ++ 0#1 ++ 0x0002#16 ++ 0x0001#16 ++ 0x0004#16 ++ 0x0003#16) = .ok (.rect 2 1 4 3 false) := by
  decide
theorem test_decode_circ :
    decode (0b00110001#8 ++ 0b0000000#7 ++ 1#1 ++ 0x0014#16 ++ 0x0015#16 ++ 0x0005#16 ++ 0#16) = .ok (.circ 20 21 5 true) := by decide
theorem test_decode_line :
    decode (0b00110010#8 ++ 0b0000000#7 ++ 1#1 ++ 0x000A#16 ++ 0x000B#16 ++ 0x0004#16 ++ 0x0007#16) = .ok (.line 10 11 4 7 true) := by
  decide

/-- V30.1 to V30.7, V30.10: reserved opcodes and reserved fields. -/
theorem test_decode_reserved :
    decode 0x00000000000000000000 = .error (.reservedOpcode 0x00) ∧ decode 0x07000000000000000000 = .error (.reservedOpcode 0x07)
      ∧ decode 0x05000000000000000001 = .error (.reservedField 0x05) ∧ decode 0x20030005000500000000 = .error (.reservedField 0x20)
      ∧ decode 0x2001000A000500010000 = .error (.reservedField 0x20) ∧ decode 0x31010008000800030001 = .error (.reservedField 0x31)
      ∧ decode 0x019C0001000000000000 = .error (.reservedField 0x01) ∧ decode 0x2003FFFF000500000000 = .error (.reservedField 0x20) := by
  decide

/-- V30.9: format G reserves nothing. -/
theorem test_decode_defc_full : decode 0x24FFFFFFFFFFFFFFFFFF = .ok (.defc 255 (List.replicate 8 0xFF)) := by decide

/-- The encoder on the descriptors of V42.2, V43.1, V43.9, V45.8 and V47.11. -/
theorem test_encode :
    encode (.txa 5 2) = 0x10000005000200000000 ∧ encode (.spx 10 5 true) = 0x2001000A000500000000
      ∧ encode (.defc 1 [0x00, 0x7E, 0x42, 0x42, 0x42, 0x42, 0x7E, 0x00]) = 0x2401007E424242427E00
      ∧ encode (.rect 5 5 (-1) 1 true) = 0x300100050005FFFF0001 ∧ encode (.line 10 10 4 7 true) = 0x3201000A000A00040007 := by decide

theorem test_decodeTableWord : decodeTableWord 80 0x1100000A000500000000 = some (.gra 10 5) ∧ decodeTableWord 80 0 = none := by decide

/-! ## Well-formedness -/

theorem test_wellFormed_glyph_short : (Instr.defc 1 [0, 0, 0, 0, 0, 0, 0]).wellFormed = false := by decide
theorem test_wellFormed_glyph_long : (Instr.defc 1 [0, 0, 0, 0, 0, 0, 0, 0, 0]).wellFormed = false := by decide
theorem test_wellFormed_glyph : (Instr.defc 1 [0, 0, 0, 0, 0, 0, 0, 0]).wellFormed = true := by decide
theorem test_config_ok : Config.default.ok = true ∧ font6.ok = true ∧ { Config.default with ramSize := 8191 }.ok = false
    ∧ { Config.default with fontWidth := 7 }.ok = false := by decide

/-! ## One step of each operation -/

/-- V40.1, V41.13: the display-mode bytes. -/
theorem test_wrc_display : nextSat (step (running [.busWrite true (.lit 0x9C)]))
    (fun t => t.dev.disp == 0xC && t.dev.rdy == .busy && t.trace == [.commandWrite 0x9C] && t.reqReady && t.host.rspValid) = true := by decide
/-- V41.12. -/
theorem test_wrc_unknown : refusedWith (step (running [.busWrite true (.lit 0x55)])) (.unknownCommand 0x55) = true := by decide
/-- V40.5. -/
theorem test_wrd_first : nextSat (step (running [.busWrite false (.lit 0x2A)]))
    (fun t => t.dev.d1 == 0x2A && t.dev.nop == 1 && t.bus.dir == .output && t.bus.ce == .high) = true := by decide
/-- V40.7. -/
theorem test_rdd_pending :
    nextSat (step { running [.readRes false] with dev := { Device.reset with rdy := .ready, rdl := 0x20, rdv := true } })
      (fun t => t.eng.res == 0x0020 && !t.dev.rdv && t.dev.rdy == .busy && t.trace == [.dataRead 0x20] && t.bus.dir == .input) = true := by
  decide
/-- V40.6: the second status read; the device stays ready. -/
theorem test_rds_status : nextSat (step (running [.readRes true])) (fun t => t.eng.res == 0x0003 && t.dev.rdy == .ready) = true := by decide
/-- V40.9. -/
theorem test_init_trace : initTrace Config.default =
    [.dataWrite 0x00, .dataWrite 0x00, .commandWrite 0x40, .dataWrite 0x1E, .dataWrite 0x00, .commandWrite 0x41, .dataWrite 0xE0,
     .dataWrite 0x01, .commandWrite 0x42, .dataWrite 0x1E, .dataWrite 0x00, .commandWrite 0x43, .dataWrite 0x03, .dataWrite 0x00,
     .commandWrite 0x22, .dataWrite 0x00, .dataWrite 0x00, .commandWrite 0x24, .commandWrite 0x9C, .commandWrite 0x80] := by decide
/-- V40.11. -/
theorem test_init_trace_font6 : (initTrace font6).take 12 =
    [.dataWrite 0x00, .dataWrite 0x00, .commandWrite 0x40, .dataWrite 0x28, .dataWrite 0x00, .commandWrite 0x41, .dataWrite 0x80,
     .dataWrite 0x02, .commandWrite 0x42, .dataWrite 0x28, .dataWrite 0x00, .commandWrite 0x43] := by decide
/-- V48.1: the last step of CLOSE. -/
theorem test_close_rests : nextSat (step { running [.quiesce] with dev := { Device.reset with nop := 1, rdv := true } })
    (fun t => t.bus == Bus.quiescent && t.dev.nop == 0 && !t.dev.rdv && t.eng.st == .idle && t.host.rspCode == 0) = true := by decide
/-- V42.3, V42.5. -/
theorem test_txa : nextSat (exec (.txa 29 15) ready) (fun t => t.responses == [{ code := 0, data := 479, bof := 0 }]) = true
    ∧ nextSat (exec (.txa 0 16) ready) (fun t => t.eng.err == 2 && t.eng.eop == 0x10 && t.eng.st == .idle) = true := by decide
/-- V42.10, V42.14. -/
theorem test_gra : nextSat (exec (.gra 10 5) ready) (fun t => t.eng.res == 631 && t.eng.bof == 5 && t.trace == []) = true
    ∧ nextSat (exec (.gra 10 5) { ready with cfg := font6 }) (fun t => t.eng.res == 841 && t.eng.bof == 1) = true := by decide
/-- V42.17, V42.18. -/
theorem test_cga : nextSat (exec (.cga 255) ready) (fun t => t.eng.res == 8184) = true
    ∧ nextSat (exec (.cga 128) { ready with cfg := glyphs128 }) (fun t => t.host.rspCode == 2 && t.eng.eop == 0x12) = true := by decide
/-- V42.20: low byte, high byte, command; `ADDR` holds the address. -/
theorem test_sap : nextSat (step (running [.setAP 479]))
    (fun t => t.eng.seq == [.poll, .busWrite false (.lit 0xDF), .poll, .busWrite false (.lit 0x01), .poll, .busWrite true (.lit 0x24)]
      && t.eng.x[15] == 479) = true := by decide
/-- V42.22. -/
theorem test_scp : nextSat (exec (.scp 3 1) ready)
    (fun t => t.eng.seq == [.poll, .busWrite false (.lit 3), .poll, .busWrite false (.lit 1), .poll, .busWrite true (.lit 0x21)]) = true := by
  decide
/-- V42.24. -/
theorem test_sor : nextSat (exec (.sor 2) ready)
    (fun t => t.eng.seq == [.poll, .busWrite false (.lit 2), .poll, .busWrite false (.lit 0), .poll, .busWrite true (.lit 0x22)]) = true := by
  decide
/-- V43.3, V43.4, V43.5: clear, set again, the two high bits of a 6-pixel byte kept. -/
theorem test_spx_merge : mergeBit 0xFF 5 false = 0xDF ∧ mergeBit 0x20 5 true = 0x20 ∧ mergeBit 0xC0 1 true = 0xC2 := by decide
/-- V43.11, V60.2. -/
theorem test_spx_rejected : nextSat (exec (.spx 240 0 true) ready)
    (fun t => t.host.rspCode == 2 && t.eng.err == 2 && t.eng.eop == 0x20 && t.eng.st == .idle && t.trace == [] && t.dev == ready.dev) = true := by
  decide
/-- V43.7, V43.6, V43.8: address and count of the three fills. -/
theorem test_clt : nextSat (exec .clt ready) (fun t => t.eng.seq == [.setAP 0, .clearCount, .fillLoop 480]) = true := by decide
theorem test_clg : nextSat (exec .clg ready) (fun t => t.eng.seq == [.setAP 480, .clearCount, .fillLoop 3840]) = true := by decide
theorem test_clc : nextSat (exec .clc ready) (fun t => t.eng.seq == [.setAP 6144, .clearCount, .fillLoop 2048]) = true := by decide
/-- V43.9: the address, and the second glyph byte when the counter is 1. -/
theorem test_defc :
    nextSat (exec (.defc 1 [0x00, 0x7E, 0x42, 0x42, 0x42, 0x42, 0x7E, 0x00]) ready)
      (fun t => t.eng.seq.head? == some (.setAP 6152) && Source.value .glyph (t.eng.setReg CNT 1) == 0x7E) = true := by decide
/-- V44.1: the code of 'A' is 33. -/
theorem test_wch : nextSat (exec (.wch 0x41) ready)
    (fun t => t.eng.seq == [.poll, .busWrite false (.lit 33), .poll, .busWrite true (.lit 0xC0)]) = true := by decide
theorem test_wch_wraps : characterCode 31 = 0xFF := by decide
/-- V45.3: the order of the calls. -/
theorem test_rect_points : rectPoints 5 5 1 3 = [(5, 5), (5, 5), (5, 6), (5, 6), (5, 7), (5, 7), (5, 5), (5, 7)] := by decide
/-- V45.7. -/
theorem test_rect_rejected : nextSat (exec (.rect 5 5 0 1 true) ready) (fun t => t.host.rspCode == 2 && t.eng.eop == 0x30) = true := by decide
/-- V46.5: the tuples of radius 5. -/
theorem test_circ_tuples : circleTuples 6 (CircleTuple.start 5) = [⟨5, 0, -9, 1, 0⟩, ⟨5, 1, -9, 3, 1⟩, ⟨5, 2, -9, 5, 4⟩, ⟨4, 3, -7, 7, 0⟩] := by decide
/-- V46.4: the working registers after the first update. -/
theorem test_circ_step : nextSat (step { running [] with eng :=
      { ((((Engine.reset.setReg CIRX 2).setReg CIRY 0).setReg XCH (-3)).setReg YCH 1).setReg RERR 0 with
        st := .run, seq := [.circleStep, .circleLoop] } })
    (fun t => t.eng.reg CIRX == 2 && t.eng.reg CIRY == 1 && t.eng.reg XCH == -3 && t.eng.reg YCH == 3 && t.eng.reg RERR == 1) = true := by decide
/-- V47.2, V47.8, V47.10, V47.5. -/
theorem test_line_points :
    linePoints 0 0 5 2 = [(0, 0), (1, 0), (2, 1), (3, 1), (4, 2), (5, 2)]
      ∧ linePoints 0 0 2 4 = [(0, 0), (0, 1), (1, 2), (1, 3), (2, 4)]
      ∧ linePoints 2 1 0 0 = [(2, 1), (1, 1), (0, 0)] ∧ linePoints 3 0 0 0 = [(3, 0), (2, 0), (1, 0), (0, 0)]
      ∧ linePoints 3 3 3 3 = [(3, 3)] := by decide
/-- V47.7: from (0, 1, 2) to (1, 2, -2). -/
theorem test_line_step : nextSat (step { running [] with eng :=
      { ((((((((Engine.reset.setReg CURX 0).setReg CURY 1).setReg ACC 2).setReg DX 1).setReg DY 3).setReg TWODX 2).setReg TWODY 6).setReg XINC
          1).setReg YINC 1 with st := .run, seq := [.lineStepY] } })
    (fun t => t.eng.reg CURX == 1 && t.eng.reg CURY == 2 && t.eng.reg ACC == -2
      && t.eng.seq == [.setPixel 1 2 false, .lineUntilY]) = true := by decide

/-! ## The poll, the device, faults, reset -/

/-- V40.2, V40.3: the third status read that is not ready meets the limit of 3; a ready one does not. -/
theorem test_poll_limit :
    nextSat (step { silent [] with cfg := limit3, eng := { Engine.reset with st := .run, seq := [.pollAgain, .busWrite true (.lit 0x9C)], pcnt := 2, opc := 1 } })
      (fun t => t.eng.st == .fault && t.eng.err == 3 && t.eng.eop == 1 && t.host.rspCode == 3 && t.faultOut && t.eng.pcnt == 3) = true
    ∧ nextSat (step { ready with cfg := limit3, eng := { Engine.reset with st := .run, seq := [.pollAgain, .busWrite true (.lit 0x9C)], pcnt := 2 } })
      (fun t => t.eng.st == .run && t.eng.seq == [.busWrite true (.lit 0x9C)] && t.dev.rdy == .ready) = true := by decide
/-- V40.4: only the two low bits are tested. -/
theorem test_statusReady : statusReady 0xFC = false ∧ statusReady 0xFE = false ∧ statusReady 0xFD = false ∧ statusReady 0xFF = true := by decide
/-- V41.5, V41.6, V41.7: the pointer wraps both ways, and stays. -/
theorem test_pointer_wraps :
    (let t := { Device.reset with ap := 0xFFFF, d1 := 0x11 }.applyCommand 0 .dataWriteInc; t.ap = 0 ∧ t.mem = [(0xFFFF, 0x11)])
      ∧ (let t := { Device.reset with ap := 0, d1 := 0x22 }.applyCommand 0 .dataWriteDec; t.ap = 0xFFFF ∧ t.mem = [(0, 0x22)])
      ∧ (let t := { Device.reset with ap := 0x1000, d1 := 0x33 }.applyCommand 0 .dataWriteNonvar; t.ap = 0x1000 ∧ t.mem = [(0x1000, 0x33)]) := by
  decide
/-- V41.1, V41.3, V41.14: the pointer command, a read with increment, the offset command. -/
theorem test_device_commands :
    ({ Device.reset with d1 := 0x00, d2 := 0x10 }.applyCommand 0 .setAddressPointer).ap = 0x1000
      ∧ (let t := { Device.reset with ap := 0x1000, mem := [(0x1000, 0xAB)] }.applyCommand 0 .dataReadInc; t.rdl = 0xAB ∧ t.rdv = true ∧ t.ap = 0x1001)
      ∧ ({ Device.reset with d1 := 0x05, d2 := 0x09 }.applyCommand 0 .setOffsetRegister).offs = 0x05 := by decide
/-- V41.9: a command cancels the pending read. -/
theorem test_command_cancels_read : ({ Device.reset with rdv := true }.runCommand 0 (.modeSet 0)).rdv = false := by decide
/-- V41.10, V41.11. -/
theorem test_operand_latch :
    refusedWith (step { running [.busWrite false (.lit 3)] with dev := { Device.reset with rdy := .ready, nop := 2 } }) .operandLatchFull = true
      ∧ refusedWith (step { running [.busWrite true (.lit 0x24)] with dev := { Device.reset with rdy := .ready, nop := 1 } })
        .operandCountMismatch = true := by decide
/-- V60.1: a rejection answers with the last results. -/
theorem test_illegal : nextSat (step { presenting [0] with eng := { Engine.reset with res := 0x0277, bof := 5 } })
    (fun t => t.responses == [{ code := 1, data := 0x0277, bof := 5 }] && t.eng.err == 1 && t.eng.eop == 0 && t.eng.st == .idle
      && t.dev == ready.dev && t.host.req == []) = true := by decide
/-- V30.10, V60.8: decoding comes before the range check. -/
theorem test_illegal_first : nextSat (step (presenting [0x2003FFFF000500000000])) (fun t => t.host.rspCode == 1) = true := by decide
/-- V60.5: in FAULT nothing is accepted. -/
theorem test_fault_waits : nextSat (step { presenting [encode .init] with eng := { Engine.reset with st := .fault } })
    (fun t => t == { presenting [encode .init] with eng := { Engine.reset with st := .fault } }) = true := by decide
/-- V70.1. -/
theorem test_reset : nextSat (step { presenting [encode .init] with
      eng := { Engine.reset with st := .fault, err := 3, eop := 1 }
      host := { rst := [true], req := [encode .init], rspValid := true, rspCode := 3 } })
    (fun t => t.eng.st == .idle && t.eng.err == 0 && t.eng.eop == 0 && t.reqReady && !t.host.rspValid && t.bus == Bus.quiescent) = true := by decide
/-- V70.2: a command presented after reset is accepted, and its first status read refused. -/
theorem test_reset_refuses : nextSat (step (State.reset.withFetchWord 80 0x01800000000000000000)) (fun t => t.eng.st == .run) = true
    ∧ refusedWith (step { State.reset with eng := { Engine.reset with st := .run, seq := [.poll, .busWrite true (.lit 0x80)] } })
      .deviceHeldInReset = true := by decide
/-- V42.10: the descriptor placed by withFetchWord is the one the very next step runs. -/
theorem test_withFetchWord : nextSat (step (State.reset.withFetchWord 80 0x1100000A000500000000))
    (fun t => t.eng.res == 631 && t.eng.bof == 5 && t.host.req == []) = true := by decide

/-! ## Memory and host -/

theorem test_memory_store : Memory.store (Memory.store [(3, 1), (9, 2)] 5 7) 9 4 = [(3, 1), (5, 7), (9, 4)]
    ∧ Memory.wf [(3, 1), (5, 7)] = true ∧ Memory.wf [(5, 7), (5, 1)] = false := by decide
/-- L1.9: 117.5 is sent as 117, and -117.5 as -117; 40000 cannot be sent. -/
theorem test_truncate : truncateOperand 235 2 = some 117 ∧ truncateOperand (-235) 2 = some (-117) ∧ truncateOperand 40000 1 = none := by decide
/-- P2, V44.7: a string is one WCH a character; the empty string is nothing; a code point above 255 has no expansion. -/
theorem test_expandString : expandString [0x48, 0x69, 0x21] = some [.wch 0x48, .wch 0x69, .wch 0x21] ∧ expandString [] = some []
    ∧ expandString [0x48, 256] = none := by decide
theorem test_assembleLine : assembleLine "SPX" [10, 5, 1] = some (.spx 10 5 true) ∧ assembleLine "SPX" [10, 5, 2] = none
    ∧ assembleLine "RECT" [5, 5, -1, 1, 1] = some (.rect 5 5 (-1) 1 true) ∧ assembleLine "WRC" [256] = none := by decide

/-- R124's examples, R125, and lines that have no expansion. -/
theorem test_assembleText :
    assembleText "WRC 0x9C" = some [.wrc 0x9C] ∧ assembleText "  SPX 10, 5, 1 ; a pixel" = some [.spx 10 5 true]
      ∧ assembleText "RECT 5, 5, -1, 1, 1" = some [.rect 5 5 (-1) 1 true] ∧ assembleText "INIT" = some [.init]
      ∧ assembleText "DEFC 1, 0x00, 0x7E, 0x42, 0x42, 0x42, 0x42, 0x7E, 0x00" = some [.defc 1 [0x00, 0x7E, 0x42, 0x42, 0x42, 0x42, 0x7E, 0x00]]
      ∧ assembleText "WCH 'A'" = some [.wch 0x41] ∧ assembleText "WSTR \"Hi\"" = some [.wch 0x48, .wch 0x69] ∧ assembleText "; only" = some []
      ∧ assembleText "SPX 10 5, 1" = none ∧ assembleText "WRC 256" = none ∧ assembleText "NOP" = none := by decide

/-! ## Witnesses: what the obligations assume can be met -/

theorem choices_after {s : State} {b : Byte} (h : s.free.given = []) (h' : s.free.after = some b) (n : Nat) : s.free.byteAt n = b := by
  simp [Choices.byteAt, h, h']

/-- A device that answers every status read with `0x03` is responsive under every poll limit. -/
theorem responsive_of_after {s : State} (h : s.free.given = []) (h' : s.free.after = some 0x03) : Responsive s := fun n =>
  ⟨n, Nat.le_refl n, by omega, by rw [choices_after h h']; decide⟩

theorem default_ok : Config.default.ok = true := by decide

theorem serving_ready : Serving ready := ⟨by decide, rfl, rfl, responsive_of_after rfl rfl⟩

theorem readyToDraw_ready : ReadyToDraw ready := ⟨serving_ready, rfl, rfl, rfl, rfl⟩

/-- A host with descriptors to present changes neither. -/
theorem readyToDraw_presenting (ds : List Descriptor) : ReadyToDraw (presenting ds) :=
  ⟨⟨default_ok, rfl, rfl, responsive_of_after rfl rfl⟩, rfl, rfl, rfl, rfl⟩

/-- `ready` with another device state. -/
def readyWith (d : Device) : State := { ready with dev := d }

theorem serving_readyWith (d : Device) : Serving (readyWith d) := ⟨default_ok, rfl, rfl, responsive_of_after rfl rfl⟩

/-- A silent device never answers ready. -/
theorem silent_never (q : List Micro) (n : Nat) : statusReady ((silent q).free.byteAt n) = false := by
  rw [choices_after (s := silent q) (b := 0) rfl rfl]; decide

theorem witness_DecodeOfEncodeIsIdentity : (Instr.defc 255 (List.replicate 8 0xFF)).wellFormed = true
    ∧ (Instr.rect (-32768) 32767 (-1) 0 false).wellFormed = true := by decide
theorem witness_LegalDescriptorReencodes : decode 0x3201FFFF7FFF80000000 = .ok (.line (-1) 32767 (-32768) 0 true) := by decide
theorem witness_DescriptorSelectsByMaskAndMatch :
    ∃ r ∈ opcodeMap, ∃ r' ∈ opcodeMap, r.admits 0x2001000A000500000000 = true ∧ r'.admits 0x2001000A000500000000 = true := by decide
theorem witness_StepRunsDecodedInstr : (presenting [encode .rdd]).host.rst = [] ∧ (presenting [encode .rdd]).eng.st = .idle
    ∧ (presenting [encode .rdd]).host.req = 0x03000000000000000000 :: [] ∧ decode 0x03000000000000000000 = .ok .rdd := by decide
theorem witness_IllegalDescriptorRejected : (presenting [0x33000000000000000000]).host.rst = []
    ∧ (presenting [0x33000000000000000000]).eng.st = .idle ∧ (presenting [0x33000000000000000000]).host.req = 0x33000000000000000000 :: []
    ∧ ∀ r ∈ opcodeMap, r.admits 0x33000000000000000000 = false := by decide
theorem witness_RangeCheckRejects : inRange ready.cfg (.gra 240 0) = false ∧ inRange ready.cfg (.gra 239 128) = false
    ∧ inRange ready.cfg (.txa (-1) 0) = false ∧ inRange ready.cfg (.rect 5 5 0 1 true) = false
    ∧ inRange ready.cfg (.circ 237 8 3 true) = false ∧ inRange glyphs128 (.cga 128) = false := by decide
theorem witness_StepsTakeDescriptorsOnlyWhenIdle : ∃ t, step (presenting [encode .init]) = .next t := ⟨_, rfl⟩
theorem witness_EngineResetFromAnyState :
    ({ silent [.poll] with host := { State.reset.host with rst := [true, false] } } : State).host.rst = true :: [false] := rfl
theorem witness_FaultWaitsForReset : let s : State := { presenting [encode .init] with eng := { Engine.reset with st := .fault } }
    s.eng.st = .fault ∧ s.host.rst.head? ≠ some true := by decide
theorem witness_PollPass : let q (first : Bool) : List Micro := [if first then .poll else .pollAgain, .readTmp]
    ∀ first, (running (q first)).host.rst = [] ∧ (running (q first)).eng.st = .run ∧ (running (q first)).bus.reset = .deasserted
      ∧ (running (q first)).eng.seq = (if first then .poll else .pollAgain) :: [.readTmp] := by decide

/-- Two answers that are not ready, then a ready one, with a poll limit of 3. -/
def slow : State := { silent [.poll, .readTmp] with cfg := limit3, free := { State.reset.free with given := [0x00, 0x02, 0x03] } }

theorem witness_PollEndsAtFirstReadyStatus : slow.cfg.ok = true ∧ slow.host.rst = [] ∧ slow.bus.reset = .deasserted ∧ slow.eng.st = .run
    ∧ slow.dev.rdy = .busy ∧ slow.eng.seq = .poll :: .readTmp :: [] ∧ (∀ n < 2, statusReady (slow.free.byteAt n) = false)
    ∧ statusReady (slow.free.byteAt 2) = true ∧ (slow.cfg.pollLimit = 0 ∨ 2 < slow.cfg.pollLimit) := by decide
theorem witness_TimeoutAfterPollLimitReads : let s : State := { silent [.poll, .readTmp] with cfg := limit3 }
    s.cfg.ok = true ∧ s.host.rst = [] ∧ s.bus.reset = .deasserted ∧ s.eng.st = .run ∧ s.dev.rdy = .busy ∧ s.eng.seq = .poll :: [.readTmp]
      ∧ s.cfg.pollLimit = 3 ∧ 0 < 3 ∧ ∀ k < 3, statusReady (s.free.byteAt k) = false := by decide
theorem witness_UnboundedPollHangs : let s := silent [.poll, .readTmp]
    s.host.rst = [] ∧ s.bus.reset = .deasserted ∧ s.eng.st = .run ∧ s.dev.rdy = .busy ∧ s.eng.seq = .poll :: [.readTmp]
      ∧ s.cfg.pollLimit = 0 ∧ ∀ k, statusReady (s.free.byteAt k) = false := ⟨rfl, rfl, rfl, rfl, rfl, rfl, silent_never _⟩
theorem witness_StatusReadAnswersReadiness : (running []).dev.rdy = .ready ∧ (0x03 : Byte) &&& 3 = 3 ∧ (0xFF : Byte) &&& 3 = 3 := by decide
theorem witness_DataWriteFillsOperandLatch : ∀ n : Fin 3,
    let s : State := { running [] with dev := { Device.reset with rdy := .ready, nop := n } }
    s.bus.reset = .deasserted ∧ s.dev.rdy = .ready ∧ s.dev.nop = n := fun _ => ⟨rfl, rfl, rfl⟩
theorem witness_DataReadConsumesReadLatch : ({ Device.reset with rdv := true } : Device).rdv = true ∧ Device.reset.rdv = false := by decide
theorem witness_ModeCommandsTakeTheLowFourBits : Config.default.ok = true := by decide
theorem witness_DataWriteCommandsStore : (DeviceCommand.dataWriteDec = .dataWriteDec ∧ (-1 : Int) = -1)
    ∧ (0 : Nat) ≠ ({ Device.reset with ap := 0xFFFF } : Device).ap.toNat := by decide
theorem witness_DataReadCommandsLoadReadLatch : DeviceCommand.dataReadInc = .dataReadInc ∧ (1 : Int) = 1 := by decide
theorem witness_CommandBytesDecode : Config.default.ok = true ∧ commandByte Config.default.cmd (.displayMode 0xC) = 0x9C := by decide
/-- Each clause: held in reset; busy; an unknown byte; a wrong count; an unpopulated address (the first one); the last populated address. -/
theorem witness_CommandWriteStops : State.reset.bus.reset = .asserted
    ∧ (ready.bus.reset = .deasserted ∧ ready.dev.rdy = .busy)
    ∧ (let s := running []
       s.bus.reset = .deasserted ∧ s.dev.rdy = .ready ∧ decodeCommand s.cfg.cmd 0x55 = none
         ∧ decodeCommand s.cfg.cmd 0x24 = some .setAddressPointer ∧ s.dev.nop ≠ DeviceCommand.operands .setAddressPointer)
    ∧ (let s : State := { running [] with cfg := smallRam, dev := { Device.reset with rdy := .ready, ap := 8192 } }
       decodeCommand s.cfg.cmd 0xC5 = some .dataReadNonvar ∧ s.dev.nop = DeviceCommand.operands .dataReadNonvar
         ∧ DeviceCommand.accessesMemory .dataReadNonvar = true ∧ s.cfg.ramSize ≤ s.dev.ap.toNat)
    ∧ (let s : State := { running [] with cfg := smallRam, dev := { Device.reset with rdy := .ready, ap := 8191 } }
       s.dev.nop = DeviceCommand.operands .dataReadNonvar ∧ s.dev.ap.toNat < s.cfg.ramSize) := by decide
theorem witness_OperationsInResetAreRefused : needsDevice (.rect 0 0 240 128 true) = true
    ∧ inRange State.reset.cfg (.rect 0 0 240 128 true) = true ∧ State.reset.cfg.ok = true ∧ State.reset.host.rst = []
    ∧ State.reset.bus.reset = .asserted := by decide
/-- A command without operands, and one that accesses the last populated address. -/
theorem witness_WrcRunsItsCommand : (Serving ready ∧ decodeCommand ready.cfg.cmd 0x97 = some (.displayMode 7)
      ∧ ready.dev.nop = DeviceCommand.operands (.displayMode 7) ∧ DeviceCommand.accessesMemory (.displayMode 7) = false)
    ∧ let s := readyWith { Device.reset with nop := 1, ap := 0xFFFF }
      Serving s ∧ decodeCommand s.cfg.cmd 0xC0 = some .dataWriteInc ∧ s.dev.nop = DeviceCommand.operands .dataWriteInc
        ∧ s.dev.ap.toNat < s.cfg.ramSize :=
  ⟨⟨serving_ready, by decide, by decide, by decide⟩, serving_readyWith _, by decide, by decide, by decide⟩
theorem witness_WrdFillsTheLatch : Serving ready ∧ ready.dev.nop ≠ 2 := ⟨serving_ready, by decide⟩
theorem witness_RawWritesStop : (let s := readyWith { Device.reset with nop := 2 }; Serving s ∧ s.dev.nop = 2)
    ∧ (Serving ready ∧ decodeCommand ready.cfg.cmd 0x55 = none)
    ∧ (Serving ready ∧ decodeCommand ready.cfg.cmd 0x24 = some .setAddressPointer ∧ ready.dev.nop ≠ DeviceCommand.operands .setAddressPointer)
    ∧ (let s : State := { readyWith { Device.reset with ap := 8192 } with cfg := smallRam }
       Serving s ∧ decodeCommand s.cfg.cmd 0xC5 = some .dataReadNonvar ∧ s.dev.nop = DeviceCommand.operands .dataReadNonvar
         ∧ DeviceCommand.accessesMemory .dataReadNonvar = true ∧ s.cfg.ramSize ≤ s.dev.ap.toNat ∧ s.dev.nop = 0) :=
  ⟨⟨serving_readyWith _, rfl⟩, ⟨serving_ready, by decide⟩, ⟨serving_ready, by decide, by decide⟩,
    ⟨by decide, rfl, rfl, responsive_of_after rfl rfl⟩, by decide, by decide, by decide, by decide, rfl⟩
theorem witness_RddReadsAByte : let s := readyWith { Device.reset with rdv := true, rdl := 0x20 }
    Serving s ∧ s.dev.rdv = true := ⟨serving_readyWith _, rfl⟩
theorem witness_RdsReturnsReadyStatus : Serving ready := serving_ready
/-- The reset line asserted, and deasserted. -/
theorem witness_InitProgramsTheDevice :
    (let s : State := { State.reset with free := ready.free }
     s.cfg.ok = true ∧ s.host.rst = [] ∧ Responsive s ∧ s.bus.reset = .asserted)
    ∧ (ready.cfg.ok = true ∧ ready.host.rst = [] ∧ Responsive ready ∧ ready.bus.reset = .deasserted) :=
  ⟨⟨by decide, rfl, responsive_of_after rfl rfl, rfl⟩, by decide, rfl, responsive_of_after rfl rfl, rfl⟩
theorem witness_CloseBlanksAndReleasesTheBus : ReadyToDraw ready := readyToDraw_ready
/-- The corners of the text area, of the display and of the slots. -/
theorem witness_QueriesAnswerAtOnce : ready.cfg.ok = true
    ∧ inText ready.cfg (0#16).toInt (0#16).toInt = true ∧ inText ready.cfg (29#16).toInt (15#16).toInt = true
    ∧ inGraphic ready.cfg (0#16).toInt (0#16).toInt = true ∧ inGraphic ready.cfg (239#16).toInt (127#16).toInt = true
    ∧ inSlots ready.cfg 0 = true ∧ inSlots ready.cfg 255 = true := by decide
theorem witness_SapSetsThePointer : ReadyToDraw ready ∧ inText ready.cfg (29#16).toInt (15#16).toInt = true := ⟨readyToDraw_ready, by decide⟩
theorem witness_ScpSetsTheCursor : ReadyToDraw ready ∧ inText ready.cfg (29#16).toInt (0#16).toInt = true := ⟨readyToDraw_ready, by decide⟩
theorem witness_SorSetsTheOffset : ReadyToDraw ready := readyToDraw_ready
theorem witness_SpxReadsModifiesWrites : ReadyToDraw ready ∧ inGraphic ready.cfg (239#16).toInt (127#16).toInt = true :=
  ⟨readyToDraw_ready, by decide⟩
/-- Each of the three areas: the text area's first address is 0, the graphic area's 480, the generator's 6144. -/
theorem witness_ClearsZeroTheirArea : ReadyToDraw ready ∧ ready.cfg.textHome = 0 ∧ ready.cfg.textSize = 480 ∧ ready.cfg.graphicHome = 480
    ∧ ready.cfg.graphicSize = 3840 ∧ ready.cfg.offsetReg * 2048 = 6144 ∧ ready.cfg.extCgGlyphs * 8 = 2048 ∧ Instr.clg = .clg
    ∧ inGraphic ready.cfg 239 127 = true := by
  refine ⟨readyToDraw_ready, ?_⟩
  decide
theorem witness_DefcStoresTheGlyph : ReadyToDraw ready ∧ inSlots ready.cfg 255 = true ∧ (List.replicate 8 (0xFF : Byte)).length = 8 :=
  ⟨readyToDraw_ready, by decide, by decide⟩
theorem witness_WchStoresTheCharacter : let s := readyWith { Device.reset with ap := 0xFFFF }
    ReadyToDraw s ∧ s.dev.ap.toNat < s.cfg.ramSize := ⟨⟨serving_readyWith _, rfl, rfl, rfl, rfl⟩, by decide⟩
theorem witness_RectDrawsTheOutline : ReadyToDraw ready ∧ rectInRange ready.cfg (0#16).toInt (0#16).toInt (240#16).toInt (128#16).toInt = true
    ∧ rectInRange ready.cfg (239#16).toInt (127#16).toInt (1#16).toInt (1#16).toInt = true := ⟨readyToDraw_ready, by decide, by decide⟩
theorem witness_RectPointsAreTheOutline : (1 : Int) ≤ 1 ∧ (1 : Int) ≤ 3 := by decide
theorem witness_CircDrawsTheCircle : ReadyToDraw ready ∧ circleInRange ready.cfg (8#16).toInt (8#16).toInt (0#16).toInt = true
    ∧ circleInRange ready.cfg (236#16).toInt (8#16).toInt (3#16).toInt = true := ⟨readyToDraw_ready, by decide, by decide⟩
theorem witness_CircleStepsKeepTheirInvariant : (0 : Int) ≤ 5 ∧ (⟨4, 3, -7, 7, 0⟩ : CircleTuple) ∈ circleTuples 6 (CircleTuple.start 5) := by decide
theorem witness_LineDrawsTheLine : ReadyToDraw ready
    ∧ lineInRange ready.cfg (239#16).toInt (127#16).toInt (0#16).toInt (0#16).toInt = true := ⟨readyToDraw_ready, by decide⟩
theorem witness_TranslatorIsInjectiveAndInArea : Config.default.ok = true ∧ inGraphic Config.default 239 127 = true
    ∧ inText Config.default 29 15 = true ∧ inSlots Config.default 255 = true ∧ inGraphic font6 239 127 = true ∧ font6.ok = true
    ∧ inGraphic Config.default 10 5 = true ∧ inGraphic Config.default 10 6 = true ∧ (5 : Int) < 6 ∧ (7 : Int) ≤ 8 := by decide
theorem witness_PixelRoundTrip : ReadyToDraw ready ∧ inGraphic ready.cfg (10#16).toInt (5#16).toInt = true
    ∧ inGraphic ready.cfg 11 5 = true ∧ ((11 : Int), (5 : Int)) ≠ ((10#16).toInt, (5#16).toInt) := ⟨readyToDraw_ready, by decide, by decide, by decide⟩
theorem witness_RawReadReturnsTheByte :
    let s := presenting [encode (.wrd 0xFF), encode (.wrd 0xFF), encode (.wrc 0x24), encode (.wrc 0xC5), encode .rdd]
    ReadyToDraw s ∧ (0xFFFF#16).toNat < s.cfg.ramSize
      ∧ s.host.req = encode (.wrd ((0xFFFF#16).extractLsb' 0 8)) :: encode (.wrd ((0xFFFF#16).extractLsb' 8 8))
          :: encode (.wrc s.cfg.cmd.setAddressPointer) :: encode (.wrc s.cfg.cmd.dataReadNonvar) :: encode .rdd :: [] :=
  ⟨readyToDraw_presenting _, by decide, by decide⟩
theorem witness_SapThenWchWritesTheCell : let s := presenting [encode (.sap 29 15), encode (.wch 0x41)]
    ReadyToDraw s ∧ inText s.cfg (29#16).toInt (15#16).toInt = true ∧ s.host.req = encode (.sap 29 15) :: encode (.wch 0x41) :: [] :=
  ⟨readyToDraw_presenting _, by decide, rfl⟩
theorem witness_StringIsWrittenCellByCell : let s := presenting [encode (.wch 0x48), encode (.wch 0x69)]
    ReadyToDraw s ∧ expandString [0x48, 0x69] = some [.wch 0x48, .wch 0x69] ∧ s.host.req = [Instr.wch 0x48, .wch 0x69].map encode ++ []
      ∧ s.dev.ap.toNat + [0x48, 0x69].length ≤ s.cfg.ramSize := ⟨readyToDraw_presenting _, by decide, rfl, by decide⟩
theorem witness_BootClearsTheScreen :
    let s : State := { State.reset with free := ready.free, host := { State.reset.host with req := [encode .init, encode .clt, encode .clg] } }
    AfterReset s ∧ s.cfg.ok = true ∧ s.host.rst = [] ∧ Responsive s ∧ s.host.req = encode .init :: encode .clt :: encode .clg :: [] :=
  ⟨⟨rfl, rfl, rfl, rfl, rfl, rfl, rfl, rfl, rfl, rfl, rfl⟩, by decide, rfl, responsive_of_after rfl rfl, rfl⟩
theorem witness_CoordinatesTruncateTowardZero : 0 < 2 ∧ truncateOperand (-235) 2 = some (-117) ∧ truncateOperand 65535 2 = some 32767
    ∧ truncateOperand 65536 2 = none ∧ truncateOperand (-65537) 2 = some (-32768) ∧ truncateOperand (-65538) 2 = none := by decide

theorem inv_presenting (ds : List Descriptor) : Machine.Inv (presenting ds) where
  config := default_ok
  canonical := rfl
  inRam := by intro c hc; cases hc
  bofRange := by show (0#8).toNat ≤ 7; decide
  bitRange := by show (0#8).toNat ≤ 7; decide
  errRange := by show (0#4).toNat ≤ 3; decide
  rspRange := by show (0#4).toNat ≤ 3; decide
  running := by show TopState.idle = .run ↔ ([] : List Micro) ≠ []; simp
  faultCode := fun h => by cases h
  linesRest := ⟨rfl, rfl, rfl⟩
  heldReset := fun h => by cases h
  polled := rfl

theorem witness_StepKeepsTheInvariant : Machine.Inv (presenting [encode .init]) ∧ ∃ t, step (presenting [encode .init]) = .next t :=
  ⟨inv_presenting _, _, rfl⟩
theorem witness_EveryTransferFollowsAReadyStatus :
    let s : State := { running [.busWrite true (.lit 0x90)] with trace := [.statusRead 0x03] }
    PolledTrace s ∧ ∃ t, step s = .next t := ⟨⟨by decide, fun _ => ⟨0x03, [], rfl, by decide⟩⟩, _, rfl⟩
theorem witness_NoTransferToABusyDevice : Machine.Inv (presenting [encode .clg]) := inv_presenting _
/-- A step with `rst` high, one that takes a fault, one that ends an operation. -/
theorem witness_FaultRegistersAreWrittenByFaults :
    (let s : State := { ready with host := { State.reset.host with rst := [true] } }
     (∃ t, step s = .next t) ∧ s.host.rst.head? = some true)
    ∧ ((∃ t, step (presenting [0]) = .next t) ∧ (presenting [0]).host.rst.head? ≠ some true)
    ∧ ∃ t, step (running [.busWrite true (.lit 0x90)]) = .next t :=
  ⟨⟨⟨_, rfl⟩, rfl⟩, ⟨⟨_, rfl⟩, by decide⟩, _, rfl⟩
/-- GRA changes both result registers; a data read changes `E.RES`. -/
theorem witness_ResultRegistersHaveFewWriters :
    (∃ t, step (presenting [encode (.gra 0 0)]) = .next t ∧ t.eng.bof ≠ (presenting []).eng.bof ∧ t.eng.res ≠ (presenting []).eng.res)
    ∧ ((presenting [encode (.gra 0 0)]).host.rst.head? ≠ some true)
    ∧ ∃ t, step { running [.readRes false] with dev := { Device.reset with rdy := .ready, rdl := 0x20, rdv := true } } = .next t
        ∧ t.eng.res ≠ Engine.reset.res :=
  ⟨⟨_, rfl, by decide, by decide⟩, by decide, _, rfl, by decide⟩
/-- A data write that changes a byte, and a hardware reset that loses one. -/
theorem witness_MemoryChangesOnlyByDataWrites :
    (let s : State := { running [.busWrite true (.lit 0xC0)] with dev := { Device.reset with rdy := .ready, nop := 1, d1 := 2, ap := 5, mem := [(5, 1)] } }
     ∃ t, step s = .next t ∧ t.memByte 5 ≠ s.memByte 5)
    ∧ (let s : State := { running [.quiesce] with dev := { Device.reset with mem := [(5, Config.unwrittenByte 1 5 + 1)] } }
       ∃ t, step s = .next t ∧ t.memByte 5 ≠ s.memByte 5) := by
  refine ⟨⟨_, rfl, by decide⟩, _, rfl, ?_⟩
  show Config.unwrittenByte 1 5 ≠ Config.unwrittenByte 1 5 + 1
  generalize Config.unwrittenByte 1 5 = b
  revert b
  decide

end Sys2Proof.Tests
end

section
/-! Who writes the fault registers `E.ERR` and `E.EOP` (10_state.md R27): only the taking of a fault, which also adds the response that carries the
code, and engine reset. Between steps the list of responses therefore tells what became of the two registers. -/

namespace Sys2Proof.Machine

/-! ## The two ways a step can treat the fault registers -/

/-- `t` has the responses and the fault registers of `s`. -/
def SameFaultRecord (s t : State) : Prop :=
  t.responses = s.responses ∧ t.eng.err = s.eng.err ∧ t.eng.eop = s.eng.eop

/-- One response was added between `s` and `t`, the operation is over, and the fault registers follow the response's code: unchanged at code 0,
otherwise the code and the opcode byte of the latched descriptor (R27, R323). -/
def RespondedWithRecord (s t : State) : Prop :=
  ∃ r, t.responses = r :: s.responses ∧ r.data = t.eng.res ∧ r.bof = t.eng.bof.extractLsb' 0 3 ∧ t.eng.st ≠ .run
    ∧ ((r.code = 0 ∧ t.eng.err = s.eng.err ∧ t.eng.eop = s.eng.eop)
      ∨ (r.code ≠ 0 ∧ t.eng.err = r.code ∧ t.eng.eop = t.eng.opc))

/-- R27 over one step with `rst` low. -/
def FaultRecordAccounted (s t : State) : Prop := SameFaultRecord s t ∨ RespondedWithRecord s t

theorem SameFaultRecord.refl (s : State) : SameFaultRecord s s := ⟨rfl, rfl, rfl⟩

/-! ## The operations of the model that respond -/

theorem FaultKind.code_ne_zero (k : FaultKind) : k.code ≠ 0 := by cases k <;> decide

theorem FaultKind.stateAfter_ne_run (k : FaultKind) : k.stateAfter ≠ .run := by cases k <;> decide

theorem SameFaultRecord.finish {s u : State} (h : SameFaultRecord s u) : RespondedWithRecord s u.finish := by
  obtain ⟨hresp, herr, heop⟩ := h
  exact ⟨_, by rw [State.finish_responses, hresp], rfl, rfl, TopState.noConfusion, .inl ⟨rfl, herr, heop⟩⟩

theorem SameFaultRecord.takeFault {s u : State} (h : SameFaultRecord s u) (k : FaultKind) : RespondedWithRecord s (u.takeFault k) :=
  ⟨_, by rw [State.takeFault_responses, h.1], rfl, rfl, k.stateAfter_ne_run, .inr ⟨k.code_ne_zero, rfl, rfl⟩⟩

/-- Going on ends the operation or changes the sequencer alone. -/
theorem SameFaultRecord.goto {s u : State} (h : SameFaultRecord s u) (q : List Micro) : FaultRecordAccounted s (u.goto q) := by
  cases q with
  | nil => exact .inr h.finish
  | cons m rest => exact .inl h

/-! ## Transfers -/

theorem busWrite_sameFaultRecord {s t : State} {cd : Bool} {v : Byte} (h : s.busWrite cd v = .next t) : SameFaultRecord s t := by
  obtain ⟨_, _, ⟨_, _, rfl⟩ | ⟨c, _, _, _, _, rfl⟩⟩ := busWrite_cases h
  · exact .refl s
  · exact .refl s

/-- Of all the sequencer's steps a pass of a poll alone takes a fault (R313). -/
theorem pollPass_faultRecord {s t : State} {rest : List Micro} (h : pollPass rest s = .next t) : FaultRecordAccounted s t := by
  have hread : SameFaultRecord s (s.statusRead.setEng { s.eng with pcnt := s.eng.pcnt + 1, seq := .pollAgain :: rest }) := .refl s
  obtain ⟨_, ⟨_, rfl⟩ | ⟨_, rfl | rfl⟩⟩ := pollPass_cases h
  · exact SameFaultRecord.goto (u := s.statusRead) (.refl s) rest
  · exact .inl hread
  · exact .inr (hread.takeFault .deviceTimeout)

/-! ## One step -/

/-- A step that leaves the fault record alone before it goes on gives account of it. -/
theorem faultRecord_of_goto {m : Micro} {rest q : List Micro} {s t u : State} (h : microStep m rest s = .next t)
    (hgo : microStep m rest s = .next (u.goto q)) (hu : SameFaultRecord s u) : FaultRecordAccounted s t := by
  rw [h] at hgo
  cases hgo
  exact hu.goto q

theorem internal_faultRecord {m : Micro} {rest : List Micro} {s t : State} (hm : m.isInternal = true) (h : microStep m rest s = .next t) :
    FaultRecordAccounted s t := by
  obtain ⟨x, tmp, bit, q, hgo, _, _⟩ := microStep_internal rest s hm
  exact faultRecord_of_goto h hgo (.refl s)

/-- A step of the running operation: a pass of a poll may take a fault, every other step leaves the fault record alone before it goes on. -/
theorem microStep_faultRecord {m : Micro} {rest : List Micro} {s t : State} (h : microStep m rest s = .next t) :
    FaultRecordAccounted s t := by
  cases m with
  | poll => exact (pollPass_faultRecord h :)
  | pollAgain => exact pollPass_faultRecord h
  | busWrite cd v =>
    obtain ⟨u, hu, rfl⟩ := writeStep_cases h
    exact (busWrite_sameFaultRecord hu).goto rest
  | readTmp =>
    obtain ⟨_, _, rfl⟩ := readTmpStep_cases h
    exact SameFaultRecord.goto ⟨rfl, rfl, rfl⟩ rest
  | readRes cd =>
    obtain ⟨_, _, ⟨_, rfl⟩ | ⟨_, rfl⟩⟩ := readResStep_cases h
    · exact SameFaultRecord.goto ⟨rfl, rfl, rfl⟩ rest
    · exact SameFaultRecord.goto ⟨rfl, rfl, rfl⟩ rest
  | assertReset => exact faultRecord_of_goto h rfl ⟨rfl, rfl, rfl⟩
  | releaseReset => exact faultRecord_of_goto h rfl ⟨rfl, rfl, rfl⟩
  | quiesce => exact faultRecord_of_goto h rfl ⟨rfl, rfl, rfl⟩
  | _ => exact internal_faultRecord (by rfl) h

/-- An acceptance starts the operation, answers it or rejects it (R110, R320). -/
theorem acceptDescriptor_faultRecord {d : Descriptor} {s t : State} (h : acceptDescriptor d s = .next t) : FaultRecordAccounted s t := by
  have hacc (d : Descriptor) : SameFaultRecord s (s.accepted d) := .refl s
  unfold acceptDescriptor at h
  split at h
  case h_1 i _ =>
    obtain ⟨m, rest, _, hexec⟩ | ⟨res, bof, _, _, hexec⟩ | hexec := exec_cases i s <;> rw [hexec] at h <;> cases h
    · exact .inl (hacc (encode i))
    · exact .inr (SameFaultRecord.finish (hacc (encode i)))
    · exact .inr ((hacc (encode i)).takeFault .coordinateOutOfRange)
  case h_2 =>
    cases h
    exact .inr ((hacc d).takeFault .illegalOperation)

/-- Settles O57, by the cases of a step: engine reset clears the two registers, and every other step gives account of them. -/
theorem faultRegistersAreWrittenByFaults : Obligations.FaultRegistersAreWrittenByFaults := by
  unfold Obligations.FaultRegistersAreWrittenByFaults
  intro s t h
  obtain ⟨later, hrst, rfl⟩ | ⟨v, rfl, hlow, hstep⟩ := step_cases h
  · exact ⟨fun _ => ⟨rfl, rfl, rfl⟩, fun hlow => absurd (congrArg List.head? hrst) hlow⟩
  · refine ⟨fun hhigh => absurd hhigh hlow, fun _ => ?_⟩
    change FaultRecordAccounted s t
    obtain ⟨_, ⟨m, rest, _, hm⟩ | ⟨_, rfl⟩⟩ | ⟨_, d, ds, _, hd⟩ | ⟨_, _, rfl⟩ | ⟨_, rfl⟩ := hstep
    · exact (microStep_faultRecord hm :)
    · exact .inr (SameFaultRecord.finish (.refl s))
    · exact (acceptDescriptor_faultRecord hd :)
    · exact .inl (.refl s)
    · exact .inl (.refl s)

end Sys2Proof.Machine
end

section
/-! The data transactions of the device (41_device_commands.md R173, R174): the operand latch that data writes fill, the read latch that a data read
consumes, and the lines each transaction leaves (40_protocol.md R148, R149). -/

namespace Sys2Proof.Machine

/-! ## The lines at rest after a transaction -/

theorem Bus.perform_writeCalls (b : Bus) (cd : Bool) (v : Byte) :
    b.perform (writeCalls cd v) = { b with ce := .high, cd := cd, wr := .deasserted, dir := .output, dout := v } := rfl

theorem Bus.perform_readCalls (b : Bus) (cd : Bool) :
    b.perform (readCalls cd) = { b with ce := .high, cd := cd, rd := .deasserted, dir := .input } := rfl

/-! ## The operand latch -/

theorem Device.afterData_first {d : Device} (v : Byte) (h : d.nop = 0) : d.afterData v = { d with d1 := v, nop := 1, rdy := .busy } :=
  if_pos h

theorem Device.afterData_second {d : Device} (v : Byte) (h : d.nop = 1) : d.afterData v = { d with d2 := v, nop := 2, rdy := .busy } :=
  if_neg (by simp [h])

/-- The third byte is what U4 leaves without a meaning; with `busWrite_data` this says all a data write to a ready device can do. -/
theorem busWrite_data_full {s : State} (v : Byte) (hb : s.bus.reset = .deasserted) (hr : s.dev.rdy = .ready) (hn : s.dev.nop = 2) :
    s.busWrite false v = .refused .operandLatchFull := by
  simp [State.busWrite, transferBlocked_none hb hr, State.dataWrite, hn]

/-- Settles O16: a latch with room takes the byte at its count (`busWrite_data`), a full one refuses it. -/
theorem dataWriteFillsOperandLatch : Obligations.DataWriteFillsOperandLatch := by
  unfold Obligations.DataWriteFillsOperandLatch
  intro s v hb hr
  refine ⟨fun h0 => ?roomForFirst, fun h1 => ?roomForSecond, busWrite_data_full v hb hr⟩
  case roomForFirst =>
    rw [busWrite_data hb hr (by simp [h0]), Device.afterData_first v h0, Bus.perform_writeCalls]
  case roomForSecond =>
    rw [busWrite_data hb hr (by simp [h1]), Device.afterData_second v h1, Bus.perform_writeCalls]

/-! ## The read latch -/

theorem State.dataByte_of_pending {s : State} (h : s.dev.rdv = true) : s.dataByte = s.dev.rdl := if_pos h

theorem State.dataByte_of_not_pending {s : State} (h : s.dev.rdv = false) : s.dataByte = s.free.next := if_neg (by simp [h])

/-- Any byte can be the next free choice. -/
theorem Choices.next_given_cons (f : Choices) (b : Byte) (bs : List Byte) : ({ f with given := b :: bs } : Choices).next = b := rfl

/-- Settles O17: a pending read answers the latch, and with none pending the byte is the next free choice, which can be any. -/
theorem dataReadConsumesReadLatch : Obligations.DataReadConsumesReadLatch := by
  unfold Obligations.DataReadConsumesReadLatch
  intro s
  refine ⟨s.dataRead_dev, s.dataRead_eng, s.dataRead_trace, ?lines, State.dataByte_of_pending, fun hno b => ⟨[b], ?anyByte⟩⟩
  case lines => rw [State.dataRead_bus, Bus.perform_readCalls]
  case anyByte =>
    rw [State.dataByte_of_not_pending (by exact hno), State.setFree_free, Choices.next_given_cons]

end Sys2Proof.Machine
end

section
/-! The opcode map as a table (30_encoding.md R101 to R105): no two rows share an opcode and every mask covers the opcode, so a descriptor is admitted by at
most the row the decoder looks up; and an admitted descriptor is, field by field, the encoding of the operation its row builds. -/

namespace Sys2Proof.Machine

/-! ## Looking a row up -/

theorem find_of_nodup_map {α β : Type} [BEq β] [LawfulBEq β] (f : α → β) {l : List α} (hl : (l.map f).Nodup) {a : α} (ha : a ∈ l) :
    l.find? (fun x => f x == f a) = some a := by
  induction l with
  | nil => cases ha
  | cons b l ih =>
    obtain ⟨hb, hl⟩ := List.nodup_cons.mp hl
    rcases List.mem_cons.mp ha with rfl | ha
    · simp
    · have hne : f b ≠ f a := fun e => hb (e ▸ List.mem_map_of_mem ha)
      rw [List.find?_cons_of_neg (by simpa using hne), ih hl ha]

theorem opcodes_nodup : (opcodeMap.map Row.opc).Nodup := by decide

/-- Every format's mask covers the opcode (R104). -/
theorem Format.mask_opc (f : Format) : Descriptor.opc f.mask = 0xFF := by cases f <;> decide

theorem Row.opc_of_admits {r : Row} {d : Descriptor} (h : r.admits d = true) : d.opc = r.opc := by
  have hmask : d &&& r.format.mask = descriptorOf r.opc 0 0 0 0 0 := by rw [← matchValue_eq]; exact eq_of_beq h
  calc d.opc = d.opc &&& r.format.mask.opc := by rw [Format.mask_opc, byte_and_ones]
    _ = Descriptor.opc (d &&& r.format.mask) := BitVec.extractLsb'_and.symm
    _ = r.opc := by rw [hmask, descriptorOf_opc]

/-- A row that admits a descriptor is the one the decoder looks up. -/
theorem find_of_admits {r : Row} {d : Descriptor} (hr : r ∈ opcodeMap) (h : r.admits d = true) :
    opcodeMap.find? (fun x => x.opc == d.opc) = some r := by
  rw [Row.opc_of_admits h]
  exact find_of_nodup_map Row.opc opcodes_nodup hr

theorem decode_of_admits {r : Row} {d : Descriptor} (hr : r ∈ opcodeMap) (h : r.admits d = true) : decode d = .ok (r.build d) := by
  unfold decode
  rw [find_of_admits hr h]
  exact if_pos h

/-- What a decoded descriptor has been looked up by (R104). -/
theorem decode_eq_ok_iff {d : Descriptor} {i : Instr} : decode d = .ok i ↔ ∃ r ∈ opcodeMap, r.admits d = true ∧ r.build d = i := by
  constructor
  · intro h
    unfold decode at h
    split at h
    case h_1 => cases h
    case h_2 r hfind =>
      split at h
      case isTrue hadm => exact ⟨r, List.mem_of_find?_eq_some hfind, hadm, by injection h⟩
      case isFalse => cases h
  · rintro ⟨r, hr, hadm, rfl⟩
    exact decode_of_admits hr hadm

theorem decode_error_of_no_row {d : Descriptor} (h : ∀ r ∈ opcodeMap, r.admits d = false) : ∃ e, decode d = .error e := by
  cases hd : decode d with
  | error e => exact ⟨e, rfl⟩
  | ok i =>
    obtain ⟨r, hr, hadm, _⟩ := decode_eq_ok_iff.mp hd
    rw [h r hr] at hadm
    cases hadm

/-- Settles O3: a row's mask and match value decide, and the mask covers the opcode. -/
theorem descriptorSelectsByMaskAndMatch : Obligations.DescriptorSelectsByMaskAndMatch := by
  unfold Obligations.DescriptorSelectsByMaskAndMatch
  refine ⟨fun d i => ?_, fun d r _ r' _ h h' => (Row.opc_of_admits h).symm.trans (Row.opc_of_admits h')⟩
  rw [decode_eq_ok_iff]
  simp only [Row.admits, Row.matchValue, beq_iff_eq]

/-! ## Encoding, then decoding -/

/-- The row looked up under an encoding's opcode reads the operation back if its build does. -/
theorem decode_encode_of_find {i : Instr} {r : Row} (hfits : Laws.EncodingFitsTable.Statement i) {opc : Byte} (hopc : (encode i).opc = opc)
    (hfind : opcodeMap.find? (fun x => x.opc == opc) = some r) (hbuild : r.build (encode i) = i) : decode (encode i) = .ok i := by
  obtain ⟨r', hr', hadm⟩ := hfits
  have he : some r' = some r := by rw [← find_of_admits hr' hadm, hopc, hfind]
  cases he
  rw [decode_of_admits hr' hadm, hbuild]

theorem descriptorOf_colorField (o : Byte) (color : Bool) (a b c d : Half) : (descriptorOf o (colorField color) a b c d).color = color := by
  rw [descriptorOf_color, colorField_bit]

/-- Format G carries the glyph (R108). -/
theorem glyph_encode (slot : Byte) {glyph : List Byte} (h : glyph.length = 8) : (encode (.defc slot glyph)).glyph = glyph := by
  rw [descriptor_glyph]
  exact latch_glyph Engine.reset slot h

section
open Laws.EncodingFitsTable

/-- Settles O1, operation by operation: its row is found under its opcode and reads every operand field back. -/
theorem decodeOfEncodeIsIdentity : Obligations.DecodeOfEncodeIsIdentity := by
  unfold Obligations.DecodeOfEncodeIsIdentity
  intro i hwf
  cases i with
  | wrc v => exact decode_encode_of_find (wrc v) (descriptorOf_opc ..) rfl (by simp [encode])
  | wrd v => exact decode_encode_of_find (wrd v) (descriptorOf_opc ..) rfl (by simp [encode])
  | rdd => exact decode_encode_of_find rdd (descriptorOf_opc ..) rfl rfl
  | rds => exact decode_encode_of_find rds (descriptorOf_opc ..) rfl rfl
  | init => exact decode_encode_of_find init (descriptorOf_opc ..) rfl rfl
  | close => exact decode_encode_of_find close (descriptorOf_opc ..) rfl rfl
  | txa x y => exact decode_encode_of_find (txa x y) (descriptorOf_opc ..) rfl (by simp [encode])
  | gra x y => exact decode_encode_of_find (gra x y) (descriptorOf_opc ..) rfl (by simp [encode])
  | cga slot => exact decode_encode_of_find (cga slot) (descriptorOf_opc ..) rfl (by simp [encode])
  | sap x y => exact decode_encode_of_find (sap x y) (descriptorOf_opc ..) rfl (by simp [encode])
  | scp x y => exact decode_encode_of_find (scp x y) (descriptorOf_opc ..) rfl (by simp [encode])
  | sor v => exact decode_encode_of_find (sor v) (descriptorOf_opc ..) rfl (by simp [encode])
  | spx x y color => exact decode_encode_of_find (spx x y color) (descriptorOf_opc ..) rfl (by simp [encode, descriptorOf_colorField])
  | clt => exact decode_encode_of_find clt (descriptorOf_opc ..) rfl rfl
  | clg => exact decode_encode_of_find clg (descriptorOf_opc ..) rfl rfl
  | clc => exact decode_encode_of_find clc (descriptorOf_opc ..) rfl rfl
  | defc slot glyph =>
    have hglyph := glyph_encode slot (eq_of_beq hwf)
    exact decode_encode_of_find (defc slot glyph) (descriptorOf_opc ..) rfl (by simp only [hglyph]; simp [encode])
  | wch ch => exact decode_encode_of_find (wch ch) (descriptorOf_opc ..) rfl (by simp [encode])
  | rect x y w h color => exact decode_encode_of_find (rect x y w h color) (descriptorOf_opc ..) rfl (by simp [encode, descriptorOf_colorField])
  | circ cx cy r color => exact decode_encode_of_find (circ cx cy r color) (descriptorOf_opc ..) rfl (by simp [encode, descriptorOf_colorField])
  | line x1 y1 x2 y2 color =>
    exact decode_encode_of_find (line x1 y1 x2 y2 color) (descriptorOf_opc ..) rfl (by simp [encode, descriptorOf_colorField])

end

/-! ## Decoding, then encoding -/

/-- A descriptor is its six fields (R101). -/
theorem descriptorOf_eta (d : Descriptor) : descriptorOf d.opc d.aux d.a d.b d.c d.d = d := by
  apply BitVec.eq_of_getLsbD_eq
  intro i hi
  simp only [descriptorOf, Descriptor.opc, Descriptor.aux, Descriptor.a, Descriptor.b, Descriptor.c, Descriptor.d, BitVec.getLsbD_append,
    BitVec.getLsbD_extractLsb']
  grind

theorem descriptorOf_inj {o x o' x' : Byte} {a b c d a' b' c' d' : Half} (h : descriptorOf o x a b c d = descriptorOf o' x' a' b' c' d') :
    o = o' ∧ x = x' ∧ a = a' ∧ b = b' ∧ c = c' ∧ d = d' := by
  refine ⟨?_, ?_, ?_, ?_, ?_, ?_⟩
  · simpa using congrArg Descriptor.opc h
  · simpa using congrArg Descriptor.aux h
  · simpa using congrArg Descriptor.a h
  · simpa using congrArg Descriptor.b h
  · simpa using congrArg Descriptor.c h
  · simpa using congrArg Descriptor.d h

/-- What a mask written field by field lets through (R104). -/
theorem fields_of_admits {r : Row} {d : Descriptor} (h : r.admits d = true) {mx : Byte} {ma mb mc md : Half}
    (hmask : r.format.mask = descriptorOf 0xFF mx ma mb mc md) :
    d.opc = r.opc ∧ d.aux &&& mx = 0 ∧ d.a &&& ma = 0 ∧ d.b &&& mb = 0 ∧ d.c &&& mc = 0 ∧ d.d &&& md = 0 := by
  have e : d &&& r.format.mask = r.matchValue := eq_of_beq h
  rw [hmask, matchValue_eq, ← descriptorOf_eta d, descriptorOf_and, byte_and_ones] at e
  simpa using descriptorOf_inj e

/-- An `aux` whose reserved bits are zero is a color field (R102, R107). -/
theorem colorField_of_reserved {x : Byte} (h : x &&& 0xFE = 0) : colorField (x.getLsbD 0) = x := by
  revert x
  decide

theorem Descriptor.color_eq (d : Descriptor) : d.color = d.aux.getLsbD 0 := by
  simp [Descriptor.color, Descriptor.aux]

theorem glyphField_glyph (d : Descriptor) :
    glyphField d.glyph 0 = d.a ∧ glyphField d.glyph 2 = d.b ∧ glyphField d.glyph 4 = d.c ∧ glyphField d.glyph 6 = d.d := by
  rw [descriptor_glyph]
  exact ⟨assemble_bytes d.a, assemble_bytes d.b, assemble_bytes d.c, assemble_bytes d.d⟩

/-! A descriptor admitted by a row, written with the fields the row's format leaves to the operands (R102, R104). -/

section
variable {r : Row} {d : Descriptor} (h : r.admits d = true)
include h

theorem descriptor_of_admits_N (hf : r.format = .N) : descriptorOf r.opc 0 0 0 0 0 = d := by
  obtain ⟨ho, hx, ha, hb, hc, hd⟩ := fields_of_admits h (by rw [hf, mask_N])
  rw [byte_and_ones] at hx
  rw [half_and_ones] at ha hb hc hd
  simpa only [ho, hx, ha, hb, hc, hd] using descriptorOf_eta d

theorem descriptor_of_admits_V (hf : r.format = .V) : descriptorOf r.opc d.aux 0 0 0 0 = d := by
  obtain ⟨ho, _, ha, hb, hc, hd⟩ := fields_of_admits h (by rw [hf, mask_V])
  rw [half_and_ones] at ha hb hc hd
  simpa only [ho, ha, hb, hc, hd] using descriptorOf_eta d

theorem descriptor_of_admits_P (hf : r.format = .P) : descriptorOf r.opc 0 d.a d.b 0 0 = d := by
  obtain ⟨ho, hx, _, _, hc, hd⟩ := fields_of_admits h (by rw [hf, mask_P])
  rw [byte_and_ones] at hx
  rw [half_and_ones] at hc hd
  simpa only [ho, hx, hc, hd] using descriptorOf_eta d

theorem descriptor_of_admits_PC (hf : r.format = .PC) : descriptorOf r.opc (colorField d.color) d.a d.b 0 0 = d := by
  obtain ⟨ho, hx, _, _, hc, hd⟩ := fields_of_admits h (by rw [hf, mask_PC])
  rw [half_and_ones] at hc hd
  rw [Descriptor.color_eq, colorField_of_reserved hx]
  simpa only [ho, hc, hd] using descriptorOf_eta d

theorem descriptor_of_admits_T (hf : r.format = .T) : descriptorOf r.opc (colorField d.color) d.a d.b d.c 0 = d := by
  obtain ⟨ho, hx, _, _, _, hd⟩ := fields_of_admits h (by rw [hf, mask_T])
  rw [half_and_ones] at hd
  rw [Descriptor.color_eq, colorField_of_reserved hx]
  simpa only [ho, hd] using descriptorOf_eta d

theorem descriptor_of_admits_Q (hf : r.format = .Q) : descriptorOf r.opc (colorField d.color) d.a d.b d.c d.d = d := by
  obtain ⟨ho, hx, _⟩ := fields_of_admits h (by rw [hf, mask_Q])
  rw [Descriptor.color_eq, colorField_of_reserved hx]
  simpa only [ho] using descriptorOf_eta d

theorem descriptor_of_admits_G (hf : r.format = .G) :
    descriptorOf r.opc d.aux (glyphField d.glyph 0) (glyphField d.glyph 2) (glyphField d.glyph 4) (glyphField d.glyph 6) = d := by
  obtain ⟨ho, _⟩ := fields_of_admits h (by rw [hf, mask_G])
  obtain ⟨ga, gb, gc, gd⟩ := glyphField_glyph d
  simpa only [ho, ga, gb, gc, gd] using descriptorOf_eta d

end

/-- Every row builds a well-formed operation, and the descriptor it admits is that operation's encoding. -/
theorem encode_build_of_admits {r : Row} {d : Descriptor} (hr : r ∈ opcodeMap) (h : r.admits d = true) :
    (r.build d).wellFormed = true ∧ encode (r.build d) = d := by
  simp only [opcodeMap, List.mem_cons, List.not_mem_nil, or_false] at hr
  rcases hr with rfl | rfl | rfl | rfl | rfl | rfl | rfl | rfl | rfl | rfl | rfl | rfl | rfl | rfl | rfl | rfl | rfl | rfl | rfl | rfl | rfl
  iterate 2 exact ⟨rfl, (descriptor_of_admits_V h rfl :)⟩
  iterate 4 exact ⟨rfl, (descriptor_of_admits_N h rfl :)⟩
  iterate 2 exact ⟨rfl, (descriptor_of_admits_P h rfl :)⟩
  exact ⟨rfl, (descriptor_of_admits_V h rfl :)⟩
  iterate 2 exact ⟨rfl, (descriptor_of_admits_P h rfl :)⟩
  exact ⟨rfl, (descriptor_of_admits_V h rfl :)⟩
  exact ⟨rfl, (descriptor_of_admits_PC h rfl :)⟩
  iterate 3 exact ⟨rfl, (descriptor_of_admits_N h rfl :)⟩
  exact ⟨rfl, (descriptor_of_admits_G h rfl :)⟩
  exact ⟨rfl, (descriptor_of_admits_V h rfl :)⟩
  exact ⟨rfl, (descriptor_of_admits_Q h rfl :)⟩
  exact ⟨rfl, (descriptor_of_admits_T h rfl :)⟩
  exact ⟨rfl, (descriptor_of_admits_Q h rfl :)⟩

/-- Settles O2: the row that decoded the descriptor admits it, and what a row admits is an encoding. -/
theorem legalDescriptorReencodes : Obligations.LegalDescriptorReencodes := by
  unfold Obligations.LegalDescriptorReencodes
  intro d i h
  obtain ⟨r, hr, hadm, rfl⟩ := decode_eq_ok_iff.mp h
  exact encode_build_of_admits hr hadm

/-- A word that is an operation's encoding decodes to it. -/
theorem decode_of_encode_eq {i : Instr} {d : Descriptor} (hwf : i.wellFormed = true) (h : encode i = d) : decode d = .ok i :=
  h ▸ decodeOfEncodeIsIdentity i hwf

/-- Settles O4: each legal word is the encoding of its operation, and the three illegal ones match no row. -/
theorem sampleDescriptorsDecode : Obligations.SampleDescriptorsDecode := by
  unfold Obligations.SampleDescriptorsDecode
  refine ⟨decode_of_encode_eq rfl ?_, decode_of_encode_eq rfl ?_, decode_of_encode_eq rfl ?_, decode_of_encode_eq rfl ?_,
    decode_of_encode_eq rfl ?_, decode_of_encode_eq rfl ?_, decode_of_encode_eq rfl ?_, ?_, ?_, ?_⟩ <;> decide

/-! ## Accepting a descriptor (R48, R110) -/

theorem acceptDescriptor_of_ok {d : Descriptor} {i : Instr} (s : State) (h : decode d = .ok i) : acceptDescriptor d s = exec i s := by
  unfold acceptDescriptor
  rw [h]

theorem acceptDescriptor_of_error {d : Descriptor} {e : DecodeError} (s : State) (h : decode d = .error e) :
    acceptDescriptor d s = .next ((s.accepted d).takeFault .illegalOperation) := by
  unfold acceptDescriptor
  rw [h]

/-- Settles O5: an idle engine accepts the descriptor, and what decodes is an encoding. -/
theorem stepRunsDecodedInstr : Obligations.StepRunsDecodedInstr := by
  unfold Obligations.StepRunsDecodedInstr
  intro s d ds i hrst hidle hreq hdec
  refine ⟨(legalDescriptorReencodes d i hdec).1, ?_⟩
  rw [step_idle_accept hrst hidle hreq, acceptDescriptor_of_ok _ hdec]

/-- Settles O6: without a row there is no operation, and the fault taken is IllegalOperation. -/
theorem illegalDescriptorRejected : Obligations.IllegalDescriptorRejected := by
  unfold Obligations.IllegalDescriptorRejected
  intro s d ds hrst hidle hreq hno
  obtain ⟨e, he⟩ := decode_error_of_no_row hno
  rw [step_idle_accept hrst hidle hreq, acceptDescriptor_of_error _ he]
  rfl

end Sys2Proof.Machine
end

section
/-! What one step can do, said once: the outcomes of a step of the running operation, of an acceptance and of the machine. The rules about every step
(10_state.md R21 to R28, R48; 20_memory.md R84, R85; 41_device_commands.md R193, R194) follow by going through these outcomes. -/

namespace Sys2Proof.Machine

/-! ## The outcomes of a step of the running operation -/

/-- What the step `m` of an operation with `rest` to do after it makes of `s`. -/
inductive Moves (s : State) (rest : List Micro) : Micro → State → Prop
  /-- a step inside the engine -/
  | inside {m : Micro} (x : Vector Word 16) (tmp bit : Byte) (q : List Micro) (hm : m.isInternal = true)
      (hbit : bit = s.eng.bit ∨ ∃ px, bit = BitVec.ofInt 8 (bitOffset s.cfg px))
      (hq : polledBefore false rest = true → polledBefore false q = true) :
      Moves s rest m ((s.setEng { s.eng with x := x, tmp := tmp, bit := bit }).goto q)
  /-- a pass of a poll that finds the device ready -/
  | found {m : Micro} (p : Word) (hm : m.isPoll = true) (hr : s.bus.reset = .deasserted) (hb : statusReady s.statusByte = true) :
      Moves s rest m ((s.statusRead.setEng { s.eng with pcnt := p }).goto rest)
  /-- a pass of a poll after which the poll goes on -/
  | again {m : Micro} (p : Word) (hm : m.isPoll = true) (hr : s.bus.reset = .deasserted) (hb : statusReady s.statusByte = false) :
      Moves s rest m (s.statusRead.setEng { s.eng with pcnt := p, seq := .pollAgain :: rest })
  /-- a pass of a poll that reaches the limit -/
  | timeout {m : Micro} (p : Word) (hm : m.isPoll = true) (hr : s.bus.reset = .deasserted) (hb : statusReady s.statusByte = false) :
      Moves s rest m ((s.statusRead.setEng { s.eng with pcnt := p, seq := .pollAgain :: rest }).takeFault .deviceTimeout)
  /-- a data write -/
  | data (v : Source) (hr : s.bus.reset = .deasserted) (hy : s.dev.rdy = .ready) :
      Moves s rest (.busWrite false v) (State.goto { s with
        dev := s.dev.afterData (v.value s.eng), bus := s.bus.perform (writeCalls false (v.value s.eng))
        trace := .dataWrite (v.value s.eng) :: s.trace } rest)
  /-- a command write -/
  | command (v : Source) (c : DeviceCommand) (hr : s.bus.reset = .deasserted) (hy : s.dev.rdy = .ready)
      (hc : decodeCommand s.cfg.cmd (v.value s.eng) = some c) (hp : c.accessesMemory = true → s.dev.ap.toNat < s.cfg.ramSize) :
      Moves s rest (.busWrite true v) (State.goto { s with
        dev := s.dev.runCommand s.free.memGen c, bus := s.bus.perform (writeCalls true (v.value s.eng))
        trace := .commandWrite (v.value s.eng) :: s.trace } rest)
  /-- the data read of a pixel -/
  | tmp (hr : s.bus.reset = .deasserted) (hy : s.dev.rdy = .ready) :
      Moves s rest .readTmp ((s.dataRead.setEng { s.eng with tmp := s.dataByte }).goto rest)
  /-- the data read of RDD -/
  | resData (hr : s.bus.reset = .deasserted) (hy : s.dev.rdy = .ready) :
      Moves s rest (.readRes false) ((s.dataRead.setEng { s.eng with res := s.dataByte.setWidth 16 }).goto rest)
  /-- the status read of RDS -/
  | resStatus (hr : s.bus.reset = .deasserted) (hy : s.dev.rdy = .ready) :
      Moves s rest (.readRes true) ((s.statusRead.setEng { s.eng with res := s.statusByte.setWidth 16 }).goto rest)
  /-- INIT asserts the reset line -/
  | assertReset : Moves s rest .assertReset ((s.resetDevice.setBus { s.bus with reset := .asserted }).goto rest)
  /-- INIT releases it -/
  | releaseReset : Moves s rest .releaseReset ((s.setBus { s.bus with reset := .deasserted }).goto rest)
  /-- CLOSE puts the lines to rest -/
  | quiesce : Moves s rest .quiesce ((s.resetDevice.setBus Bus.quiescent).goto rest)

theorem pollPass_moves {s t : State} {rest : List Micro} {m : Micro} (p : Word) (hm : m.isPoll = true)
    (h : pollPass rest (s.setEng { s.eng with pcnt := p }) = .next t) : Moves s rest m t := by
  obtain ⟨hr, ⟨hb, rfl⟩ | ⟨hb, rfl | rfl⟩⟩ := pollPass_cases h
  · exact .found p hm hr hb
  · exact .again (p + 1) hm hr hb
  · exact .timeout (p + 1) hm hr hb

theorem writeStep_moves {s t : State} {rest : List Micro} {cd : Bool} {v : Source} (h : writeStep cd v rest s = .next t) :
    Moves s rest (.busWrite cd v) t := by
  obtain ⟨u, hu, rfl⟩ := writeStep_cases h
  obtain ⟨hr, hy, ⟨rfl, _, rfl⟩ | ⟨c, rfl, hc, _, hp, rfl⟩⟩ := busWrite_cases hu
  · exact .data v hr hy
  · exact .command v c hr hy hc hp

theorem internal_moves {s t : State} {rest : List Micro} {m : Micro} (hm : m.isInternal = true) (h : microStep m rest s = .next t) :
    Moves s rest m t := by
  obtain ⟨x, tmp, bit, q, hgo, hbit, hq⟩ := microStep_internal rest s hm
  rw [h] at hgo
  cases hgo
  exact .inside x tmp bit q hm hbit hq

/-- Every step of the running operation that answers is one of the moves. -/
theorem microStep_moves {s t : State} {rest : List Micro} {m : Micro} (h : microStep m rest s = .next t) : Moves s rest m t := by
  cases m with
  | poll => exact pollPass_moves 0 rfl h
  | pollAgain => exact pollPass_moves s.eng.pcnt rfl h
  | busWrite cd v => exact writeStep_moves h
  | readTmp =>
    obtain ⟨hr, hy, rfl⟩ := readTmpStep_cases h
    exact .tmp hr hy
  | readRes cd =>
    obtain ⟨hr, hy, ⟨rfl, rfl⟩ | ⟨rfl, rfl⟩⟩ := readResStep_cases h
    · exact .resStatus hr hy
    · exact .resData hr hy
  | assertReset => cases h; exact .assertReset
  | releaseReset => cases h; exact .releaseReset
  | quiesce => cases h; exact .quiesce
  | _ => exact internal_moves rfl h

/-! ## The outcomes of an acceptance and of a step -/

/-- The queries (R217 to R219). -/
def IsQuery (i : Instr) : Prop := (∃ x y, i = .txa x y) ∨ (∃ x y, i = .gra x y) ∨ ∃ slot, i = .cga slot

/-- What accepting the descriptor `d` makes of `s`. -/
inductive Accepts (s : State) (d : Descriptor) : State → Prop
  /-- the operation begins -/
  | begins {i : Instr} (m : Micro) (rest : List Micro) (hd : decode d = .ok i) (hq : polledBefore false (m :: rest) = true) :
      Accepts s d ((s.begun i).goto (m :: rest))
  /-- a query is answered -/
  | answers {i : Instr} (res : Half) (bof : Byte) (hd : decode d = .ok i) (hi : IsQuery i)
      (hbof : bof = s.eng.bof ∨ ((∃ x y, i = .gra x y) ∧ ∃ px, bof = BitVec.ofInt 8 (bitOffset s.cfg px))) :
      Accepts s d ((s.accepted (encode i)).setEng { s.eng.latch (encode i) with res := res, bof := bof }).finish
  /-- the descriptor is rejected -/
  | rejects (d' : Descriptor) (k : FaultKind) : Accepts s d ((s.accepted d').takeFault k)

theorem acceptDescriptor_accepts {s t : State} {d : Descriptor} (h : acceptDescriptor d s = .next t) : Accepts s d t := by
  cases hd : decode d with
  | error e =>
    rw [acceptDescriptor_of_error s hd] at h
    cases h
    exact .rejects d .illegalOperation
  | ok i =>
    rw [acceptDescriptor_of_ok s hd] at h
    obtain ⟨m, rest, hq, he⟩ | ⟨res, bof, hbof, hi, he⟩ | he := exec_cases i s <;> rw [he] at h <;> cases h
    · exact .begins m rest hd hq
    · exact .answers res bof hd hi hbof
    · exact .rejects (encode i) .coordinateOutOfRange

/-- `s` with the current `rst` level used up. -/
def State.tick (s : State) : State := s.setHost { s.host with rst := s.host.rst.tail }

/-- With no level of `rst` listed there is none to use up. -/
theorem tick_of_nil {s : State} (h : s.host.rst = []) : s.tick = s := by
  unfold State.tick
  rw [h, List.tail_nil, ← h]
  rfl

theorem step_high {s : State} (h : s.host.rst.head? = some true) : step s = .next s.tick.engineReset := by
  obtain ⟨later, hrst⟩ := List.head?_eq_some_iff.mp h
  simp [step, cycle, State.tick, hrst]

theorem step_low {s : State} (h : s.host.rst.head? ≠ some true) : step s = stepUnreset s.tick := by
  cases hrst : s.host.rst with
  | nil => rw [tick_of_nil hrst, step_of_rst_low hrst]
  | cons b later =>
    cases b with
    | true => simp [hrst] at h
    | false => simp [step, cycle, State.tick, hrst]

/-- What a step makes of `s`. -/
inductive Steps (s : State) : State → Prop
  /-- an engine reset -/
  | reset (h : s.host.rst.head? = some true) : Steps s s.tick.engineReset
  /-- a step of the running operation -/
  | moves {t : State} {m : Micro} {rest : List Micro} (h : s.host.rst.head? ≠ some true) (hst : s.eng.st = .run) (hseq : s.eng.seq = m :: rest)
      (hm : Moves s.tick rest m t) : Steps s t
  /-- a running operation with nothing left to do -/
  | ends (h : s.host.rst.head? ≠ some true) (hst : s.eng.st = .run) : Steps s s.tick.finish
  /-- an acceptance -/
  | accepts {t : State} {d : Descriptor} {ds : List Descriptor} (h : s.host.rst.head? ≠ some true) (hst : s.eng.st = .idle)
      (hreq : s.host.req = d :: ds) (ha : Accepts (s.tick.setHost { s.tick.host with req := ds }) d t) : Steps s t
  /-- nothing: an idle engine with no descriptor, or one in `FAULT` -/
  | waits (h : s.host.rst.head? ≠ some true) : Steps s s.tick

theorem step_steps {s t : State} (h : step s = .next t) : Steps s t := by
  obtain ⟨later, hrst, rfl⟩ | ⟨v, rfl, hlow, hstep⟩ := step_cases h
  · have htick : s.setHost { s.host with rst := later } = s.tick := by simp [State.tick, hrst]
    rw [htick]
    exact .reset (by simp [hrst])
  · obtain ⟨hst, ⟨m, rest, hseq, hm⟩ | ⟨_, rfl⟩⟩ | ⟨hst, d, ds, hreq, hd⟩ | ⟨_, _, rfl⟩ | ⟨_, rfl⟩ := hstep
    · exact .moves hlow hst hseq (microStep_moves hm)
    · exact .ends hlow hst
    · exact .accepts hlow hst hreq (acceptDescriptor_accepts hd)
    · exact .waits hlow
    · exact .waits hlow

end Sys2Proof.Machine
end

section
/-! The invariant of a step (10_state.md R21 to R26, R53; 40_protocol.md R151; 41_device_commands.md R193, R194): the clauses that do not speak of the
sequencer are kept by every operation on the state, and going on, ending and faulting restore the clauses that do. -/

namespace Sys2Proof.Machine

/-! ## The clauses that do not speak of the sequencer -/

/-- `Inv` without the sequencer's position and the top-level state. -/
structure Sound (s : State) : Prop where
  config    : s.cfg.ok = true
  canonical : Memory.wf s.dev.mem = true
  inRam     : ∀ c ∈ s.dev.mem, c.1 < s.cfg.ramSize
  bofRange  : s.eng.bof.toNat ≤ 7
  bitRange  : s.eng.bit.toNat ≤ 7
  errRange  : s.eng.err.toNat ≤ 3
  rspRange  : s.host.rspCode.toNat ≤ 3
  linesRest : s.bus.ce = .high ∧ s.bus.wr = .deasserted ∧ s.bus.rd = .deasserted
  heldReset : s.bus.reset = .asserted → s.dev.nop = 0 ∧ s.dev.rdv = false ∧ s.dev.rdy = .busy

theorem Inv.sound {s : State} (h : Inv s) : Sound s :=
  { config := h.config, canonical := h.canonical, inRam := h.inRam, bofRange := h.bofRange, bitRange := h.bitRange, errRange := h.errRange,
    rspRange := h.rspRange, linesRest := h.linesRest, heldReset := h.heldReset }

theorem Sound.inv {s : State} (h : Sound s) (hrun : s.eng.st = .run ↔ s.eng.seq ≠ [])
    (hfault : s.eng.st = .fault → s.eng.err = 3 ∧ s.host.rspCode = 3) (hpoll : polledBefore s.dev.isReady s.eng.seq = true) : Inv s :=
  { config := h.config, canonical := h.canonical, inRam := h.inRam, bofRange := h.bofRange, bitRange := h.bitRange, errRange := h.errRange,
    rspRange := h.rspRange, linesRest := h.linesRest, heldReset := h.heldReset, running := hrun, faultCode := hfault, polled := hpoll }

/-- Another engine with its registers in range. -/
theorem Sound.setEng {s : State} {e : Engine} (h : Sound s) (hbof : e.bof.toNat ≤ 7) (hbit : e.bit.toNat ≤ 7) (herr : e.err.toNat ≤ 3) :
    Sound (s.setEng e) :=
  { h with bofRange := hbof, bitRange := hbit, errRange := herr }

/-- Another engine with the same values in the bounded registers. -/
theorem Sound.setEngFrom {s : State} {e : Engine} (h : Sound s) (hbof : e.bof = s.eng.bof) (hbit : e.bit = s.eng.bit)
    (herr : e.err = s.eng.err) : Sound (s.setEng e) :=
  h.setEng (hbof ▸ h.bofRange) (hbit ▸ h.bitRange) (herr ▸ h.errRange)

/-- The lines at rest with the reset line released. -/
theorem Sound.setBus {s : State} {b : Bus} (h : Sound s) (hb : b.ce = .high ∧ b.wr = .deasserted ∧ b.rd = .deasserted)
    (hr : b.reset = .deasserted) : Sound (s.setBus b) :=
  { h with linesRest := hb, heldReset := fun ha => by rw [State.setBus_bus, hr] at ha; cases ha }

theorem Sound.setHost {s : State} {p : HostPort} (h : Sound s) (hp : p.rspCode.toNat ≤ 3) : Sound (s.setHost p) := { h with rspRange := hp }

theorem Sound.tick {s : State} (h : Sound s) : Sound s.tick := h.setHost h.rspRange

theorem Sound.accepted {s : State} (h : Sound s) (d : Descriptor) : Sound (s.accepted d) :=
  (h.setEngFrom (e := s.eng.latch d) rfl rfl rfl).setHost h.rspRange

theorem FaultKind.code_le (k : FaultKind) : k.code.toNat ≤ 3 := by cases k <;> decide

/-- A hardware reset of the device with its reset line asserted or not: the lines are still to be set (R53, R194). -/
theorem Sound.resetDevice {s : State} {b : Bus} (h : Sound s) (hb : b.ce = .high ∧ b.wr = .deasserted ∧ b.rd = .deasserted) :
    Sound (s.resetDevice.setBus b) :=
  have hmem := Memory.wf_hardwareReset s.dev s.free.resets s.cfg.resetKeepsMem h.canonical
  { h with
    canonical := hmem.1
    inRam := fun c hc => h.inRam c (hmem.2 c hc)
    linesRest := hb
    heldReset := fun _ => ⟨rfl, rfl, rfl⟩ }

theorem Sound.statusRead {s : State} (h : Sound s) (hr : s.bus.reset = .deasserted) : Sound s.statusRead :=
  { h with
    linesRest := ⟨rfl, h.linesRest.2.1, rfl⟩
    heldReset := fun ha => by rw [State.statusRead_bus, readCalls_reset, hr] at ha; cases ha }

theorem Sound.dataRead {s : State} (h : Sound s) (hr : s.bus.reset = .deasserted) : Sound s.dataRead :=
  { h with
    linesRest := ⟨rfl, h.linesRest.2.1, rfl⟩
    heldReset := fun ha => by rw [State.dataRead_bus, readCalls_reset, hr] at ha; cases ha }

/-- A write transaction whose device keeps its memory in order. -/
theorem Sound.write {s : State} (h : Sound s) (hr : s.bus.reset = .deasserted) {d : Device} (cd : Bool) (v : Byte) (tr : List Transaction)
    (hwf : Memory.wf d.mem = true) (hram : ∀ c ∈ d.mem, c.1 < s.cfg.ramSize) :
    Sound { s with dev := d, bus := s.bus.perform (writeCalls cd v), trace := tr } :=
  { h with
    canonical := hwf
    inRam := hram
    linesRest := ⟨rfl, rfl, h.linesRest.2.2⟩
    heldReset := fun ha => by rw [writeCalls_reset, hr] at ha; cases ha }

theorem Sound.dataWrite {s : State} (h : Sound s) (hr : s.bus.reset = .deasserted) (v : Byte) :
    Sound { s with dev := s.dev.afterData v, bus := s.bus.perform (writeCalls false v), trace := .dataWrite v :: s.trace } := by
  have hmem : (s.dev.afterData v).mem = s.dev.mem := by unfold Device.afterData; split <;> rfl
  exact h.write hr false v _ (hmem ▸ h.canonical) (hmem ▸ h.inRam)

theorem Sound.commandWrite {s : State} (h : Sound s) (hr : s.bus.reset = .deasserted) (v : Byte) {c : DeviceCommand}
    (hp : c.accessesMemory = true → s.dev.ap.toNat < s.cfg.ramSize) :
    Sound { s with dev := s.dev.runCommand s.free.memGen c, bus := s.bus.perform (writeCalls true v), trace := .commandWrite v :: s.trace } := by
  obtain ⟨hwf, hcells⟩ := Memory.wf_runCommand s.dev s.free.memGen c h.canonical
  refine h.write hr true v _ hwf fun b hb => ?_
  obtain ⟨hap, hacc⟩ | hold := hcells b hb
  · exact hap ▸ hp hacc
  · exact h.inRam b hold

/-- The bit offset of a pixel is 0 to 7 (R213). -/
theorem bitOffset_le_seven {g : Config} (h : g.ok = true) (px : Int) : (BitVec.ofInt 8 (bitOffset g px)).toNat ≤ 7 := by
  have hb := bitOffset_bounds h (x := px)
  have hf : g.fontWidth ≤ 8 := by rcases Config.fontWidth_cases h with e | e <;> omega
  have := bitOffset_toNat hb.1 (by omega)
  omega

/-! ## The clauses that speak of the sequencer -/

/-- A device found ready allows no less. -/
theorem polledBefore_weaken {q : List Micro} (h : polledBefore false q = true) (b : Bool) : polledBefore b q = true :=
  polledBefore_append (q := []) rfl h

theorem Sound.finish {s : State} (h : Sound s) : Inv s.finish :=
  Sound.inv { h with rspRange := Nat.zero_le 3 } ⟨TopState.noConfusion, fun e => (e rfl).elim⟩ TopState.noConfusion rfl

theorem Sound.takeFault {s : State} {k : FaultKind} (h : Sound s) : Inv (s.takeFault k) :=
  Sound.inv { h with errRange := k.code_le, rspRange := k.code_le } ⟨fun e => (k.stateAfter_ne_run e).elim, fun e => (e rfl).elim⟩
    (fun e => by cases k <;> first | exact ⟨rfl, rfl⟩ | cases e) rfl

/-- A running operation goes on with steps in which every transfer stands after a poll. -/
theorem Sound.goto {s : State} {q : List Micro} (h : Sound s) (hst : s.eng.st = .run) (hq : polledBefore s.dev.isReady q = true) :
    Inv (s.goto q) := by
  cases q with
  | nil => exact h.finish
  | cons m rest =>
    refine Sound.inv (h.setEngFrom (e := { s.eng with seq := m :: rest }) rfl rfl rfl) ?_ ?_ hq
    · exact ⟨fun _ => List.cons_ne_nil _ _, fun _ => hst⟩
    · intro e
      rw [show s.eng.st = .fault from e] at hst
      cases hst

/-! ## One step -/

theorem Moves.inv {s t : State} {rest : List Micro} {m : Micro} (hm : Moves s rest m t) (h : Sound s) (hst : s.eng.st = .run)
    (hpoll : polledBefore s.dev.isReady (m :: rest) = true) : Inv t := by
  simp only [polledBefore, Bool.and_eq_true] at hpoll
  obtain ⟨_, hrest⟩ := hpoll
  -- after anything but a poll, every transfer left stands after a poll of its own
  have hown (hp : m.isPoll = false) (b : Bool) : polledBefore b rest = true := polledBefore_weaken (hp ▸ hrest) b
  cases hm with
  | inside x tmp bit q hint hbit hq =>
    have hp : m.isPoll = false := by cases m <;> first | rfl | cases hint
    refine Sound.goto ?_ hst (polledBefore_weaken (hq (hown hp false)) _)
    refine h.setEng h.bofRange ?_ h.errRange
    obtain rfl | ⟨px, rfl⟩ := hbit
    · exact h.bitRange
    · exact bitOffset_le_seven h.config px
  | found p hp hr hb =>
    refine Sound.goto (h.statusRead hr |>.setEngFrom rfl rfl rfl) hst ?_
    rw [hp] at hrest
    simpa [Device.isReady, hb] using hrest
  | again p hp hr hb =>
    rw [hp] at hrest
    refine Sound.goto (q := .pollAgain :: rest) (h.statusRead hr |>.setEngFrom (e := { s.eng with pcnt := p }) rfl rfl rfl) hst ?_
    simpa [polledBefore, Micro.isTransfer, Micro.isPoll] using hrest
  | timeout p hp hr hb => exact Sound.takeFault (h.statusRead hr |>.setEngFrom rfl rfl rfl)
  | data v hr hy => exact Sound.goto (h.dataWrite hr _) hst (hown rfl _)
  | command v c hr hy hc hp => exact Sound.goto (h.commandWrite hr _ hp) hst (hown rfl _)
  | tmp hr hy => exact Sound.goto (h.dataRead hr |>.setEngFrom rfl rfl rfl) hst (hown rfl _)
  | resData hr hy => exact Sound.goto (h.dataRead hr |>.setEngFrom rfl rfl rfl) hst (hown rfl _)
  | resStatus hr hy => exact Sound.goto (h.statusRead hr |>.setEngFrom rfl rfl rfl) hst (hown rfl _)
  | assertReset => exact Sound.goto (h.resetDevice h.linesRest) hst (hown rfl _)
  | releaseReset => exact Sound.goto (h.setBus h.linesRest rfl) hst (hown rfl _)
  | quiesce => exact Sound.goto (h.resetDevice ⟨rfl, rfl, rfl⟩) hst (hown rfl _)

theorem Accepts.inv {s t : State} {d : Descriptor} (ha : Accepts s d t) (h : Sound s) : Inv t := by
  cases ha with
  | begins m rest hd hq => exact Sound.goto (h.accepted _ |>.setEngFrom rfl rfl rfl) rfl (polledBefore_weaken hq _)
  | answers res bof hd hi hbof =>
    refine Sound.finish ?_
    refine (h.accepted _).setEng ?_ h.bitRange h.errRange
    obtain rfl | ⟨_, px, rfl⟩ := hbof
    · exact h.bofRange
    · exact bitOffset_le_seven h.config px
  | rejects d' k => exact (h.accepted d').takeFault

/-- Engine reset restores every clause (R50, R51, R53). -/
theorem Sound.engineReset {s : State} (h : Sound s) : Inv s.engineReset := by
  have hbit : (Engine.afterReset s.free.resets).bit.toNat ≤ 7 := by
    have : ∀ b : BitVec 3, (b.setWidth 8).toNat ≤ 7 := by decide
    exact this _
  have hr : Sound s.engineReset :=
    ((h.resetDevice (b := Bus.quiescent) ⟨rfl, rfl, rfl⟩).setEng (e := Engine.afterReset s.free.resets) (Nat.zero_le 7) hbit (Nat.zero_le 3)).setHost
      (p := { s.host with rspValid := false, rspCode := 0 }) (Nat.zero_le 3)
  exact hr.inv ⟨TopState.noConfusion, fun e => (e rfl).elim⟩ TopState.noConfusion rfl

/-- Settles O54, by the outcomes of a step. -/
theorem stepKeepsTheInvariant : Obligations.StepKeepsTheInvariant := by
  unfold Obligations.StepKeepsTheInvariant
  intro s t h hstep
  have hs := h.sound.tick
  cases step_steps hstep with
  | reset => exact hs.engineReset
  | moves _ hst hseq hm => exact hm.inv hs hst (hseq ▸ h.polled)
  | ends => exact hs.finish
  | accepts _ _ _ ha => exact ha.inv (hs.setHost hs.rspRange)
  | waits => exact hs.inv h.running h.faultCode h.polled

/-- Settles O53, clause by clause; the two invariants speak of an idle engine that has made no transaction. -/
theorem resetMeetsTheInvariants : Obligations.ResetMeetsTheInvariants := by
  unfold Obligations.ResetMeetsTheInvariants
  have hsound : Sound State.reset :=
    { config := Tests.default_ok, canonical := State.reset_memory_wf, inRam := fun _ hc => (List.not_mem_nil hc).elim,
      bofRange := Nat.zero_le 7, bitRange := Nat.zero_le 7, errRange := Nat.zero_le 3, rspRange := Nat.zero_le 3,
      linesRest := ⟨rfl, rfl, rfl⟩, heldReset := fun _ => ⟨rfl, rfl, rfl⟩ }
  refine ⟨⟨rfl, rfl, rfl, rfl, rfl, rfl, rfl, rfl, rfl, rfl, rfl⟩, rfl, rfl, rfl, rfl, rfl, ?_, rfl, Readiness.noConfusion⟩
  exact hsound.inv ⟨TopState.noConfusion, fun e => (e rfl).elim⟩ TopState.noConfusion rfl

/-! ## Transfers and polls in the trace (R85) -/

/-- What a status read leaves of the property: the readiness is the one it has just shown. -/
theorem PolledTrace.statusRead {s t : State} (h : PolledTrace s) (htr : t.trace = .statusRead s.statusByte :: s.trace)
    (hdev : t.dev = s.statusRead.dev) : PolledTrace t := by
  refine ⟨by rw [htr]; exact h.1, fun hready => ⟨s.statusByte, s.trace, htr, ?_⟩⟩
  rw [hdev, State.statusRead_dev] at hready
  by_contra hb
  simp [hb] at hready

/-- A transfer to a ready device comes right after the status read that found it so, and leaves the device busy. -/
theorem PolledTrace.transfer {s t : State} (h : PolledTrace s) (hy : s.dev.rdy = .ready) {x : Transaction} (hx : ∀ b, x ≠ .statusRead b)
    (htr : t.trace = x :: s.trace) (hbusy : t.dev.rdy = .busy) : PolledTrace t := by
  obtain ⟨b, older, hs, hb⟩ := h.2 hy
  have hold : everyTransferPolled older = true := by simpa [hs, everyTransferPolled] using h.1
  refine ⟨?_, fun e => by rw [hbusy] at e; cases e⟩
  rw [htr, hs]
  cases x with
  | statusRead b => exact (hx b rfl).elim
  | commandWrite k => simp [everyTransferPolled, hb, hold]
  | dataWrite v => simp [everyTransferPolled, hb, hold]
  | dataRead v => simp [everyTransferPolled, hb, hold]

/-- No transaction, and no device made ready. -/
theorem PolledTrace.quiet {s t : State} (h : PolledTrace s) (htr : t.trace = s.trace) (hdev : t.dev.rdy = .ready → s.dev.rdy = .ready) :
    PolledTrace t :=
  ⟨htr ▸ h.1, fun e => htr ▸ h.2 (hdev e)⟩

theorem afterData_busy (d : Device) (v : Byte) : (d.afterData v).rdy = .busy := by unfold Device.afterData; split <;> rfl

theorem Moves.polledTrace {s t : State} {rest : List Micro} {m : Micro} (hm : Moves s rest m t) (h : PolledTrace s) : PolledTrace t := by
  cases hm with
  | inside x tmp bit q => exact h.quiet (by simp) (by simp)
  | found p => exact h.statusRead (by simp) (by simp)
  | again p => exact h.statusRead rfl rfl
  | timeout p => exact h.statusRead rfl rfl
  | data v hr hy => exact h.transfer hy (x := .dataWrite (v.value s.eng)) (by simp) (by simp) (by simp [afterData_busy])
  | command v c hr hy => exact h.transfer hy (x := .commandWrite (v.value s.eng)) (by simp) (by simp) (by simp [Device.runCommand])
  | tmp hr hy => exact h.transfer hy (x := .dataRead s.dataByte) (by simp) (by simp) (by simp)
  | resData hr hy => exact h.transfer hy (x := .dataRead s.dataByte) (by simp) (by simp) (by simp)
  | resStatus hr hy => exact h.statusRead (by simp) (by simp)
  | assertReset => exact h.quiet (by simp) (by simp [Device.hardwareReset])
  | releaseReset => exact h.quiet (by simp) (by simp)
  | quiesce => exact h.quiet (by simp) (by simp [Device.hardwareReset])

theorem Accepts.polledTrace {s t : State} {d : Descriptor} (ha : Accepts s d t) (h : PolledTrace s) : PolledTrace t := by
  cases ha with
  | begins m rest => exact h.quiet rfl id
  | answers res bof => exact h.quiet rfl id
  | rejects d' k => exact h.quiet rfl id

/-- Settles O55, by the outcomes of a step: it makes no transaction, a status read, or a transfer to a ready device. -/
theorem everyTransferFollowsAReadyStatus : Obligations.EveryTransferFollowsAReadyStatus := by
  unfold Obligations.EveryTransferFollowsAReadyStatus
  intro s t h hstep
  have htick : PolledTrace s.tick := h
  cases step_steps hstep with
  | reset => exact htick.quiet rfl Readiness.noConfusion
  | moves _ _ _ hm => exact hm.polledTrace htick
  | ends => exact htick.quiet rfl id
  | accepts _ _ _ ha => exact ha.polledTrace (s := s.tick.setHost _) h
  | waits => exact h

end Sys2Proof.Machine
end

section
/-! Rules about every step, read off its outcomes: what a step can refuse (41_device_commands.md R193), what it adds to the observations and takes from the
host (10_state.md R48; 70_reset_and_hazards.md R355), who writes the result registers (10_state.md R26) and the memory (20_memory.md R70, R84). -/

namespace Sys2Proof.Machine

/-! ## Refusals -/

/-- An acceptance always answers (R110). -/
theorem acceptDescriptor_answers (d : Descriptor) (s : State) : ∃ t, acceptDescriptor d s = .next t := by
  cases hd : decode d with
  | error e => exact ⟨_, acceptDescriptor_of_error s hd⟩
  | ok i =>
    rw [acceptDescriptor_of_ok s hd]
    obtain ⟨m, rest, _, he⟩ | ⟨res, bof, _, _, he⟩ | he := exec_cases i s
    · exact ⟨_, he⟩
    · exact ⟨_, he⟩
    · exact ⟨_, he⟩

/-- A refusal comes from the running operation. -/
theorem step_refused {s : State} {r : Refusal} (h : step s = .refused r) :
    s.eng.st = .run ∧ ∃ m rest, s.eng.seq = m :: rest ∧ microStep m rest s.tick = .refused r := by
  have hlow : s.host.rst.head? ≠ some true := fun hhigh => by rw [step_high hhigh] at h; cases h
  have un : stepUnreset s.tick = .refused r := by rw [← step_low hlow]; exact h
  unfold stepUnreset at un
  split at un
  case h_1 =>
    unfold idleStep at un
    split at un
    case h_1 => cases un
    case h_2 d ds _ =>
      obtain ⟨t, ht⟩ := acceptDescriptor_answers d (s.tick.setHost { s.tick.host with req := ds })
      rw [ht] at un
      cases un
  case h_2 hst =>
    unfold sequencerStep at un
    split at un
    case h_1 => cases un
    case h_2 m rest hseq => exact ⟨hst, m, rest, hseq, un⟩
  case h_3 => cases un

theorem transferBlocked_busy {s : State} (h : s.transferBlocked = some .transferWhileBusy) : s.dev.rdy = .busy := by
  cases hy : s.dev.rdy with
  | busy => rfl
  | ready => cases hr : s.bus.reset <;> simp [State.transferBlocked, hr, hy] at h

theorem dataWrite_not_busy (s : State) (v : Byte) : s.dataWrite v ≠ .refused .transferWhileBusy := by
  unfold State.dataWrite
  simp only
  split <;> simp

theorem commandWrite_not_busy (s : State) (k : Byte) : s.commandWrite k ≠ .refused .transferWhileBusy := by
  unfold State.commandWrite
  simp only
  split
  · simp
  · split
    · split <;> simp
    · simp

theorem busWrite_busy {s : State} {cd : Bool} {v : Byte} (h : s.busWrite cd v = .refused .transferWhileBusy) : s.dev.rdy = .busy := by
  unfold State.busWrite at h
  split at h
  case h_1 r hr => cases h; exact transferBlocked_busy hr
  case h_2 =>
    cases cd with
    | true => exact (commandWrite_not_busy s v h).elim
    | false => exact (dataWrite_not_busy s v h).elim

theorem pollPass_not_busy (rest : List Micro) (s : State) : pollPass rest s ≠ .refused .transferWhileBusy := by
  cases hr : s.bus.reset with
  | asserted => simp [pollPass, hr]
  | deasserted =>
    rw [pollPass_eq rest hr]
    split
    · simp
    · simp only
      split <;> simp

/-- Only a transfer can be refused by a busy device (R193). -/
theorem microStep_busy {m : Micro} {rest : List Micro} {s : State} (h : microStep m rest s = .refused .transferWhileBusy) :
    m.isTransfer = true ∧ s.dev.rdy = .busy := by
  cases m with
  | busWrite cd v =>
    refine ⟨rfl, ?_⟩
    change writeStep cd v rest s = _ at h
    unfold writeStep at h
    split at h
    · cases h
    · cases h
    · rename_i hb; cases h; exact busWrite_busy hb
  | readTmp =>
    refine ⟨rfl, ?_⟩
    change readTmpStep rest s = _ at h
    unfold readTmpStep at h
    split at h
    · rename_i hb; cases h; exact transferBlocked_busy hb
    · cases h
  | readRes cd =>
    refine ⟨rfl, ?_⟩
    change readResStep cd rest s = _ at h
    unfold readResStep at h
    split at h
    · rename_i hb; cases h; exact transferBlocked_busy hb
    · cases h
  | poll => exact (pollPass_not_busy rest _ h).elim
  | pollAgain => exact (pollPass_not_busy rest _ h).elim
  | _ => cases h

/-- Settles O56: at a transfer the invariant has the device ready. -/
theorem noTransferToABusyDevice : Obligations.NoTransferToABusyDevice := by
  unfold Obligations.NoTransferToABusyDevice
  intro s hinv h
  obtain ⟨_, m, rest, hseq, hm⟩ := step_refused h
  obtain ⟨htr, hbusy⟩ := microStep_busy hm
  have hbusy : s.dev.rdy = .busy := hbusy
  have hpoll := hinv.polled
  simp [hseq, polledBefore, htr, Device.isReady, hbusy] at hpoll

/-! ## Observations and inputs -/

/-- At most one transaction and one response more, the same configuration, the same descriptors waiting. -/
structure Adds (s t : State) : Prop where
  cfg : t.cfg = s.cfg
  trace : t.trace = s.trace ∨ ∃ x, t.trace = x :: s.trace
  responses : t.responses = s.responses ∨ ∃ r, t.responses = r :: s.responses
  req : t.host.req = s.host.req

/-- Going on adds a response at most. -/
theorem Adds.goto {s u : State} (q : List Micro) (hc : u.cfg = s.cfg) (ht : u.trace = s.trace ∨ ∃ x, u.trace = x :: s.trace)
    (hr : u.responses = s.responses) (hq : u.host.req = s.host.req) : Adds s (u.goto q) := by
  cases q with
  | nil => exact ⟨hc, ht, .inr ⟨_, by rw [State.goto_nil, State.finish_responses, hr]⟩, hq⟩
  | cons m rest => exact ⟨hc, ht, .inl hr, hq⟩

theorem Moves.adds {s t : State} {rest : List Micro} {m : Micro} (hm : Moves s rest m t) : Adds s t := by
  cases hm with
  | inside x tmp bit q => exact .goto q rfl (.inl rfl) rfl rfl
  | found p => exact .goto rest rfl (.inr ⟨_, rfl⟩) rfl rfl
  | again p => exact ⟨rfl, .inr ⟨_, rfl⟩, .inl rfl, rfl⟩
  | timeout p => exact ⟨rfl, .inr ⟨_, rfl⟩, .inr ⟨_, rfl⟩, rfl⟩
  | data v => exact .goto rest rfl (.inr ⟨_, rfl⟩) rfl rfl
  | command v c => exact .goto rest rfl (.inr ⟨_, rfl⟩) rfl rfl
  | tmp => exact .goto rest rfl (.inr ⟨_, rfl⟩) rfl rfl
  | resData => exact .goto rest rfl (.inr ⟨_, rfl⟩) rfl rfl
  | resStatus => exact .goto rest rfl (.inr ⟨_, rfl⟩) rfl rfl
  | assertReset => exact .goto rest rfl (.inl rfl) rfl rfl
  | releaseReset => exact .goto rest rfl (.inl rfl) rfl rfl
  | quiesce => exact .goto rest rfl (.inl rfl) rfl rfl

theorem Accepts.adds {s t : State} {d : Descriptor} (ha : Accepts s d t) : Adds s t := by
  cases ha with
  | begins m rest => exact ⟨rfl, .inl rfl, .inl rfl, rfl⟩
  | answers res bof => exact ⟨rfl, .inl rfl, .inr ⟨_, rfl⟩, rfl⟩
  | rejects d' k => exact ⟨rfl, .inl rfl, .inr ⟨_, rfl⟩, rfl⟩

/-- Settles O8, by the outcomes of a step: an acceptance alone takes a descriptor. -/
theorem stepsTakeDescriptorsOnlyWhenIdle : Obligations.StepsTakeDescriptorsOnlyWhenIdle := by
  unfold Obligations.StepsTakeDescriptorsOnlyWhenIdle
  intro s t h
  cases step_steps h with
  | reset => exact ⟨rfl, .inl rfl, .inl rfl, .inl rfl⟩
  | moves _ _ _ hm =>
    obtain ⟨hc, ht, hr, hq⟩ := hm.adds
    exact ⟨hc, ht, hr, .inl hq⟩
  | ends => exact ⟨rfl, .inl rfl, .inr ⟨_, rfl⟩, .inl rfl⟩
  | accepts hlow hst hreq ha =>
    obtain ⟨hc, ht, hr, hq⟩ := ha.adds
    exact ⟨hc, ht, hr, .inr ⟨hst, hlow, _, by rw [hreq, hq]; rfl⟩⟩
  | waits => exact ⟨rfl, .inl rfl, .inl rfl, .inl rfl⟩

/-! ## The result registers -/

theorem Moves.bof {s t : State} {rest : List Micro} {m : Micro} (hm : Moves s rest m t) : t.eng.bof = s.eng.bof := by
  cases hm with
  | again p => rfl
  | timeout p => rfl
  | _ => exact goto_bof _ _

/-- Of the running operation's steps the reads of RDD and RDS alone write `E.RES` (R154, R155). -/
theorem Moves.res {s t : State} {rest : List Micro} {m : Micro} (hm : Moves s rest m t) : t.eng.res = s.eng.res ∨ ∃ cd, m = .readRes cd := by
  cases hm with
  | resData => exact .inr ⟨false, rfl⟩
  | resStatus => exact .inr ⟨true, rfl⟩
  | again p => exact .inl rfl
  | timeout p => exact .inl rfl
  | _ => exact .inl (goto_res _ _)

/-- Of the operations accepted GRA alone writes `E.BOF` (R218). -/
theorem Accepts.bof {s t : State} {d : Descriptor} (ha : Accepts s d t) : t.eng.bof = s.eng.bof ∨ ∃ x y, decode d = .ok (.gra x y) := by
  cases ha with
  | begins m rest => exact .inl rfl
  | answers res bof hd hi hbof =>
    obtain rfl | ⟨⟨x, y, rfl⟩, _⟩ := hbof
    · exact .inl rfl
    · exact .inr ⟨x, y, hd⟩
  | rejects d' k => exact .inl rfl

theorem Accepts.res {s t : State} {d : Descriptor} (ha : Accepts s d t) : t.eng.res = s.eng.res ∨ ∃ i, decode d = .ok i ∧ IsQuery i := by
  cases ha with
  | begins m rest => exact .inl rfl
  | answers res bof hd hi => exact .inr ⟨_, hd, hi⟩
  | rejects d' k => exact .inl rfl

/-- Settles O58, by the outcomes of a step. -/
theorem resultRegistersHaveFewWriters : Obligations.ResultRegistersHaveFewWriters := by
  unfold Obligations.ResultRegistersHaveFewWriters
  intro s t h hlow
  cases step_steps h with
  | reset hhigh => exact (hlow hhigh).elim
  | moves _ hst hseq hm =>
    refine ⟨fun hne => (hne hm.bof).elim, fun hne => .inl ⟨hst, ?_⟩⟩
    obtain ⟨cd, rfl⟩ := hm.res.resolve_left hne
    exact ⟨cd, by rw [hseq]; rfl⟩
  | ends => exact ⟨fun hne => (hne rfl).elim, fun hne => (hne rfl).elim⟩
  | accepts _ hst hreq ha =>
    refine ⟨fun hne => ⟨hst, ?_⟩, fun hne => .inr ⟨hst, ?_⟩⟩
    · obtain ⟨x, y, hd⟩ := ha.bof.resolve_left hne
      exact ⟨_, x, y, by rw [hreq]; rfl, hd⟩
    · obtain ⟨i, hd, hi⟩ := ha.res.resolve_left hne
      exact ⟨_, i, by rw [hreq]; rfl, hd, hi⟩
  | waits => exact ⟨fun hne => (hne rfl).elim, fun hne => (hne rfl).elim⟩

/-! ## Memory -/

/-- The commands that store a byte (R185, R187, R189). -/
def IsDataWrite (c : DeviceCommand) : Prop := c = .dataWriteInc ∨ c = .dataWriteDec ∨ c = .dataWriteNonvar

theorem runCommand_mem (d : Device) (g : Nat) (c : DeviceCommand) :
    (d.runCommand g c).mem = d.mem ∨ (IsDataWrite c ∧ (d.runCommand g c).mem = Memory.store d.mem d.ap.toNat d.d1) := by
  cases c with
  | dataWriteInc => exact .inr ⟨.inl rfl, rfl⟩
  | dataWriteDec => exact .inr ⟨.inr (.inl rfl), rfl⟩
  | dataWriteNonvar => exact .inr ⟨.inr (.inr rfl), rfl⟩
  | _ => exact .inl rfl

/-- A byte depends on the listed bytes and the memory generation alone. -/
theorem memByte_congr {s t : State} (hm : t.dev.mem = s.dev.mem) (hg : t.free.memGen = s.free.memGen) (a : Nat) : t.memByte a = s.memByte a := by
  rw [State.memByte, State.memByte, hm, hg]

theorem afterData_mem (d : Device) (v : Byte) : (d.afterData v).mem = d.mem := by unfold Device.afterData; split <;> rfl

theorem dataRead_memGen (s : State) : s.dataRead.free.memGen = s.free.memGen := by
  rw [State.dataRead_free]; split <;> rfl

/-- A hardware reset that keeps memory changes no byte (R53). -/
theorem resetDevice_memByte {s t : State} (hdev : t.dev = s.resetDevice.dev) (hfree : t.free = s.resetDevice.free) {a : Nat}
    (hne : t.memByte a ≠ s.memByte a) : s.cfg.resetKeepsMem = false := by
  cases hk : s.cfg.resetKeepsMem with
  | false => rfl
  | true => exact (hne (memByte_congr (by simp [hdev, Device.hardwareReset, hk]) (by simp [hfree, hk]) a)).elim

/-- Which of the running operation's steps change a byte of memory. -/
theorem Moves.memByte {s t : State} {rest : List Micro} {m : Micro} (hm : Moves s rest m t) {a : Nat} (hne : t.memByte a ≠ s.memByte a) :
    (s.cfg.resetKeepsMem = false ∧ (m = .assertReset ∨ m = .quiesce))
      ∨ ∃ v c, m = .busWrite true v ∧ decodeCommand s.cfg.cmd (v.value s.eng) = some c ∧ IsDataWrite c ∧ a = s.dev.ap.toNat
          ∧ t.memByte a = s.dev.d1 := by
  -- a step whose memory and generation are the old ones changes no byte
  have same (hmem : t.dev.mem = s.dev.mem) (hgen : t.free.memGen = s.free.memGen) : False := hne (memByte_congr hmem hgen a)
  cases hm with
  | command v c hr hy hc hp =>
    right
    obtain hold | ⟨hw, hstore⟩ := runCommand_mem s.dev s.free.memGen c
    · exact (same (by simpa using hold) (by simp)).elim
    · refine ⟨v, c, rfl, hc, hw, ?_⟩
      have hbyte := Memory.byte_store s.dev.mem s.free.memGen s.dev.ap.toNat a s.dev.d1
      simp only [State.memByte, goto_dev, goto_free, hstore, hbyte] at hne ⊢
      by_cases ha : a = s.dev.ap.toNat
      · exact ⟨ha, if_pos ha⟩
      · exact (hne (if_neg ha)).elim
  | assertReset => exact .inl ⟨resetDevice_memByte (by simp) (by simp) hne, .inl rfl⟩
  | quiesce => exact .inl ⟨resetDevice_memByte (by simp) (by simp) hne, .inr rfl⟩
  | inside x tmp bit q => exact (same (by simp) (by simp)).elim
  | found p => exact (same (by simp) (by simp [Choices.advance])).elim
  | again p => exact (same rfl rfl).elim
  | timeout p => exact (same rfl rfl).elim
  | data v => exact (same (by simp [afterData_mem]) (by simp)).elim
  | tmp => exact (same (by simp) (by rw [goto_free]; exact dataRead_memGen s)).elim
  | resData => exact (same (by simp) (by rw [goto_free]; exact dataRead_memGen s)).elim
  | resStatus => exact (same (by simp) (by simp [Choices.advance])).elim
  | releaseReset => exact (same (by simp) (by simp)).elim

theorem Accepts.memByte {s t : State} {d : Descriptor} (ha : Accepts s d t) (a : Nat) : t.memByte a = s.memByte a := by
  cases ha with
  | begins m rest => rfl
  | answers res bof => rfl
  | rejects d' k => rfl

/-- Settles O59, by the outcomes of a step. -/
theorem memoryChangesOnlyByDataWrites : Obligations.MemoryChangesOnlyByDataWrites := by
  unfold Obligations.MemoryChangesOnlyByDataWrites
  intro s t a h hne
  cases step_steps h with
  | reset hhigh => exact .inl ⟨resetDevice_memByte (s := s.tick) rfl rfl hne, .inl hhigh⟩
  | moves _ hst hseq hm =>
    rw [hseq]
    obtain ⟨hk, rfl | rfl⟩ | ⟨v, c, rfl, hc, hw, ha, hd⟩ := hm.memByte hne
    · exact .inl ⟨hk, .inr (.inl rfl)⟩
    · exact .inl ⟨hk, .inr (.inr rfl)⟩
    · exact .inr ⟨ha, hd, hst, v, c, rfl, hc, hw⟩
  | ends => exact (hne rfl).elim
  | accepts _ _ _ ha => exact (hne (ha.memByte a)).elim
  | waits => exact (hne rfl).elim

end Sys2Proof.Machine
end

section
/-! Rejection, reset and FAULT (60_exceptions.md R312, R320, R324; 70_reset_and_hazards.md R350), and the poll pass by pass, on a device that need not be
responsive (40_protocol.md R141; 60_exceptions.md R313, R314; 41_device_commands.md R171, R172). -/

namespace Sys2Proof.Machine

/-! ## Rejection, reset, FAULT -/

/-- The range check of every operation is the one `exec` makes (R312). -/
theorem exec_of_out_of_range {i : Instr} {s : State} (h : inRange s.cfg i = false) : exec i s = rejectRange i s := by
  have hno := Bool.eq_false_iff.mp h
  cases i with
  | txa x y => exact if_neg hno
  | gra x y => exact if_neg hno
  | cga slot => exact if_neg hno
  | sap x y => exact if_neg hno
  | scp x y => exact if_neg hno
  | spx x y color => exact if_neg hno
  | defc slot glyph => exact if_neg hno
  | rect x y w h color => exact if_neg hno
  | circ cx cy r color => exact if_neg hno
  | line x1 y1 x2 y2 color => exact if_neg hno
  | _ => exact (hno rfl).elim

/-- Settles O7: what a rejection leaves is what taking the fault on the latched descriptor leaves. -/
theorem rangeCheckRejects : Obligations.RangeCheckRejects := by
  unfold Obligations.RangeCheckRejects
  intro i s h
  rw [exec_of_out_of_range h]
  rfl

theorem engineReset_memByte (s : State) (hk : s.cfg.resetKeepsMem = true) (a : Nat) : s.engineReset.memByte a = s.memByte a :=
  memByte_congr (by simp [Device.hardwareReset, hk]) (by simp [hk]) a

/-- Settles O9: engine reset sets every register AfterReset speaks of. -/
theorem engineResetFromAnyState : Obligations.EngineResetFromAnyState := by
  unfold Obligations.EngineResetFromAnyState
  intro s later hrst
  refine ⟨s.tick.engineReset, step_high (by simp [hrst]), ⟨rfl, rfl, rfl, rfl, rfl, rfl, rfl, rfl, rfl, rfl, rfl⟩, rfl, rfl, rfl, ?_, rfl, rfl, rfl, rfl,
    engineReset_memByte s.tick⟩
  show s.host.rst.tail = later
  rw [hrst, List.tail_cons]

/-- Settles O10. -/
theorem faultWaitsForReset : Obligations.FaultWaitsForReset := by
  unfold Obligations.FaultWaitsForReset
  intro s hst hlow
  have hst : s.tick.eng.st = .fault := hst
  rw [step_low hlow, stepUnreset, hst]
  rfl

/-! ## A status read -/

theorem statusReady_iff (b : Byte) : statusReady b = true ↔ b &&& 3 = 3 := beq_iff_eq

/-- A busy device answers with its next free choice (R171, R172(b)). -/
theorem statusByte_of_busy {s : State} (h : s.dev.rdy = .busy) : s.statusByte = s.free.next := by rw [State.statusByte, h]

theorem statusByte_of_ready {s : State} (h : s.dev.rdy = .ready) : s.statusByte = s.free.next ||| 3 := by rw [State.statusByte, h]

theorem or_three_of_ready {b : Byte} (h : b &&& 3 = 3) : b ||| 3 = b := by
  revert b
  decide

/-- Settles O15. -/
theorem statusReadAnswersReadiness : Obligations.StatusReadAnswersReadiness := by
  unfold Obligations.StatusReadAnswersReadiness
  intro s
  refine ⟨fun hready => (statusReady_iff _).mp (statusByte_ready (.inr hready)), ?readiness, rfl, rfl, rfl, ?lines, fun b hb => ⟨[b], ?anyByte⟩⟩
  case readiness =>
    rw [← statusReady_iff, State.statusRead_dev]
    cases statusReady s.statusByte <;> simp
  case lines => rw [State.statusRead_bus, Bus.perform_readCalls]
  case anyByte =>
    cases hy : s.dev.rdy with
    | busy => rw [statusByte_of_busy (by exact hy)]; rfl
    | ready => rw [statusByte_of_ready (by exact hy)]; exact or_three_of_ready (hb hy)

/-! ## One pass of a poll -/

/-- The first pass differs from the later ones by the count it starts from (R141). -/
theorem step_poll {s : State} (first : Bool) {rest : List Micro} (hrst : s.host.rst = []) (hst : s.eng.st = .run)
    (hseq : s.eng.seq = (if first then .poll else .pollAgain) :: rest) :
    step s = pollPass rest (s.setEng { s.eng with pcnt := if first then 0 else s.eng.pcnt }) := by
  rw [step_running hrst hst hseq]
  cases first <;> rfl

/-! ## Passes that find the device busy -/

/-- `v` is `s`, at a poll with `rest` to do after it, once `k` passes have found its busy device not ready. -/
structure Missed (s : State) (rest : List Micro) (k : Nat) (v : State) : Prop where
  cfg : v.cfg = s.cfg
  host : v.host = s.host
  dev : v.dev = s.dev
  reset : v.bus.reset = s.bus.reset
  responses : v.responses = s.responses
  eng : v.eng = { s.eng with pcnt := BitVec.ofNat 32 k, seq := .pollAgain :: rest }
  byteAt : ∀ n, v.free.byteAt n = s.free.byteAt (k + n)
  trace : v.trace = ((List.range k).map fun n => Transaction.statusRead (s.free.byteAt n)).reverse ++ s.trace

/-- The poll before its first pass, with the count that pass starts from. -/
def State.atPoll (s : State) (rest : List Micro) : State := s.setEng { s.eng with pcnt := 0, seq := .pollAgain :: rest }

/-- One more pass that finds the device not ready. -/
def State.passed (v : State) : State := v.statusRead.setEng { v.eng with pcnt := v.eng.pcnt + 1 }

theorem Missed.start (s : State) (rest : List Micro) : Missed s rest 0 (s.atPoll rest) :=
  ⟨rfl, rfl, rfl, rfl, rfl, rfl, fun n => by rw [Nat.zero_add]; rfl, rfl⟩

section
variable {s v : State} {rest : List Micro} {k : Nat} (h : Missed s rest k v) (hbusy : s.dev.rdy = .busy)
include h hbusy

theorem Missed.statusByte : v.statusByte = s.free.byteAt k := by
  rw [statusByte_of_busy (by rw [h.dev, hbusy]), Choices.next_eq_byteAt, h.byteAt, Nat.add_zero]

theorem Missed.statusRead_trace :
    v.statusRead.trace = ((List.range (k + 1)).map fun n => Transaction.statusRead (s.free.byteAt n)).reverse ++ s.trace := by
  rw [State.statusRead_trace, h.statusByte hbusy, h.trace, List.range_succ]
  simp

theorem Missed.passed (hno : statusReady (s.free.byteAt k) = false) : Missed s rest (k + 1) v.passed where
  cfg := h.cfg
  host := h.host
  dev := by
    show v.statusRead.dev = s.dev
    rw [State.statusRead_dev, h.statusByte hbusy, hno, h.dev, if_neg Bool.false_ne_true, ← hbusy]
  reset := h.reset
  responses := h.responses
  eng := by
    show { v.eng with pcnt := v.eng.pcnt + 1 } = _
    rw [h.eng]
    simp only [BitVec.ofNat_add]
    rfl
  byteAt n := by
    show v.free.advance.byteAt n = _
    rw [Choices.byteAt_advance, h.byteAt, show k + (n + 1) = k + 1 + n by omega]
  trace := h.statusRead_trace hbusy

end

section
variable {s v : State} {rest : List Micro} {k : Nat} (h : Missed s rest k v) (hrst : s.host.rst = []) (hreset : s.bus.reset = .deasserted)
  (hst : s.eng.st = .run) (hbusy : s.dev.rdy = .busy)
include h hrst hreset hst hbusy

/-- The next pass, by the device's next answer and the limit (R141). -/
theorem Missed.step :
    step v =
      if statusReady (s.free.byteAt k) then .next (v.statusRead.goto rest)
      else if s.cfg.pollLimit ≠ 0 ∧ (BitVec.ofNat 32 (k + 1)).toNat = s.cfg.pollLimit then .next (v.passed.takeFault .deviceTimeout)
      else .next v.passed := by
  have hseq : v.eng.seq = .pollAgain :: rest := by rw [h.eng]
  have hpcnt : v.eng.pcnt + 1 = BitVec.ofNat 32 (k + 1) := by rw [h.eng]; exact (BitVec.ofNat_add ..).symm
  rw [step_running (by rw [h.host, hrst]) (by rw [h.eng]; exact hst) hseq]
  show pollPass rest v = _
  rw [pollPass_eq rest (by rw [h.reset, hreset]), h.statusByte hbusy, h.cfg]
  simp only [State.setEng_eng, hpcnt]
  rw [State.passed, hpcnt, ← hseq]

theorem Missed.step_miss (hno : statusReady (s.free.byteAt k) = false)
    (hlimit : s.cfg.pollLimit = 0 ∨ (k + 1 < s.cfg.pollLimit ∧ s.cfg.pollLimit ≤ 2 ^ 32 - 1)) : Machine.step v = .next v.passed := by
  rw [h.step hrst hreset hst hbusy, hno, if_neg Bool.false_ne_true, if_neg]
  rintro ⟨hpos, hreached⟩
  rw [BitVec.toNat_ofNat, Nat.mod_eq_of_lt (by omega)] at hreached
  omega

end

theorem coreRun_congr (M : Host.Core) (k : Nat) {s t : M.State} (h : M.step s = M.step t) : M.run (k + 1) s = M.run (k + 1) t := by
  simp [Host.Core.run, h]

/-- Runs from a poll are runs from its first pass. -/
theorem run_atPoll {s : State} {rest : List Micro} (hrst : s.host.rst = []) (hst : s.eng.st = .run) (hseq : s.eng.seq = .poll :: rest) (k : Nat) :
    Host.Core.run Sys2Proof.core (k + 1) s = Host.Core.run Sys2Proof.core (k + 1) (s.atPoll rest) := by
  refine coreRun_congr Sys2Proof.core k ?_
  show step s = step (s.atPoll rest)
  rw [step_poll true hrst hst hseq, step_running (s := s.atPoll rest) hrst hst rfl]
  exact (pollPass_at rest (.pollAgain :: rest) _).symm

section
variable {s : State} {rest : List Micro} (hrst : s.host.rst = []) (hreset : s.bus.reset = .deasserted)
  (hst : s.eng.st = .run) (hbusy : s.dev.rdy = .busy)
include hrst hreset hst hbusy

/-- While the answers are not ready and the limit is not reached, passes follow each other. -/
theorem run_missed (k : Nat) (hno : ∀ n < k, statusReady (s.free.byteAt n) = false)
    (hlimit : s.cfg.pollLimit = 0 ∨ (k < s.cfg.pollLimit ∧ s.cfg.pollLimit ≤ 2 ^ 32 - 1)) :
    ∃ v : State, Host.Core.run Sys2Proof.core k (s.atPoll rest) = .next v ∧ Missed s rest k v := by
  induction k with
  | zero => exact ⟨_, rfl, .start s rest⟩
  | succ k ih =>
    obtain ⟨v, hv, hm⟩ := ih (fun n hn => hno n (by omega)) (hlimit.imp_right fun hl => ⟨by omega, hl.2⟩)
    have hk := hno k (Nat.lt_succ_self k)
    have hstep := hm.step_miss hrst hreset hst hbusy hk hlimit
    exact ⟨v.passed, run_add k 1 hv (by rw [run_succ_of_step 0 hstep]; rfl), hm.passed hbusy hk⟩

end

/-- Settles O12: `m` passes miss and the next one ends the poll. -/
theorem pollEndsAtFirstReadyStatus : Obligations.PollEndsAtFirstReadyStatus := by
  unfold Obligations.PollEndsAtFirstReadyStatus
  intro s m rest a hok hrst hreset hst hbusy hseq hno hyes hlimit
  obtain ⟨v, hv, hm⟩ := run_missed (rest := a :: rest) hrst hreset hst hbusy m hno (hlimit.imp_right fun h => ⟨h, Config.pollLimit_le hok⟩)
  have hstep : step v = .next (v.statusRead.goto (a :: rest)) := by rw [hm.step hrst hreset hst hbusy, hyes, if_pos rfl]
  refine ⟨v.statusRead.goto (a :: rest), ?_, goto_seq _ _, ?_, ?_, ?_⟩
  · rw [run_atPoll hrst hst hseq]
    exact run_add m 1 hv (by rw [run_succ_of_step 0 hstep]; rfl)
  · show v.eng.st = .run
    rw [hm.eng, hst]
  · rw [goto_dev, State.statusRead_dev, hm.statusByte hbusy, hyes, hm.dev]
    rfl
  · rw [goto_trace, hm.statusRead_trace hbusy]

/-- Status reads are no transfers. -/
theorem transfers_statusReads (f : Nat → Byte) (l : List Nat) (tr : List Transaction) :
    transfers ((l.map fun n => Transaction.statusRead (f n)).reverse ++ tr) = transfers tr := by
  rw [transfers_append, ← List.map_reverse]
  induction l.reverse with
  | nil => rfl
  | cons n l ih => exact ih

theorem Missed.trace_length {s v : State} {rest : List Micro} {k : Nat} (h : Missed s rest k v) : v.trace.length = s.trace.length + k := by
  rw [h.trace]
  simp [Nat.add_comm]

theorem Missed.transfers {s v : State} {rest : List Micro} {k : Nat} (h : Missed s rest k v) :
    Machine.transfers v.trace = Machine.transfers s.trace := by
  rw [h.trace, transfers_statusReads]

/-- Settles O13: `n - 1` passes miss below the limit, and the `n`-th reaches it. -/
theorem timeoutAfterPollLimitReads : Obligations.TimeoutAfterPollLimitReads := by
  unfold Obligations.TimeoutAfterPollLimitReads
  intro s n rest hok hrst hreset hst hbusy hseq hn hpos hno
  have hmax := Config.pollLimit_le hok
  have missed (k : Nat) (hk : k < n) := run_missed (rest := rest) hrst hreset hst hbusy k (fun j hj => hno j (by omega)) (.inr ⟨by omega, hmax⟩)
  constructor
  case left =>
    intro k hk
    cases k with
    | zero => exact ⟨s, rfl, hst, rfl⟩
    | succ k =>
      obtain ⟨v, hv, hm⟩ := missed (k + 1) hk
      exact ⟨v, by rw [run_atPoll hrst hst hseq, hv], by rw [hm.eng]; exact hst, hm.responses⟩
  case right =>
    obtain ⟨k, rfl⟩ : ∃ k, n = k + 1 := ⟨n - 1, by omega⟩
    obtain ⟨v, hv, hm⟩ := missed k (Nat.lt_succ_self k)
    have hk := hno k (Nat.lt_succ_self k)
    have hlast := hm.passed hbusy hk
    have hstep : step v = .next (v.passed.takeFault .deviceTimeout) := by
      rw [hm.step hrst hreset hst hbusy, hk, if_neg Bool.false_ne_true, if_pos]
      exact ⟨by omega, by rw [BitVec.toNat_ofNat, Nat.mod_eq_of_lt (by omega), hn]⟩
    refine ⟨v.passed.takeFault .deviceTimeout, ?_, rfl, rfl, rfl, ?_, rfl, rfl, rfl, rfl, ?_, hlast.dev, ?_, hlast.transfers, hlast.trace_length⟩
    · rw [run_atPoll hrst hst hseq]
      exact run_add k 1 hv (by rw [run_succ_of_step 0 hstep]; rfl)
    · rw [State.takeFault_eng, hlast.eng]
    · rw [State.takeFault_responses, State.rspData, State.rspBof, hlast.eng, hlast.responses]
      rfl
    · rw [State.takeFault_eng, hlast.eng]

/-- Settles O14: without a limit every pass that misses is followed by another. -/
theorem unboundedPollHangs : Obligations.UnboundedPollHangs := by
  unfold Obligations.UnboundedPollHangs
  intro s rest hrst hreset hst hbusy hseq hlimit hno k
  obtain ⟨v, hv, hm⟩ := run_missed (rest := rest) hrst hreset hst hbusy (k + 1) (fun n _ => hno n) (.inl hlimit)
  have hrun : v.eng.st = .run := by rw [hm.eng]; exact hst
  refine ⟨v, by rw [run_atPoll hrst hst hseq, hv], hrun, by rw [hm.eng], ?_, hm.responses, hm.dev, hm.trace_length, hm.transfers⟩
  simp [State.reqReady, hrun]

end Sys2Proof.Machine

namespace Sys2Proof
open Machine

/-- Settles O11: the pass is the model's, whose test of the status byte is R141's. -/
theorem pollPass : Obligations.PollPass := by
  unfold Obligations.PollPass
  intro s first rest hrst hst hreset hseq
  rw [step_poll first hrst hst hseq, pollPass_eq rest (by exact hreset)]
  simp only [statusReady_iff]
  rfl

end Sys2Proof
end

section
/-! The device's commands (30_encoding.md R118, R123; 41_device_commands.md R175 to R194): which byte selects which, what each does, and when a command
write stops. -/

namespace Sys2Proof.Machine

/-! ## What a command does (R175 to R190) -/

/-- Settles O18, command by command. -/
theorem twoOperandCommandsWriteTheirRegister : Obligations.TwoOperandCommandsWriteTheirRegister :=
  fun _ _ => ⟨rfl, rfl, rfl, rfl, rfl, rfl, rfl⟩

/-- Pointer arithmetic wraps (R79). -/
theorem pointer_succ (a : Half) : ((a + 1).toNat : Int) = (a.toNat + 1) % 65536 := by
  simp [BitVec.toNat_add]

theorem pointer_pred (a : Half) : ((a - 1).toNat : Int) = (a.toNat + -1) % 65536 := by
  have ha := a.isLt
  have hone : (1 : Half).toNat = 1 := rfl
  rw [BitVec.toNat_sub, hone]
  omega

theorem pointer_same (a : Half) : (a.toNat : Int) = (a.toNat + 0) % 65536 := by
  have ha := a.isLt
  omega

/-- Settles O20: the three commands store the same byte and differ in the pointer. -/
theorem dataWriteCommandsStore : Obligations.DataWriteCommandsStore := by
  unfold Obligations.DataWriteCommandsStore
  intro t g a c move hc
  have hself := Memory.byte_store_self t.mem g t.ap.toNat t.d1
  have hother (ha : a ≠ t.ap.toNat) := Memory.byte_store_other t.mem g t.d1 ha
  obtain ⟨rfl, rfl⟩ | ⟨rfl, rfl⟩ | ⟨rfl, rfl⟩ := hc
  · exact ⟨hself, hother, pointer_succ t.ap, rfl⟩
  · exact ⟨hself, hother, pointer_pred t.ap, rfl⟩
  · exact ⟨hself, hother, pointer_same t.ap, rfl⟩

/-- Settles O21: the three commands load the same byte and differ in the pointer. -/
theorem dataReadCommandsLoadReadLatch : Obligations.DataReadCommandsLoadReadLatch := by
  unfold Obligations.DataReadCommandsLoadReadLatch
  intro t g c move hc
  obtain ⟨rfl, rfl⟩ | ⟨rfl, rfl⟩ | ⟨rfl, rfl⟩ := hc
  · exact ⟨rfl, pointer_succ t.ap⟩
  · exact ⟨rfl, pointer_pred t.ap⟩
  · exact ⟨rfl, pointer_same t.ap⟩

/-- A read is pending after a command exactly when the command is a data read (R175, R186, R188, R190). -/
theorem runCommand_rdv (t : Device) (g : Nat) (c : DeviceCommand) :
    (t.runCommand g c).rdv = true ↔ c = .dataReadInc ∨ c = .dataReadDec ∨ c = .dataReadNonvar := by
  cases c <;> simp [Device.runCommand, Device.applyCommand, Device.storeOperand, Device.fetchByte]

/-- Besides the operand latch, the pending bit and the readiness a command leaves what its own rule does (R175). -/
theorem runCommand_eq_applyCommand (t : Device) (g : Nat) (c : DeviceCommand) :
    t.runCommand g c = { t.applyCommand g c with nop := 0, rdv := (t.runCommand g c).rdv, rdy := .busy } := by
  cases c <;> rfl

/-- No command's rule reads `T.NOP`, `T.RDV` or `T.RDYS`. -/
theorem runCommand_of_latches (t : Device) (g : Nat) (c : DeviceCommand) (n : Fin 3) (v : Bool) (r : Readiness) :
    ({ t with nop := n, rdv := v, rdy := r } : Device).runCommand g c = t.runCommand g c := by
  cases c <;> rfl

/-- Settles O60. -/
theorem everyCommandEmptiesTheLatchAndCancelsTheRead : Obligations.EveryCommandEmptiesTheLatchAndCancelsTheRead := by
  unfold Obligations.EveryCommandEmptiesTheLatchAndCancelsTheRead
  intro t g c
  exact ⟨rfl, rfl, runCommand_rdv t g c, runCommand_eq_applyCommand t g c, runCommand_of_latches t g c⟩

/-! ## Command bytes (R118, R123) -/

/-- A four-bit argument as the byte the engine adds. -/
theorem nibble_byte (arg : Nibble) : arg.setWidth 8 = BitVec.ofNat 8 arg.toNat := BitVec.eq_of_toNat_eq (by simp)

theorem decodeCommand_displayMode_nibble {g : Config} (h : g.commandsOK = true) (arg : Nibble) :
    decodeCommand g.cmd (g.cmd.displayMode + arg.setWidth 8) = some (.displayMode arg) := by
  have := decodeCommand_displayMode h arg.toNat (Nat.lt_succ_iff.mp arg.isLt)
  rwa [← nibble_byte, BitVec.ofNat_toNat, BitVec.setWidth_eq] at this

/-- Settles O19. -/
theorem modeCommandsTakeTheLowFourBits : Obligations.ModeCommandsTakeTheLowFourBits := by
  unfold Obligations.ModeCommandsTakeTheLowFourBits
  intro g t gen arg hok
  have hcmd := Config.commands_of_ok hok
  exact ⟨.modeSet arg, .displayMode arg, decodeCommand_modeSet hcmd arg, rfl, rfl, decodeCommand_displayMode_nibble hcmd arg, rfl, rfl⟩

theorem decodeCommand_commandByte {g : Config} (h : g.commandsOK = true) (c : DeviceCommand) :
    decodeCommand g.cmd (commandByte g.cmd c) = some c := by
  obtain ⟨e1, e2, e3, e4, e5, e6, e7, e8, e9, e10, e11, e12, e13⟩ := decodeCommand_exact h
  cases c with
  | modeSet arg => exact decodeCommand_modeSet h arg
  | displayMode arg => exact decodeCommand_displayMode_nibble h arg
  | _ => assumption

/-- A byte with a mode command's high four bits is that command's byte with the low four bits for its argument. -/
theorem eq_add_lowNibble {b k : Byte} (hhigh : highNibble b = highNibble k) (hlow : lowNibble k = 0) : b = k + (lowNibble b).setWidth 8 := by
  have hb := congrArg BitVec.toNat hhigh
  have hk := congrArg BitVec.toNat hlow
  have hzero : (0 : Nibble).toNat = 0 := rfl
  have := b.isLt
  have := k.isLt
  apply BitVec.eq_of_toNat_eq
  simp only [highNibble, lowNibble, BitVec.extractLsb'_toNat, BitVec.toNat_add, BitVec.toNat_setWidth, Nat.shiftRight_eq_div_pow,
    hzero] at hb hk ⊢
  omega

/-- Which branch of a chain of tests answered. -/
theorem ite_some_cases {α : Type} {p : Prop} [Decidable p] {x c : α} {y : Option α} (h : (if p then some x else y) = some c) :
    (p ∧ x = c) ∨ y = some c := by
  split at h
  case isTrue hp => exact .inl ⟨hp, by injection h⟩
  case isFalse => exact .inr h

theorem eq_commandByte_of_decodeCommand {g : Config} (h : g.commandsOK = true) {b : Byte} {c : DeviceCommand}
    (hd : decodeCommand g.cmd b = some c) : b = commandByte g.cmd c := by
  obtain ⟨_, _, _, hmode, hdisplay, _⟩ := Config.commandsOK_iff.mp h
  unfold decodeCommand at hd
  iterate 7
    obtain ⟨he, rfl⟩ | hd := ite_some_cases hd
    · exact he
  obtain ⟨he, rfl⟩ | hd := ite_some_cases hd
  · exact eq_add_lowNibble he hmode
  obtain ⟨he, rfl⟩ | hd := ite_some_cases hd
  · exact eq_add_lowNibble he hdisplay
  iterate 6
    obtain ⟨he, rfl⟩ | hd := ite_some_cases hd
    · exact he
  cases hd

/-- Settles O22. -/
theorem commandBytesDecode : Obligations.CommandBytesDecode := by
  unfold Obligations.CommandBytesDecode
  intro g b c hok
  have hcmd := Config.commands_of_ok hok
  exact ⟨eq_commandByte_of_decodeCommand hcmd, fun h => h ▸ decodeCommand_commandByte hcmd c⟩

/-! ## A command write, refused or taken -/

theorem busWrite_held {s : State} (cd : Bool) (v : Byte) (h : s.bus.reset = .asserted) : s.busWrite cd v = .refused .deviceHeldInReset := by
  simp [State.busWrite, State.transferBlocked, h]

theorem busWrite_to_busy {s : State} (cd : Bool) (v : Byte) (h : s.bus.reset = .deasserted) (hy : s.dev.rdy = .busy) :
    s.busWrite cd v = .refused .transferWhileBusy := by
  simp [State.busWrite, State.transferBlocked, h, hy]

section
variable {s : State} {k : Byte} (hr : s.bus.reset = .deasserted) (hy : s.dev.rdy = .ready)
include hr hy

theorem busWrite_command_unknown (hk : decodeCommand s.cfg.cmd k = none) : s.busWrite true k = .refused (.unknownCommand k) := by
  simp [State.busWrite, transferBlocked_none hr hy, State.commandWrite, hk]

theorem busWrite_command_mismatch {c : DeviceCommand} (hk : decodeCommand s.cfg.cmd k = some c) (hn : s.dev.nop ≠ c.operands) :
    s.busWrite true k = .refused .operandCountMismatch := by
  simp [State.busWrite, transferBlocked_none hr hy, State.commandWrite, hk, hn]

theorem busWrite_command_unpopulated {c : DeviceCommand} (hk : decodeCommand s.cfg.cmd k = some c) (hn : s.dev.nop = c.operands)
    (hm : c.accessesMemory = true) (hp : s.cfg.ramSize ≤ s.dev.ap.toNat) : s.busWrite true k = .fault (.unpopulatedAddress s.dev.ap.toNat) := by
  simp [State.busWrite, transferBlocked_none hr hy, State.commandWrite, hk, hn, hm, populated, Nat.not_lt.mpr hp]

end

/-- Settles O23: `busWrite_command` when the write is taken, else the stop of its condition. -/
theorem commandWriteStops : Obligations.CommandWriteStops := by
  unfold Obligations.CommandWriteStops
  intro s k
  refine ⟨busWrite_held true k, busWrite_to_busy true k, fun hr hy => ⟨busWrite_command_unknown hr hy, fun c hk => ⟨?_, ?_, ?_⟩⟩⟩
  · exact busWrite_command_mismatch hr hy hk
  · exact busWrite_command_unpopulated hr hy hk
  · intro hn hp
    rw [busWrite_command hr hy hk hn hp, Bus.perform_writeCalls]

end Sys2Proof.Machine
end

section
/-! The operations that expose the protocol (40_protocol.md R152 to R155): what each leaves at its end, where each stops, and where any operation stops that is
accepted while the device is held in reset (41_device_commands.md R191 to R194; 70_reset_and_hazards.md R354). -/

namespace Sys2Proof.Machine

/-! ## Operations run to their end -/

/-- Accepted in `s`, the operation `i` runs to its end and leaves what `State.ended` says, but for what its polls leave free; the device goes on answering. -/
def RunsTo (s : State) (i : Instr) (e : Engine) (d : Device) (b : Bus) (ts : List Transaction) : Prop :=
  ∃ t u, exec i s = .next t ∧ Reaches t u ∧ Responsive u ∧ Alike u (s.ended i e d b ts)

/-- What the program logic says of an operation's steps, said of the operation. -/
theorem RunsTo.of_goes {s w : State} {i : Instr} {m : Micro} {rest : List Micro} {e : Engine} {d : Device} {b : Bus} {ts : List Transaction}
    (hs : Serving s) (hexec : exec i s = startOperation i (m :: rest) s) (hgo : Goes (s.begun i) (m :: rest) w [])
    (hw : Alike w.finish (s.ended i e d b ts)) : RunsTo s i e d b ts := by
  obtain ⟨t, u, ht, hreach, hend, hresp⟩ := startOperation_ends hs hgo
  exact ⟨t, u, hexec.trans ht, hreach, hresp, hend.trans hw⟩

/-! ## Raw writes -/

/-- WRC: after the poll the device takes the command (R152). -/
theorem wrc_runsTo {s : State} {v : Byte} {c : DeviceCommand} (hs : Serving s) (hk : decodeCommand s.cfg.cmd v = some c)
    (hn : s.dev.nop = c.operands) (hp : c.accessesMemory = true → s.dev.ap.toNat < s.cfg.ramSize) :
    RunsTo s (.wrc v) s.eng (s.dev.runCommand s.free.memGen c) (s.bus.afterWrite true v) [.commandWrite v] :=
  .of_goes hs rfl (Goes.writeCmd (s := s.begun (.wrc v)) [] hk hn hp) ((Alike.refl _).ended rfl rfl rfl rfl rfl rfl rfl rfl)

/-- WRD: after the poll the latch takes the byte (R153). -/
theorem wrd_runsTo {s : State} {v : Byte} (hs : Serving s) (hn : s.dev.nop ≠ 2) :
    RunsTo s (.wrd v) s.eng (s.dev.afterData v) (s.bus.afterWrite false v) [.dataWrite v] :=
  .of_goes hs rfl (Goes.writeData (s := s.begun (.wrd v)) (.lit v) [] hn) ((Alike.refl _).ended rfl rfl rfl rfl rfl rfl rfl rfl)

/-- Settles O25. -/
theorem wrcRunsItsCommand : Obligations.WrcRunsItsCommand := by
  unfold Obligations.WrcRunsItsCommand
  intro s v c hs hk hn hp
  obtain ⟨t, u, hexec, hreach, _, hu⟩ := wrc_runsTo hs hk hn hp
  have hdev : u.dev = s.dev.runCommand s.free.memGen c := hu.dev
  refine ⟨t, u, hexec, hreach, hu, ?_, ?_⟩
  · rw [hdev, runCommand_rdv]
  · rw [hdev, ← runCommand_eq_applyCommand]

/-- Settles O26. -/
theorem wrdFillsTheLatch : Obligations.WrdFillsTheLatch := by
  unfold Obligations.WrdFillsTheLatch
  intro s v hs hn
  obtain ⟨t, u, hexec, hreach, _, hu⟩ := wrd_runsTo hs hn
  exact ⟨t, u, hexec, hreach, hu⟩

/-! ## Where a transfer stops -/

/-- An operation that begins with a poll comes to what follows it, the device ready. -/
theorem begun_reaches_polled {s : State} (i : Instr) (rest : List Micro) (hs : Serving s) :
    ∃ u, Reaches ((s.begun i).goto (.poll :: rest)) (u.goto rest) ∧ Alike u (s.begun i).polled ∧ Live u :=
  Goes.poll (s.begun i) rest _ (.refl _) (live_begun i hs)

/-- A write as a step stops as the write does. -/
theorem step_write_stops {u : State} {cd : Bool} {v : Byte} {rest : List Micro} {o : Host.Outcome State Fault Refusal} (hl : Live u)
    (h : ∀ q, (u.at q).busWrite cd v = o) (ho : ∀ t, o ≠ .next t) : step (u.goto (.busWrite cd (.lit v) :: rest)) = o := by
  rw [step_goto hl.rst hl.st]
  show writeStep cd (.lit v) rest (u.at _) = o
  unfold writeStep
  rw [Source.value, h]
  cases o with
  | next t => exact (ho t rfl).elim
  | fault f => rfl
  | refused r => rfl

section
variable {s : State} (hs : Serving s) {v : Byte}
include hs

theorem wrd_stops_full (hn : s.dev.nop = 2) :
    ∃ t u, exec (.wrd v) s = .next t ∧ Reaches t u ∧ step u = .refused .operandLatchFull := by
  obtain ⟨u, hreach, ha, hl⟩ := begun_reaches_polled (.wrd v) [.busWrite false (.lit v)] hs
  refine ⟨_, _, startOperation_eq s, hreach, step_write_stops hl (fun q => ?_) (by simp)⟩
  exact busWrite_data_full v hl.reset (by rw [State.at_dev, ha.dev]; rfl) (by rw [State.at_dev, ha.dev]; exact hn)

theorem wrc_stops_unknown (hk : decodeCommand s.cfg.cmd v = none) :
    ∃ t u, exec (.wrc v) s = .next t ∧ Reaches t u ∧ step u = .refused (.unknownCommand v) := by
  obtain ⟨u, hreach, ha, hl⟩ := begun_reaches_polled (.wrc v) [.busWrite true (.lit v)] hs
  refine ⟨_, _, startOperation_eq s, hreach, step_write_stops hl (fun q => ?_) (by simp)⟩
  exact busWrite_command_unknown hl.reset (by rw [State.at_dev, ha.dev]; rfl) (by rw [State.at_cfg, ha.cfg]; exact hk)

theorem wrc_stops_mismatch {c : DeviceCommand} (hk : decodeCommand s.cfg.cmd v = some c) (hn : s.dev.nop ≠ c.operands) :
    ∃ t u, exec (.wrc v) s = .next t ∧ Reaches t u ∧ step u = .refused .operandCountMismatch := by
  obtain ⟨u, hreach, ha, hl⟩ := begun_reaches_polled (.wrc v) [.busWrite true (.lit v)] hs
  refine ⟨_, _, startOperation_eq s, hreach, step_write_stops hl (fun q => ?_) (by simp)⟩
  exact busWrite_command_mismatch hl.reset (by rw [State.at_dev, ha.dev]; rfl) (by rw [State.at_cfg, ha.cfg]; exact hk)
    (by rw [State.at_dev, ha.dev]; exact hn)

theorem wrc_stops_unpopulated {c : DeviceCommand} (hk : decodeCommand s.cfg.cmd v = some c) (hn : s.dev.nop = c.operands)
    (hm : c.accessesMemory = true) (hp : s.cfg.ramSize ≤ s.dev.ap.toNat) :
    ∃ t u, exec (.wrc v) s = .next t ∧ Reaches t u ∧ step u = .fault (.unpopulatedAddress s.dev.ap.toNat) := by
  obtain ⟨u, hreach, ha, hl⟩ := begun_reaches_polled (.wrc v) [.busWrite true (.lit v)] hs
  have hap : u.dev.ap = s.dev.ap := by rw [ha.dev]; rfl
  refine ⟨_, _, startOperation_eq s, hreach, step_write_stops hl (fun q => ?_) (by simp)⟩
  rw [← hap]
  exact busWrite_command_unpopulated hl.reset (by rw [State.at_dev, ha.dev]; rfl) (by rw [State.at_cfg, ha.cfg]; exact hk)
    (by rw [State.at_dev, ha.dev]; exact hn) hm (by rw [State.at_cfg, ha.cfg, State.at_dev, hap]; exact hp)

theorem wch_stops_unpopulated (hn : s.dev.nop = 0) (hp : s.cfg.ramSize ≤ s.dev.ap.toNat) :
    ∃ t u, exec (.wch v) s = .next t ∧ Reaches t u ∧ step u = .fault (.unpopulatedAddress s.dev.ap.toNat) := by
  -- the data byte is taken, the command after it is not
  have hdata := Goes.writeData (s := s.begun (.wch v)) (.lit (characterCode v)) (writeCmd s.cfg.cmd.dataWriteInc)
    (show s.dev.nop ≠ 2 by rw [hn]; decide)
  obtain ⟨u, hreach, ha, hl⟩ := (hdata.trans (Goes.poll _ _)) _ (.refl _) (live_begun (.wch v) hs)
  have hdev : u.dev = { s.dev.afterData (characterCode v) with rdy := .ready } := ha.dev
  rw [Device.afterData_first _ hn] at hdev
  have hap : u.dev.ap = s.dev.ap := by rw [hdev]
  have hcfg : u.cfg = s.cfg := ha.cfg
  refine ⟨_, _, startOperation_eq s, hreach, step_write_stops hl (fun q => ?_) (by simp)⟩
  rw [← hap]
  exact busWrite_command_unpopulated (c := .dataWriteInc) hl.reset (by rw [State.at_dev, hdev])
    (by rw [State.at_cfg, hcfg]; exact decodeCommand_commandByte (Config.commands_of_ok hs.1) .dataWriteInc)
    (by rw [State.at_dev, hdev]; rfl) rfl (by rw [State.at_cfg, hcfg, State.at_dev, hap]; exact hp)

end

/-- Settles O27, stop by stop. -/
theorem rawWritesStop : Obligations.RawWritesStop := by
  unfold Obligations.RawWritesStop
  intro s v hs
  exact ⟨wrd_stops_full hs, wrc_stops_unknown hs, fun c hk => ⟨wrc_stops_mismatch hs hk, wrc_stops_unpopulated hs hk⟩,
    wch_stops_unpopulated hs⟩

/-! ## Raw reads -/

/-- Alike states agree in the choices but for those made. -/
theorem Alike.free {a b : State} (h : Alike a b) : { a.free with given := [], drawn := 0 } = { b.free with given := [], drawn := 0 } :=
  (alike_iff.mp h).2.2.2.2.2.1

/-- The lines after a poll and a read (R149, R150). -/
theorem perform_poll_read (b : Bus) (cd : Bool) : (b.perform (readCalls true)).perform (readCalls cd) = b.afterRead cd := by
  simp [Bus.perform, readCalls, BusCall.apply, Bus.afterRead]

theorem step_readData {u : State} (hl : Live u) (hy : u.dev.rdy = .ready) :
    step (u.goto [.readRes false]) = .next (u.dataRead.setEng { u.eng with res := u.dataByte.setWidth 16 }).finish := by
  rw [step_goto hl.rst hl.st]
  have hfree : (u.at [.readRes false]).transferBlocked = none := transferBlocked_none hl.reset hy
  show readResStep false [] (u.at _) = _
  rw [readResStep, hfree]
  rfl

theorem step_readStatus {u : State} (hl : Live u) (hy : u.dev.rdy = .ready) :
    step (u.goto [.readRes true]) = .next (u.statusRead.setEng { u.eng with res := u.statusByte.setWidth 16 }).finish := by
  rw [step_goto hl.rst hl.st]
  have hfree : (u.at [.readRes true]).transferBlocked = none := transferBlocked_none hl.reset hy
  show readResStep true [] (u.at _) = _
  rw [readResStep, hfree]
  rfl

/-- Settles O28: after the poll the data read answers. -/
theorem rddReadsAByte : Obligations.RddReadsAByte := by
  unfold Obligations.RddReadsAByte
  intro s hs
  obtain ⟨u, hreach, ha, hl⟩ := begun_reaches_polled .rdd [.readRes false] hs
  have hdev : u.dev = { s.dev with rdy := .ready } := ha.dev
  have heng := ha.eng_eq
  refine ⟨_, _, u.dataByte, startOperation_eq s, hreach.trans (.one (step_readData hl (by rw [hdev]))), fun hv => ?_, ?_⟩
  · rw [State.dataByte_of_pending (by rw [hdev]; exact hv), hdev]
  · refine (Alike.refl _).ended ha.cfg ?_ ?_ ?_ ?_ ?_ ?_ ?_
    · rw [State.setEng_eng, heng]; rfl
    · rw [State.setEng_dev, State.dataRead_dev, hdev]
    · rw [State.setEng_bus, State.dataRead_bus, ha.bus]; exact perform_poll_read s.bus false
    · rw [State.setEng_host, State.dataRead_host, ha.host]; rfl
    · have hfree : { u.free with given := [], drawn := 0 } = { s.free with given := [], drawn := 0 } := ha.free
      rw [State.setEng_free, State.dataRead_free, ← hfree]
      split <;> rfl
    · rw [State.setEng_trace, State.dataRead_trace, transfers_read, ha.trace]; rfl
    · exact ha.responses

/-- Settles O29: after the poll a second status read finds the device still ready. -/
theorem rdsReturnsReadyStatus : Obligations.RdsReturnsReadyStatus := by
  unfold Obligations.RdsReturnsReadyStatus
  intro s hs
  obtain ⟨u, hreach, ha, hl⟩ := begun_reaches_polled .rds [.readRes true] hs
  have hdev : u.dev = { s.dev with rdy := .ready } := ha.dev
  have hbyte : statusReady u.statusByte = true := statusByte_ready (.inr (by rw [hdev]))
  have heng := ha.eng_eq
  refine ⟨_, _, u.statusByte, startOperation_eq s, hreach.trans (.one (step_readStatus hl (by rw [hdev]))), hbyte, rfl, ?_⟩
  refine (Alike.refl _).ended ha.cfg ?_ ?_ ?_ ?_ ?_ ?_ ?_
  · rw [State.setEng_eng, heng]; rfl
  · rw [State.setEng_dev, State.statusRead_dev, hbyte, hdev]; rfl
  · rw [State.setEng_bus, State.statusRead_bus, ha.bus]; exact perform_poll_read s.bus true
  · rw [State.setEng_host, State.statusRead_host, ha.host]; rfl
  · have hfree : { u.free with given := [], drawn := 0 } = { s.free with given := [], drawn := 0 } := ha.free
    rw [State.setEng_free, State.statusRead_free, ← hfree]
    rfl
  · rw [State.setEng_trace, State.statusRead_trace, transfers_status, ha.trace]; rfl
  · exact ha.responses

end Sys2Proof.Machine
end

section
/-! Where an operation stops that is accepted while the device is held in reset (41_device_commands.md R194; 70_reset_and_hazards.md R354): the steps before its
first status read stay inside the engine. -/

namespace Sys2Proof.Machine

/-! ## Coming to the first poll -/

/-- Writing working registers does not read the sequencer's position. -/
theorem setRegs_of_seq (e : Engine) (q : List Micro) (l : List (Fin 16 × Int)) :
    ({ e with seq := q } : Engine).setRegs l = { e.setRegs l with seq := q } := by
  obtain ⟨x, hx⟩ := setRegs_with e l
  exact (hx q e.pcnt).trans (by rw [show e.setRegs l = _ from hx e.seq e.pcnt])

theorem circleStart_of_seq (e : Engine) (q : List Micro) : ({ e with seq := q } : Engine).circleStart = { e.circleStart with seq := q } := by
  rw [circleStart_setRegs, circleStart_setRegs]
  exact setRegs_of_seq e q _

theorem lineStart_of_seq (e : Engine) (q : List Micro) : ({ e with seq := q } : Engine).lineStart = { e.lineStart with seq := q } := by
  rw [lineStart_setRegs, lineStart_setRegs]
  exact setRegs_of_seq e q _

/-- From `s` with `q` to do the engine comes to a poll having changed nothing but itself, and still runs. -/
def ComesToPoll (s : State) (q : List Micro) : Prop :=
  ∃ e rest, e.st = .run ∧ Reaches (s.goto q) ((s.setEng e).goto (.poll :: rest))

theorem ComesToPoll.here {s : State} {rest : List Micro} (hst : s.eng.st = .run) : ComesToPoll s (.poll :: rest) :=
  ⟨s.eng, rest, hst, .refl _⟩

/-- A step inside the engine, and then on. -/
theorem ComesToPoll.step {s : State} {m : Micro} {rest q : List Micro} {e : Engine} (hrst : s.host.rst = []) (hst : s.eng.st = .run)
    (hm : microStep m rest (s.at (m :: rest)) = .next ((s.setEng e).goto q)) (h : ComesToPoll (s.setEng e) q) : ComesToPoll s (m :: rest) := by
  obtain ⟨e', rest', hst', hreach⟩ := h
  exact ⟨e', rest', hst', .head (by rw [step_goto hrst hst, hm]) hreach⟩

section
variable {s : State} {rest : List Micro} {a : Half} {x y : Int} {c : Bool} (hrst : s.host.rst = []) (hst : s.eng.st = .run)
include hrst hst

theorem ComesToPoll.setAP : ComesToPoll s (.setAP a :: rest) :=
  .step (e := s.eng.setReg ADDR a.toNat) hrst hst rfl (.here hst)

theorem ComesToPoll.setPixel : ComesToPoll s (.setPixel x y c :: rest) :=
  .step (e := { s.eng with bit := BitVec.ofInt 8 (bitOffset s.cfg x) }) (q := .setAP (deviceAddress (graphicAddress s.cfg x y)) :: _)
    hrst hst rfl (.setAP hrst hst)

theorem ComesToPoll.rectVertical (hcount : s.eng.reg CNT = 0) (hh : 0 < operand s.eng.d) : ComesToPoll s (.rectVertical :: rest) := by
  refine .step (e := s.eng) (q := .setPixel (operand s.eng.a) (operand s.eng.b + 0) s.eng.color
    :: .setPixel (operand s.eng.a + operand s.eng.c - 1) (operand s.eng.b + 0) s.eng.color :: .bumpCount :: .rectVertical :: rest)
    hrst hst ?_ (.setPixel hrst hst)
  have hreg : (s.at (.rectVertical :: rest)).eng.reg CNT = 0 := hcount
  have hd : (s.at (.rectVertical :: rest)).eng.d = s.eng.d := rfl
  show Host.Outcome.next (rectVerticalStep rest (s.at (.rectVertical :: rest))) = _
  simp only [rectVerticalStep, hreg, hd, if_pos hh]
  rfl

/-- RECT's first pass of the vertical loop plots, its height being positive (R270, R271). -/
theorem ComesToPoll.rect (hh : 0 < operand s.eng.d) : ComesToPoll s (.clearCount :: .rectVertical :: rest) :=
  .step (e := s.eng.setReg CNT 0) (q := .rectVertical :: rest) hrst hst rfl
    (.rectVertical hrst hst (reg_setReg_self _ _ _ (by omega) (by omega)) hh)

theorem ComesToPoll.circleLoop (h : s.eng.reg CIRX ≥ s.eng.reg CIRY) : ComesToPoll s (.circleLoop :: rest) := by
  refine .step (e := s.eng)
    (q := (octantPoints (operand s.eng.a) (operand s.eng.b) (s.eng.reg CIRX) (s.eng.reg CIRY)).map (fun p => .setPixel p.1 p.2 s.eng.color)
      ++ [.circleStep, .circleLoop] ++ rest) hrst hst ?pass ?plots
  case plots =>
    rw [octantPoints, List.map_cons, List.cons_append, List.cons_append]
    exact .setPixel hrst hst
  show Host.Outcome.next (circleLoopStep rest (s.at (.circleLoop :: rest))) = _
  simp only [circleLoopStep, State.at_eng, reg_seq, color_seq, if_pos h, State.goto_at]
  rfl

/-- CIRC's first pass plots, its radius not being negative (R280, R281). -/
theorem ComesToPoll.circle (h0 : 0 ≤ operand s.eng.c) (hr : operand s.eng.c ≤ 16383) :
    ComesToPoll s (.circleStart :: .circleLoop :: rest) := by
  have hrun : s.eng.circleStart.st = .run := by rw [circleStart_x]; exact hst
  obtain ⟨hx, hy, _⟩ := holds_start h0 hr
  refine .step (e := s.eng.circleStart) (q := .circleLoop :: rest) hrst hst ?_ (.circleLoop (s := s.setEng s.eng.circleStart) hrst hrun ?_)
  · show Host.Outcome.next (circleStartStep (.circleLoop :: rest) (s.at _)) = _
    rw [circleStartStep, State.at_eng, circleStart_of_seq]
    rfl
  · rw [State.setEng_eng, hx, hy]
    exact h0

/-- LINE plots its start pixel always (R290). -/
theorem ComesToPoll.line : ComesToPoll s (.lineStart :: rest) := by
  have hrun : s.eng.lineStart.st = .run := by rw [lineStart_x]; exact hst
  refine .step (s := s) (e := s.eng.lineStart) (q := .setPixel (operand s.eng.a) (operand s.eng.b) s.eng.color :: .lineBranch :: rest) hrst hst ?_
    (.setPixel (s := s.setEng s.eng.lineStart) hrst hrun)
  show Host.Outcome.next (lineStartStep rest (s.at _)) = _
  rw [lineStartStep, State.at_eng, lineStart_of_seq]
  rfl

end

/-! ## The refusal -/

/-- A status read is refused while the reset line is asserted (R194). -/
theorem step_poll_held {s : State} {rest : List Micro} (hrst : s.host.rst = []) (hst : s.eng.st = .run) (hreset : s.bus.reset = .asserted) :
    step (s.goto (.poll :: rest)) = .refused .deviceHeldInReset := by
  rw [step_goto hrst hst]
  show pollPass rest _ = _
  simp [pollPass, hreset]

/-- An operation whose steps come to a poll is refused there. -/
theorem refused_of_comesToPoll {s : State} {i : Instr} {m : Micro} {rest : List Micro} (hrst : s.host.rst = []) (hreset : s.bus.reset = .asserted)
    (hexec : exec i s = startOperation i (m :: rest) s) (h : ComesToPoll (s.begun i) (m :: rest)) :
    ∃ t u, exec i s = .next t ∧ Reaches t u ∧ step u = .refused .deviceHeldInReset
      ∧ u.trace = s.trace ∧ u.dev = s.dev ∧ u.bus = s.bus ∧ u.responses = s.responses := by
  obtain ⟨e, rest', hst, hreach⟩ := h
  exact ⟨_, _, hexec.trans (startOperation_eq s), hreach, step_poll_held hrst hst hreset, rfl, rfl, rfl, rfl⟩

/-- Settles O24, operation by operation. -/
theorem operationsInResetAreRefused : Obligations.OperationsInResetAreRefused := by
  unfold Obligations.OperationsInResetAreRefused
  intro i s hneeds hin hok hrst hreset
  cases i with
  | init => cases hneeds
  | txa x y => cases hneeds
  | gra x y => cases hneeds
  | cga slot => cases hneeds
  | wrc v => exact refused_of_comesToPoll hrst hreset rfl (.here rfl)
  | wrd v => exact refused_of_comesToPoll hrst hreset rfl (.here rfl)
  | rdd => exact refused_of_comesToPoll hrst hreset rfl (.here rfl)
  | rds => exact refused_of_comesToPoll hrst hreset rfl (.here rfl)
  | sor v => exact refused_of_comesToPoll hrst hreset rfl (.here rfl)
  | wch ch => exact refused_of_comesToPoll hrst hreset rfl (.here rfl)
  | scp x y => exact refused_of_comesToPoll hrst hreset (if_pos hin) (.here rfl)
  | close => exact refused_of_comesToPoll hrst hreset rfl (.setAP hrst rfl)
  | clt => exact refused_of_comesToPoll hrst hreset rfl (.setAP hrst rfl)
  | clg => exact refused_of_comesToPoll hrst hreset rfl (.setAP hrst rfl)
  | clc => exact refused_of_comesToPoll hrst hreset rfl (.setAP hrst rfl)
  | sap x y => exact refused_of_comesToPoll hrst hreset (if_pos hin) (.setAP hrst rfl)
  | defc slot glyph => exact refused_of_comesToPoll hrst hreset (if_pos hin) (.setAP hrst rfl)
  | spx x y color => exact refused_of_comesToPoll hrst hreset (if_pos hin) (.setPixel hrst rfl)
  | rect x y w h color =>
    have hd : (s.begun (.rect x y w h color)).eng.d = h := descriptorOf_d ..
    have hpos := (rect_admitted hok hin).2.1
    exact refused_of_comesToPoll hrst hreset (if_pos hin) (.rect hrst rfl (by rw [hd]; omega))
  | circ cx cy r color =>
    have hc : (s.begun (.circ cx cy r color)).eng.c = r := descriptorOf_c ..
    obtain ⟨h0, hr, _⟩ := circle_admitted hok hin
    exact refused_of_comesToPoll hrst hreset (if_pos hin) (.circle hrst rfl (by rw [hc]; exact h0) (by rw [hc]; exact hr))
  | line x1 y1 x2 y2 color => exact refused_of_comesToPoll hrst hreset (if_pos hin) (.line hrst rfl)

end Sys2Proof.Machine
end

section
/-! The rules about integers alone: the host's truncation (30_encoding.md R106), the translator on its range (42_addressing.md R214), and the points of the
three shapes (45_rectangle.md R270; 46_circle.md R281; 47_line.md R291). -/

namespace Sys2Proof.Machine

/-! ## The host's truncation -/

theorem sendOperand_eq_some_iff {t : Int} {h : Half} : sendOperand t = some h ↔ h.toInt = t := by
  unfold sendOperand
  constructor
  · intro he
    split at he
    · rename_i hb
      cases he
      rw [BitVec.toInt_ofInt]
      exact Int.bmod_eq_of_le (by omega) (by omega)
    · cases he
  · rintro rfl
    have hlow := BitVec.le_toInt h
    have hhigh := BitVec.toInt_lt (x := h)
    rw [if_pos (by omega), BitVec.ofInt_toInt]

theorem sendOperand_eq_none_iff {t : Int} : sendOperand t = none ↔ t < -32768 ∨ 32767 < t := by
  unfold sendOperand
  split
  · simp; omega
  · simp; omega

/-- Division that truncates toward zero: the quotient has the dividend's sign and takes as much of it as fits. -/
theorem tdiv_toward_zero (num : Int) {den : Nat} (hden : 0 < den) :
    (num.tdiv den * den).natAbs ≤ num.natAbs ∧ (num - num.tdiv den * den).natAbs < den ∧ 0 ≤ num.tdiv den * num := by
  have hrem : num - num.tdiv den * den = num.tmod den := by rw [Int.tmod_def, Int.mul_comm]
  refine ⟨?_, ?_, ?_⟩
  · rw [Int.natAbs_mul, Int.natAbs_tdiv, Int.natAbs_natCast]
    exact Nat.div_mul_le_self ..
  · rw [hrem, Int.natAbs_tmod, Int.natAbs_natCast]
    exact Nat.mod_lt _ hden
  · have hnat (k : Nat) : 0 ≤ (k : Int).tdiv den * k := Int.mul_nonneg (Int.tdiv_nonneg (by omega) (by omega)) (by omega)
    obtain ⟨k, rfl | rfl⟩ := Int.eq_nat_or_neg num
    · exact hnat k
    · rw [Int.neg_tdiv, neg_mul_neg]
      exact hnat k

/-- Settles O52: what is sent is the quotient itself. -/
theorem coordinatesTruncateTowardZero : Obligations.CoordinatesTruncateTowardZero := by
  unfold Obligations.CoordinatesTruncateTowardZero
  intro num den hden
  refine ⟨fun h hs => ?_, sendOperand_eq_none_iff⟩
  rw [sendOperand_eq_some_iff.mp hs]
  exact tdiv_toward_zero num hden

/-! ## The translator -/

theorem cgAddress_bounds {g : Config} {slot : Byte} {n : Nat} (hs : inSlots g slot = true) (hn : n < 8) :
    (g.extCgHome : Int) ≤ cgAddress g slot.toNat + n ∧ cgAddress g slot.toNat + n < g.extCgHome + g.extCgSize := by
  have hs : slot.toNat < g.extCgGlyphs := of_decide_eq_true hs
  unfold cgAddress Config.extCgSize
  omega

/-- A row lower is at a higher address (R214). -/
theorem graphicAddress_strictMono {g : Config} {x y y' : Int} (h : inGraphic g x y = true) (hy : y < y') :
    graphicAddress g x y < graphicAddress g x y' := by
  obtain ⟨hx, _, hcol, _, _⟩ := inGraphic_iff.mp h
  have hpos : 0 < (g.graphicArea : Int) := lt_of_le_of_lt (Int.ediv_nonneg hx (by omega)) hcol
  have := Int.mul_lt_mul_of_pos_left hy hpos
  unfold graphicAddress
  omega

/-- A pixel further right is not at a lower address (R214). -/
theorem graphicAddress_mono {g : Config} (hok : g.ok = true) {x x' y : Int} (h : x ≤ x') : graphicAddress g x y ≤ graphicAddress g x' y := by
  have hf : (0 : Int) < g.fontWidth := by rcases Config.fontWidth_cases hok with e | e <;> omega
  have := Int.ediv_le_ediv hf h
  unfold graphicAddress
  omega

/-- Settles O46, clause by clause. -/
theorem translatorIsInjectiveAndInArea : Obligations.TranslatorIsInjectiveAndInArea := by
  unfold Obligations.TranslatorIsInjectiveAndInArea
  intro g hok x y x' y'
  refine ⟨fun h => ?_, textAddress_bounds, fun _ _ => cgAddress_bounds, pixel_injective hok, fun h _ => graphicAddress_strictMono h, graphicAddress_mono hok⟩
  obtain ⟨hlow, hhigh⟩ := graphicAddress_bounds hok h
  exact ⟨hlow, hhigh, bitOffset_bounds hok⟩

/-! ## The rectangle -/

theorem mem_rectPoints {x y w h px py : Int} : (px, py) ∈ rectPoints x y w h ↔
    (∃ n : Nat, n < h.toNat ∧ (px = x ∨ px = x + w - 1) ∧ py = y + n) ∨ ∃ n : Nat, n < w.toNat ∧ px = x + n ∧ (py = y ∨ py = y + h - 1) := by
  simp only [rectPoints, List.mem_append, List.mem_flatMap, List.mem_range, List.mem_cons, List.not_mem_nil, or_false, Prod.mk.injEq,
    or_and_right, and_or_left]

/-- Settles O41: a point of a vertical edge is plotted in its row's pass, one of a horizontal edge in its column's. -/
theorem rectPointsAreTheOutline : Obligations.RectPointsAreTheOutline := by
  unfold Obligations.RectPointsAreTheOutline
  intro x y w h px py hw hh
  rw [mem_rectPoints]
  constructor
  · rintro (⟨n, hn, hx, hy⟩ | ⟨n, hn, hx, hy⟩) <;> omega
  · rintro ⟨hin, hx | hx | hy | hy⟩
    · exact .inl ⟨(py - y).toNat, by omega, .inl hx, by omega⟩
    · exact .inl ⟨(py - y).toNat, by omega, .inr hx, by omega⟩
    · exact .inr ⟨(px - x).toNat, by omega, by omega, .inl hy⟩
    · exact .inr ⟨(px - x).toNat, by omega, by omega, .inr hy⟩

/-! ## The circle -/

theorem CircleTuple.next_y (t : CircleTuple) : t.next.y = t.y + 1 := by
  unfold CircleTuple.next
  split <;> rfl

theorem circleTuples_inv {r : Int} (fuel : Nat) : ∀ {t : CircleTuple}, t.Inv r → ∀ u ∈ circleTuples fuel t, u.Inv r := by
  induction fuel with
  | zero => intro t _ u hu; cases hu
  | succ fuel ih =>
    intro t ht u hu
    rw [circleTuples] at hu
    split at hu
    next hxy =>
      rcases List.mem_cons.mp hu with rfl | hu
      · exact ht
      · exact ih (CircleTuple.inv_next ht hxy) u hu
    next => cases hu

/-- As `Y` grows by one a step and stays at most `r`, `r + 1 - Y` steps are all there are (R281). -/
theorem circleTuples_prefix {r : Int} (fuel : Nat) : ∀ {n : Nat} {t : CircleTuple}, t.Inv r → r + 1 - t.y ≤ n →
    circleTuples fuel t <+: circleTuples n t := by
  induction fuel with
  | zero => intro n t _ _; exact List.nil_prefix
  | succ fuel ih =>
    intro n t ht hn
    by_cases hxy : t.x ≥ t.y
    · obtain ⟨n, rfl⟩ : ∃ m, n = m + 1 := ⟨n - 1, by have := ht.xHigh; omega⟩
      rw [circleTuples, circleTuples, if_pos hxy, if_pos hxy, List.cons_prefix_cons]
      exact ⟨rfl, ih (CircleTuple.inv_next ht hxy) (by rw [CircleTuple.next_y]; omega)⟩
    · rw [circleTuples, if_neg hxy]
      exact List.nil_prefix

/-- Settles O43: the invariant of every tuple, and the bound on their number. -/
theorem circleStepsKeepTheirInvariant : Obligations.CircleStepsKeepTheirInvariant := by
  unfold Obligations.CircleStepsKeepTheirInvariant
  intro r hr fuel t ht
  have hstart := CircleTuple.inv_start hr
  obtain ⟨hxch, hych, hrerr, _, _, _, _⟩ := circleTuples_inv fuel hstart t ht
  obtain ⟨hy, hyx, hx⟩ := circleTuples_bounds fuel hstart t ht
  exact ⟨hxch, hych, hrerr, hy, hyx, hx, circleTuples_prefix fuel hstart (by simp only [CircleTuple.start]; omega)⟩

theorem length_circleTuples_le (fuel : Nat) : ∀ t : CircleTuple, (circleTuples fuel t).length ≤ fuel := by
  induction fuel with
  | zero => intro t; exact Nat.le_refl 0
  | succ fuel ih =>
    intro t
    rw [circleTuples]
    split
    · exact Nat.succ_le_succ (ih _)
    · exact Nat.zero_le _

/-- Eight points a step, at most `r + 1` steps (R280, R281). -/
theorem length_circlePoints_le (cx cy r : Int) : (circlePoints cx cy r).length ≤ 8 * (r + 1).toNat := by
  have hoct : ∀ t ∈ circleTuples (r + 1).toNat (CircleTuple.start r), (octantPoints cx cy t.x t.y).length = 8 := fun _ _ => rfl
  rw [circlePoints, List.length_flatMap, List.map_congr_left hoct, List.map_const', List.sum_replicate, smul_eq_mul, Nat.mul_comm]
  exact Nat.mul_le_mul_left 8 (length_circleTuples_le ..)

/-- The first step is always made (R280). -/
theorem circlePoints_ne_nil {cx cy r : Int} (hr : 0 ≤ r) : circlePoints cx cy r ≠ [] := by
  obtain ⟨n, hn⟩ : ∃ n, (r + 1).toNat = n + 1 := ⟨r.toNat, by omega⟩
  have hxy : (CircleTuple.start r).x ≥ (CircleTuple.start r).y := hr
  rw [circlePoints, hn, circleTuples, if_pos hxy, List.flatMap_cons, octantPoints]
  exact List.cons_ne_nil _ _

/-! ## The line -/

theorem lineSign_mul (delta : Int) : lineSign delta * delta.natAbs = delta := by
  unfold lineSign
  split <;> omega

/-- The start point and the trail along a driving axis, on which `a` and `u` are the ends; `b` and `v` are those on the other axis (R290). -/
def drivenPoints (a b u v : Int) : List (Int × Int) :=
  (a, b) :: lineTrail (lineSign (u - a)) (lineSign (v - b)) (u - a).natAbs (2 * (u - a).natAbs) (2 * (v - b).natAbs) (u - a).natAbs a b 0

/-- LINE's points are those of its driving axis (R290). -/
theorem linePoints_eq (x1 y1 x2 y2 : Int) : linePoints x1 y1 x2 y2 =
    if (y2 - y1).natAbs ≤ (x2 - x1).natAbs then drivenPoints x1 y1 x2 y2 else (drivenPoints y1 x1 y2 x2).map fun p => (p.2, p.1) := by
  unfold linePoints
  simp only [Int.toNat_natCast, Int.ofNat_le]
  split <;> rfl

/-- One pass a point, the last at the end point (R291): the accumulator's bounds allow one number of moves along the other axis only. -/
theorem drivenPoints_ends {a b u v : Int} (hle : (v - b).natAbs ≤ (u - a).natAbs) :
    (drivenPoints a b u v).length = (u - a).natAbs + 1 ∧ (drivenPoints a b u v).getLast? = some (u, v) := by
  unfold drivenPoints
  have hu := lineSign_mul (u - a)
  have hv := lineSign_mul (v - b)
  generalize (u - a).natAbs = d at hle hu ⊢
  generalize (v - b).natAbs = d' at hle hv ⊢
  cases d with
  | zero =>
    obtain rfl : d' = 0 := by omega
    have hend : (a, b) = (u, v) := Prod.ext (by simp only; omega) (by simp only; omega)
    exact ⟨rfl, congrArg some hend⟩
  | succ n =>
    obtain ⟨hlen, hget⟩ := lineTrail_get (inc := lineSign (u - a)) (inc' := lineSign (v - b)) (d := (n + 1 : Nat)) (d' := d') (by omega) (by omega)
      (n + 1) ⟨a, b, 0⟩ (by simp only; omega) (by simp only; omega)
    simp only at hlen hget
    have hlast := List.getElem?_eq_getElem (lt_of_lt_of_eq (Nat.lt_succ_self n) hlen.symm)
    obtain ⟨k, _, h1, h2, hlow, hhigh⟩ := hget n _ hlast
    have hacc : 0 + 2 * (d' : Int) * (n + 1) - 2 * ((n + 1 : Nat) : Int) * k = 2 * ((n + 1 : Nat) : Int) * (d' - k) := by push_cast; ring
    rw [hacc] at hlow hhigh
    have hk : k = d' := sub_mul_le (by omega) hlow hhigh
    rw [hk, hv] at h2
    rw [← Int.natCast_succ, hu] at h1
    rw [List.getLast?_eq_getElem?, List.length_cons, hlen, Nat.add_sub_cancel, List.getElem?_cons_succ, hlast]
    exact ⟨rfl, congrArg some (Prod.ext (h1.trans (by omega)) (h2.trans (by omega)))⟩

theorem linePoints_ends (x1 y1 x2 y2 : Int) : (linePoints x1 y1 x2 y2).length = max (x2 - x1).natAbs (y2 - y1).natAbs + 1
    ∧ (linePoints x1 y1 x2 y2).getLast? = some (x2, y2) := by
  rw [linePoints_eq]
  split
  next hle =>
    rw [Nat.max_eq_left hle]
    exact drivenPoints_ends hle
  next hle =>
    obtain ⟨hlen, hlast⟩ := drivenPoints_ends (Nat.le_of_not_le hle)
    rw [Nat.max_eq_right (Nat.le_of_not_le hle), List.length_map, List.getLast?_map, hlast]
    exact ⟨hlen, rfl⟩

/-- Settles O45: the ends by the driving axis, the box by `linePoints_between`. -/
theorem lineReachesItsEndpoint : Obligations.LineReachesItsEndpoint := by
  unfold Obligations.LineReachesItsEndpoint
  intro x1 y1 x2 y2
  obtain ⟨hlen, hlast⟩ := linePoints_ends x1 y1 x2 y2
  refine ⟨hlen, rfl, hlast, fun p hp => ?_⟩
  have := linePoints_between p hp
  omega

end Sys2Proof.Machine
end

section
/-! The queries, the pointer and register operations, one pixel and one character: what each leaves at its end (42_addressing.md R217 to R222;
43_pixel_memory.md R240, R241; 44_text.md R260). -/

namespace Sys2Proof.Machine

/-! ## Addresses as the engine sends them -/

section
variable {g : Config} (h : g.ok = true)
include h

theorem deviceAddress_text {x y : Int} (ht : inText g x y = true) :
    ((deviceAddress (textAddress g x y)).toNat : Int) = textAddress g x y ∧ textAddress g x y < g.ramSize := by
  have hb := textAddress_bounds ht
  have hl := Config.text_le h
  have hr := Config.ramSize_le h
  exact ⟨deviceAddress_toNat (by omega) (by omega), by omega⟩

theorem deviceAddress_graphic {x y : Int} (hg : inGraphic g x y = true) :
    ((deviceAddress (graphicAddress g x y)).toNat : Int) = graphicAddress g x y ∧ graphicAddress g x y < g.ramSize := by
  have hb := graphicAddress_bounds h hg
  have hl := Config.graphic_le h
  have hr := Config.ramSize_le h
  exact ⟨deviceAddress_toNat (by omega) (by omega), by omega⟩

theorem deviceAddress_cg {slot : Byte} (hs : inSlots g slot = true) :
    (deviceAddress (cgAddress g slot.toNat)).toNat = g.offsetReg * 2048 + 8 * slot.toNat
      ∧ g.offsetReg * 2048 + 8 * slot.toNat + 8 ≤ g.ramSize := by
  have hb := cgAddress_bounds (n := 7) hs (by omega)
  have hl := Config.cg_le h
  have hr := Config.ramSize_le h
  have ha : cgAddress g slot.toNat = ((g.offsetReg * 2048 + 8 * slot.toNat : Nat) : Int) := by simp [cgAddress, Config.extCgHome]
  rw [ha] at hb ⊢
  have := deviceAddress_toNat (a := ((g.offsetReg * 2048 + 8 * slot.toNat : Nat) : Int)) (by omega) (by omega)
  omega

theorem bitOffset_byte {x : Int} : ((BitVec.ofInt 8 (bitOffset g x)).toNat : Int) = bitOffset g x ∧ bitOffset g x < 8 := by
  have hb := bitOffset_bounds h (x := x)
  have hf : g.fontWidth ≤ 8 := by rcases Config.fontWidth_cases h with e | e <;> omega
  exact ⟨bitOffset_toNat hb.1 (by omega), by omega⟩

end

/-! ## Queries -/

/-- Settles O32: the addresses are those of the translator, within sixteen bits. -/
theorem queriesAnswerAtOnce : Obligations.QueriesAnswerAtOnce := by
  unfold Obligations.QueriesAnswerAtOnce
  intro s hok
  refine ⟨fun x y h => ⟨_, (deviceAddress_text hok h).1, if_pos h⟩,
    fun x y h => ⟨_, _, (deviceAddress_graphic hok h).1, (bitOffset_byte hok).1, if_pos h⟩,
    fun slot h => ⟨_, (deviceAddress_cg hok h).1, if_pos h⟩⟩

/-! ## Pointer and registers -/

/-- A 16-bit quantity in a working register (R24, R216). -/
theorem setReg_half (e : Engine) (i : Fin 16) (a : Half) : e.setReg i a.toNat = { e with x := e.x.set i (a.setWidth 32) } := by
  have : BitVec.ofInt 32 (a.toNat : Int) = a.setWidth 32 := BitVec.eq_of_toNat_eq (by simp)
  rw [Engine.setReg, this]

theorem loByte_eq_setWidth (v : Half) : loByte v = v.setWidth 8 := BitVec.eq_of_toNat_eq (by simp [loByte])

/-- SAP: SetAP at the cell (R220). -/
theorem sap_runsTo {s : State} {x y : Half} (hready : ReadyToDraw s) (hin : inText s.cfg x.toInt y.toInt = true) :
    let r := deviceAddress (textAddress s.cfg x.toInt y.toInt)
    RunsTo s (.sap x y) { s.eng with x := s.eng.x.set ADDR (r.setWidth 32) }
      { s.dev.afterSend2 (r.extractLsb' 0 8) (r.extractLsb' 8 8) with ap := r } (s.bus.afterWrite true s.cfg.cmd.setAddressPointer)
      (send2Trace (r.extractLsb' 0 8) (r.extractLsb' 8 8) s.cfg.cmd.setAddressPointer) := by
  refine .of_goes hready.1 (if_pos hin) (Goes.setAP (s := s.begun (.sap x y)) _ [] hready.2.2.2.2)
    ((Alike.refl _).ended rfl ?_ rfl rfl rfl rfl rfl rfl)
  rw [← setReg_half]
  rfl

/-- Settles O33. -/
theorem sapSetsThePointer : Obligations.SapSetsThePointer := by
  unfold Obligations.SapSetsThePointer
  intro s x y hready hin
  obtain ⟨t, u, hexec, hreach, _, hu⟩ := sap_runsTo hready hin
  exact ⟨_, (deviceAddress_text hready.1.1 hin).1, t, u, hexec, hreach, hu⟩

/-- A coordinate of a text column fits in a byte (R10, R215). -/
theorem column_byte {g : Config} (h : g.ok = true) {x y : Half} (hin : inText g x.toInt y.toInt = true) : ((x.setWidth 8).toNat : Int) = x.toInt := by
  obtain ⟨hlow, hhigh, _, _⟩ := inText_iff.mp hin
  have := Config.textArea_le h
  have hx : (x.toNat : Int) = x.toInt := by
    have hcond := BitVec.toInt_eq_toNat_cond x
    split at hcond <;> omega
  rw [BitVec.toNat_setWidth]
  omega

/-- Settles O34: the three transfers of the cursor pointer. -/
theorem scpSetsTheCursor : Obligations.ScpSetsTheCursor := by
  unfold Obligations.ScpSetsTheCursor
  intro s x y ⟨hs, hclean⟩ hin
  have hk := decodeCommand_commandByte (Config.commands_of_ok hs.1) .setCursorPointer
  have hgo := Goes.send2 (s := s.begun (.scp x y)) (lo := loByte x) (hi := loByte y) [] hclean.2.2.2 hk rfl
  obtain ⟨t, u, hexec, hreach, hend, _⟩ := startOperation_ends hs hgo
  rw [loByte_eq_setWidth, loByte_eq_setWidth] at hend
  have hu : u.dev.curx = x.setWidth 8 := hend.dev.symm ▸ rfl
  exact ⟨t, u, (if_pos hin).trans hexec, hreach, hend.ended rfl rfl rfl rfl rfl rfl rfl rfl, by rw [hu]; exact column_byte hs.1 hin⟩

/-- Settles O35: the three transfers of the offset register. -/
theorem sorSetsTheOffset : Obligations.SorSetsTheOffset := by
  unfold Obligations.SorSetsTheOffset
  intro s v ⟨hs, hclean⟩
  have hk := decodeCommand_commandByte (Config.commands_of_ok hs.1) .setOffsetRegister
  have hgo := Goes.send2 (s := s.begun (.sor v)) (lo := v) (hi := 0) [] hclean.2.2.2 hk rfl
  obtain ⟨t, u, hexec, hreach, hend, _⟩ := startOperation_ends hs hgo
  exact ⟨t, u, hexec, hreach, hend.ended rfl rfl rfl rfl rfl rfl rfl rfl⟩

/-! ## One pixel and one character -/

/-- The bytes of a state alike to an ended one. -/
theorem Alike.memByte {a b : State} (h : Alike a b) (n : Nat) : a.memByte n = b.memByte n := by
  unfold State.memByte
  rw [h.dev, h.memGen]

/-- Settles O36: one `SetPixel`, its address and bit within sixteen and three bits. -/
theorem spxReadsModifiesWrites : Obligations.SpxReadsModifiesWrites := by
  unfold Obligations.SpxReadsModifiesWrites
  intro s x y color ⟨hs, hclean⟩ hin
  obtain ⟨haddr, hram⟩ := deviceAddress_graphic hs.1 hin
  obtain ⟨hbit, hlt⟩ := bitOffset_byte hs.1 (x := x.toInt)
  have hpop : (s.plotAddress x.toInt y.toInt).toNat < s.cfg.ramSize := by unfold State.plotAddress; omega
  have hgo := Goes.setPixel (s := s.begun (.spx x y color)) x.toInt y.toInt color [] hclean.2.2.2 hpop
  obtain ⟨t, u, hexec, hreach, hend, _⟩ := startOperation_ends hs hgo
  refine ⟨s.plotAddress x.toInt y.toInt, _, s.plotByte x.toInt y.toInt color, haddr, hbit, by omega, fun n _ => mergeBit_bit _ _ _ (by omega) n,
    t, u, (if_pos hin).trans hexec, hreach, hend.ended rfl ?_ rfl rfl rfl rfl rfl rfl, fun m hm => ?_⟩
  · rw [State.plotted, setReg_half]
    rfl
  · have hu : u.memByte m = ((s.begun (.spx x y color)).plotted x.toInt y.toInt color).memByte m := hend.memByte m
    rw [hu, memByte_plotted]
    exact if_neg hm

/-- WCH: one write-and-increment (R260). -/
theorem wch_runsTo {s : State} {ch : Byte} (hready : ReadyToDraw s) (hp : s.dev.ap.toNat < s.cfg.ramSize) :
    RunsTo s (.wch ch) s.eng
      { s.dev with
        ap := s.dev.ap + 1, d1 := ch - 32, nop := 0, rdv := false, rdy := .busy
        mem := Memory.store s.dev.mem s.dev.ap.toNat (ch - 32) }
      (s.bus.afterWrite true s.cfg.cmd.dataWriteInc) [.dataWrite (ch - 32), .commandWrite s.cfg.cmd.dataWriteInc] :=
  have hk := decodeCommand_commandByte (Config.commands_of_ok hready.1.1) .dataWriteInc
  .of_goes hready.1 rfl (Goes.send1 (s := s.begun (.wch ch)) (v := .lit (characterCode ch)) [] hready.2.2.2.2 hk rfl hp)
    ((Alike.refl _).ended rfl rfl rfl rfl rfl rfl rfl rfl)

/-- Settles O39. -/
theorem wchStoresTheCharacter : Obligations.WchStoresTheCharacter := by
  unfold Obligations.WchStoresTheCharacter
  intro s ch hready hp
  obtain ⟨t, u, hexec, hreach, _, hu⟩ := wch_runsTo hready hp
  have hbyte (a : Nat) : u.memByte a = Memory.byte (Memory.store s.dev.mem s.dev.ap.toNat (ch - 32)) s.free.memGen a := hu.memByte a
  exact ⟨t, u, hexec, hreach, hu, (hbyte _).trans (Memory.byte_store_self ..), fun a ha => (hbyte a).trans (Memory.byte_store_other _ _ _ ha)⟩

end Sys2Proof.Machine
end

section
/-! The operations that send a run of bytes to rising addresses: the area clears, DEFC and CLOSE (43_pixel_memory.md R242 to R246; 48_close.md R300). -/

namespace Sys2Proof.Machine

/-! ## Runs of bytes -/

/-- The transfers of a run of bytes from the address `a` up (R242, R246). -/
def streamTrace (k : Commands) (a : Half) (vs : List Byte) : List Transaction :=
  send2Trace (loByte a) (hiByte a) k.setAddressPointer ++ vs.flatMap fun v => [Transaction.dataWrite v, .commandWrite k.dataWriteInc]

/-- What a run of at least one byte leaves. -/
structure Streamed (s : State) (a : Half) (vs : List Byte) (w : State) : Prop where
  cfg : w.cfg = s.cfg
  host : w.host = s.host
  free : w.free = s.free
  responses : w.responses = s.responses
  eng : ∃ x, w.eng = { s.eng with x := x }
  x : ∀ j : Fin 16, j ≠ CNT → j ≠ ADDR → w.eng.x[j] = s.eng.x[j]
  dev : ∃ d1 d2, w.dev = { s.dev with
    ap := a + BitVec.ofNat 16 vs.length, d1 := d1, d2 := d2, nop := 0, rdv := false, rdy := .busy, mem := Memory.storeAll s.dev.mem a.toNat vs }
  bus : w.bus = s.bus.afterWrite true s.cfg.cmd.dataWriteInc
  trace : w.trace = (streamTrace s.cfg.cmd a vs).reverse ++ s.trace

theorem fillTrace_eq (k : Commands) (a : Half) (n : Nat) : fillTrace k a n = streamTrace k a (List.replicate n 0) := by
  rw [fillTrace, streamTrace, List.flatMap_def, List.map_replicate]

theorem Filled.streamed {s w : State} {a : Half} {n : Nat} (h : Filled s a n w) (hn : n ≠ 0) : Streamed s a (List.replicate n 0) w where
  cfg := h.cfg
  host := h.host
  free := h.free
  responses := h.responses
  eng := h.eng
  x := h.x
  dev := ⟨_, _, by rw [h.dev, List.length_replicate]⟩
  bus := h.bus.trans (if_neg hn)
  trace := by
    rw [h.trace, ← fillTrace_eq, fillTrace, List.reverse_append, List.reverse_flatten, List.map_replicate, List.reverse_replicate, List.append_assoc]
    rfl

theorem map_getD_range {vs : List Byte} {n : Nat} (h : vs.length = n) : (List.range' 0 n).map (fun i => vs.getD i 0) = vs := by
  subst h
  refine List.ext_getElem (by simp) fun n h1 h2 => ?_
  simp [List.getElem_map, List.getD_eq_getElem?_getD, List.getElem?_eq_getElem h2]

/-- The steps of DEFC after its range check (R246). -/
theorem Goes.glyph {s : State} (a : Half) {vs : List Byte} (hvs : s.eng.glyph = vs) (hlen : vs.length = 8) (h0 : s.dev.nop = 0)
    (hb : a.toNat + 8 ≤ s.cfg.ramSize) (hr : s.cfg.ramSize ≤ 65536) :
    ∃ w, Goes s [.setAP a, .clearCount, .glyphLoop] w [] ∧ Streamed s a vs w := by
  let s1 := s.pointed a
  let s2 := s1.setEng (s1.eng.setReg CNT 0)
  have a1 := Goes.setAP (s := s) a [.clearCount, .glyphLoop] h0
  have a2 := Goes.clearCount s1 [.glyphLoop]
  have a3 := Goes.glyphLoop [] 8 (s := s2) (n := 0) rfl (reg_setReg_self _ _ _ (by omega) (by omega)) rfl hb hr
  have hglyph : s2.eng.glyph = vs := hvs
  rw [hglyph, map_getD_range hlen] at a3
  obtain ⟨f, d, b, t⟩ := wrote_facts vs s2 rfl (by show a.toNat + vs.length ≤ 65536; omega)
  have hne : vs ≠ [] := by rintro rfl; cases hlen
  refine ⟨s2.wrote vs, (a1.trans a2).trans a3, f.cfg, f.host, f.free, f.responses, ?_, fun j h1 h2 => ?_, ?_, ?_, ?_⟩
  · obtain ⟨x, hx⟩ := f.eng
    exact ⟨x, hx⟩
  · rw [f.x j h1]
    exact (x_setReg_other _ _ (Ne.symm h1)).trans (x_setReg_other _ _ (Ne.symm h2))
  · rw [List.getLast?_eq_some_getLast hne] at d
    exact ⟨_, _, d⟩
  · rw [b, if_neg hne]
    rfl
  · rw [t, streamTrace, List.reverse_append, List.append_assoc]
    rfl

/-! ## What an operation that sent one run leaves -/

/-- A trace without status reads is all transfers. -/
theorem transfers_streamTrace (k : Commands) (a : Half) (vs : List Byte) : transfers (streamTrace k a vs).reverse = (streamTrace k a vs).reverse := by
  refine List.filter_eq_self.mpr fun t ht => ?_
  simp only [streamTrace, send2Trace, List.mem_reverse, List.mem_append, List.mem_flatMap, List.mem_cons, List.not_mem_nil, or_false] at ht
  rcases ht with (rfl | rfl | rfl) | ⟨_, _, rfl | rfl⟩ <;> rfl

section
variable {s u w : State} {i : Instr} {a : Half} {vs : List Byte} (h : Alike u w.finish) (hw : Streamed (s.begun i) a vs w)
include h hw

theorem Streamed.drawingFrame : DrawingFrame s u i [CNT, ADDR] ∧ u.eng.tmp = s.eng.tmp ∧ u.eng.bit = s.eng.bit ∧ u.dev.rdl = s.dev.rdl := by
  obtain ⟨x, he⟩ := hw.eng
  obtain ⟨d1, d2, hd⟩ := hw.dev
  have eu : u.eng = { s.eng.holding i with st := .idle, seq := [], pcnt := u.eng.pcnt, x := x } := by
    rw [h.eng_eq, State.finish_eng, he]
    rfl
  have du := h.dev.trans hd
  have hx : ∀ j : Fin 16, j ∉ [CNT, ADDR] → u.eng.x[j] = s.eng.x[j] := by
    intro j hj
    simp only [List.mem_cons, List.not_mem_nil, or_false, not_or] at hj
    rw [h.x]
    exact hw.x j hj.1 hj.2
  have hfree : w.free = s.free := hw.free
  have hhost : u.host = { s.host with rspValid := true, rspCode := 0 } := by
    rw [h.host, State.finish_host, hw.host]
    rfl
  have hresp : u.responses = { code := 0, data := s.eng.res, bof := s.eng.bof.extractLsb' 0 3 } :: s.responses := by
    rw [h.responses, State.finish_responses, hw.responses, State.rspData, State.rspBof, he]
    rfl
  unfold DrawingFrame
  rw [h.cfg, h.bus, h.memGen, h.resets, hhost, hresp, State.finish_bus, hw.bus, State.finish_cfg, hw.cfg, State.finish_free, hfree]
  exact ⟨⟨rfl, by rw [eu], by rw [eu], by rw [eu]; rfl, by rw [eu]; rfl, by rw [eu]; rfl, by rw [eu]; rfl, by rw [eu]; rfl, by rw [eu]; rfl,
    by rw [eu]; rfl, by rw [eu]; rfl, by rw [eu]; rfl, by rw [eu]; rfl, hx, by rw [du]; rfl, by rw [du]; rfl, by rw [du]; rfl, by rw [du]; rfl,
    by rw [du]; rfl, by rw [du]; rfl, by rw [du]; rfl, by rw [du]; rfl, by rw [du]; rfl, by rw [du], by rw [du], by rw [du], rfl, rfl, rfl, rfl, rfl⟩,
    by rw [eu]; rfl, by rw [eu]; rfl, by rw [du]; rfl⟩

theorem Streamed.transfers : transfers u.trace = (streamTrace s.cfg.cmd a vs).reverse ++ transfers s.trace := by
  rw [h.trace, State.finish_trace, hw.trace, transfers_append, transfers_streamTrace]
  rfl

theorem Streamed.ap : u.dev.ap = a + BitVec.ofNat 16 vs.length := by
  obtain ⟨d1, d2, hd⟩ := hw.dev
  rw [h.dev, State.finish_dev, hd]

theorem Streamed.memByte (b : Nat) : u.memByte b = if a.toNat ≤ b then vs.getD (b - a.toNat) (s.memByte b) else s.memByte b := by
  obtain ⟨d1, d2, hd⟩ := hw.dev
  rw [h.memByte, State.memByte, State.finish_dev, State.finish_free, hd, hw.free, Memory.byte_storeAll]
  rfl

end

/-! ## The area clears -/

theorem getD_replicate (n k : Nat) (d : Byte) : (List.replicate n (0 : Byte)).getD k d = if k < n then 0 else d := by
  rw [List.getD_eq_getElem?_getD, List.getElem?_replicate]
  split <;> rfl

/-- The three areas lie in memory and are not empty (R10). -/
theorem Config.areas_bounds {g : Config} (h : g.ok = true) :
    0 < g.textSize ∧ 0 < g.graphicSize ∧ 0 < g.extCgSize ∧ g.textHome + g.textSize = g.graphicHome := by
  obtain ⟨_, hta, _, hrows, _⟩ := Config.geomOK_iff.mp (Config.geom_of_ok h)
  have hglyphs := (Config.glyphs_bounds h).1
  have hlines : 0 < g.numberOfLines := by unfold Config.textRows at hrows; omega
  exact ⟨Nat.mul_pos hta hrows, Nat.mul_pos hta hlines, Nat.mul_pos hglyphs (by omega), rfl⟩

/-- A `Fill` as an operation of its own (R242). -/
theorem fill_ends {s : State} {i : Instr} {first size : Nat} (hready : ReadyToDraw s)
    (hexec : exec i s = startOperation i (fill (BitVec.ofNat 16 first) size) s) (hpos : 0 < size) (hb : first + size ≤ s.cfg.ramSize) :
    ∃ t u w, exec i s = .next t ∧ Reaches t u ∧ Responsive u ∧ Alike u w.finish
      ∧ Streamed (s.begun i) (BitVec.ofNat 16 first) (List.replicate size 0) w := by
  obtain ⟨hs, hclean⟩ := hready
  have hr := Config.ramSize_le hs.1
  have hfirst : (BitVec.ofNat 16 first).toNat = first := Nat.mod_eq_of_lt (by omega)
  obtain ⟨w, hgo, hw⟩ := Goes.fill (s := s.begun i) (BitVec.ofNat 16 first) size [] hclean.2.2.2 (by rw [hfirst]; exact hb) hr
  obtain ⟨t, u, ht, hreach, hend, hresp⟩ := startOperation_ends hs hgo
  exact ⟨t, u, w, hexec.trans ht, hreach, hresp, hend, hw.streamed (by omega)⟩

/-- Memory after a run of zeroes (R242). -/
theorem Streamed.memByte_zeroes {s w : State} {first size : Nat} (h : Streamed s (BitVec.ofNat 16 first) (List.replicate size 0) w) (hfirst : first < 65536)
    (b : Nat) : w.memByte b = if first ≤ b ∧ b < first + size then 0 else s.memByte b := by
  obtain ⟨d1, d2, hd⟩ := h.dev
  have ha : (BitVec.ofNat 16 first).toNat = first := Nat.mod_eq_of_lt hfirst
  rw [State.memByte, hd, h.free, Memory.byte_storeAll, ha, getD_replicate]
  by_cases hlow : first ≤ b
  · simp only [hlow, if_true, true_and]
    exact if_congr (by omega) rfl rfl
  · simp only [hlow, if_false, false_and]
    rfl

/-- Which area each clear fills (R243 to R245). -/
def ClearsArea (g : Config) (i : Instr) (first size : Nat) : Prop :=
  (i = .clt ∧ first = g.textHome ∧ size = g.textSize) ∨ (i = .clg ∧ first = g.graphicHome ∧ size = g.graphicSize)
    ∨ (i = .clc ∧ first = g.offsetReg * 2048 ∧ size = g.extCgGlyphs * 8)

/-- A clear is one `Fill` over an area in memory that is not empty (R242 to R245). -/
theorem exec_of_clearsArea {s : State} {i : Instr} {first size : Nat} (hok : s.cfg.ok = true) (h : ClearsArea s.cfg i first size) :
    exec i s = startOperation i (fill (BitVec.ofNat 16 first) size) s ∧ 0 < size ∧ first + size ≤ s.cfg.ramSize := by
  obtain ⟨htext, hgraphic, hcg, _⟩ := Config.areas_bounds hok
  rcases h with ⟨rfl, rfl, rfl⟩ | ⟨rfl, rfl, rfl⟩ | ⟨rfl, rfl, rfl⟩
  · exact ⟨rfl, htext, Config.text_le hok⟩
  · exact ⟨rfl, hgraphic, Config.graphic_le hok⟩
  · exact ⟨rfl, hcg, Config.cg_le hok⟩

/-- Settles O37: one `Fill` over the area. -/
theorem clearsZeroTheirArea : Obligations.ClearsZeroTheirArea := by
  unfold Obligations.ClearsZeroTheirArea
  intro s i first size hready harea
  obtain ⟨hexec, hpos, hb⟩ := exec_of_clearsArea hready.1.1 harea
  have hr := Config.ramSize_le hready.1.1
  obtain ⟨t, u, w, ht, hreach, _, hend, hw⟩ := fill_ends hready hexec hpos hb
  obtain ⟨hframe, htmp, hbit, hrdl⟩ := Streamed.drawingFrame hend hw
  have hmem (b : Nat) : u.memByte b = if first ≤ b ∧ b < first + size then 0 else s.memByte b :=
    (hend.memByte b).trans (hw.memByte_zeroes (by omega) b)
  refine ⟨t, u, ht, hreach, hframe, htmp, hbit, hrdl, ?_, ?_, fun a h1 h2 => ?_, fun a ha => ?_, fun hi x y hin => ?_⟩
  · rw [Streamed.ap hend hw, List.length_replicate]
    exact BitVec.eq_of_toNat_eq (by simp)
  · rw [fillTrace_eq]
    exact Streamed.transfers hend hw
  · rw [hmem, if_pos ⟨h1, h2⟩]
  · rw [hmem, if_neg (by omega)]
  · have hcfg : u.cfg = s.cfg := hend.cfg.trans hw.cfg
    have hbounds := graphicAddress_bounds hready.1.1 hin
    have hclg : first = s.cfg.graphicHome ∧ size = s.cfg.graphicSize := by
      rcases harea with ⟨rfl, _⟩ | ⟨_, h⟩ | ⟨rfl, _⟩
      · cases hi
      · exact h
      · cases hi
    rw [pixel, hcfg, hmem, if_pos (by omega)]
    exact BitVec.getLsbD_zero

/-! ## DEFC -/

/-- Settles O38: the glyph's bytes are the latch's. -/
theorem defcStoresTheGlyph : Obligations.DefcStoresTheGlyph := by
  unfold Obligations.DefcStoresTheGlyph
  intro s slot glyph ⟨hs, hclean⟩ hin hlen
  obtain ⟨haddr, hb⟩ := deviceAddress_cg hs.1 hin
  obtain ⟨w, hgo, hw⟩ := Goes.glyph (s := s.begun (.defc slot glyph)) (deviceAddress (cgAddress s.cfg slot.toNat)) (latch_glyph s.eng slot hlen) hlen
    hclean.2.2.2 (by rw [haddr]; exact hb) (Config.ramSize_le hs.1)
  obtain ⟨t, u, ht, hreach, hend, _⟩ := startOperation_ends hs hgo
  obtain ⟨hframe, htmp, hbit, hrdl⟩ := Streamed.drawingFrame hend hw
  have hmem := Streamed.memByte hend hw
  refine ⟨_, haddr, t, u, (if_pos hin).trans ht, hreach, hframe, htmp, hbit, hrdl, ?_, Streamed.transfers hend hw, fun n hn => ?_, fun m hm => ?_⟩
  · rw [Streamed.ap hend hw, hlen]
    rfl
  · rw [hmem, if_pos (by omega), Nat.add_sub_cancel_left, List.getD_eq_getElem _ _ (by omega), List.getD_eq_getElem _ _ (by omega)]
  · rw [hmem]
    split
    · exact List.getD_eq_default _ _ (by omega)
    · rfl

/-! ## CLOSE -/

/-- The last step of CLOSE (R300). -/
theorem step_quiesce {v : State} (hl : Live v) : step (v.goto [.quiesce]) = .next (v.resetDevice.setBus Bus.quiescent).finish := by
  rw [step_goto hl.rst hl.st]
  rfl

/-- A hardware reset keeps memory or begins a new generation of it (R53). -/
theorem memByte_resetDevice (v : State) (a : Nat) :
    v.resetDevice.memByte a = if v.cfg.resetKeepsMem then v.memByte a else Config.unwrittenByte (v.free.memGen + 1) a := by
  cases hk : v.cfg.resetKeepsMem <;> simp [State.memByte, State.resetDevice, Device.hardwareReset, hk, Memory.byte, Memory.find]

/-- What the two fills of CLOSE leave (R300). -/
structure Blanked (s v : State) : Prop where
  cfg : v.cfg = s.cfg
  host : v.host = { s.host with rspValid := false }
  responses : v.responses = s.responses
  resets : v.free.resets = s.free.resets
  memGen : v.free.memGen = s.free.memGen
  eng : v.eng = { (s.begun .close).eng with pcnt := v.eng.pcnt, x := v.eng.x }
  x : ∀ j : Fin 16, j ≠ CNT → j ≠ ADDR → v.eng.x[j] = s.eng.x[j]
  trace : transfers v.trace = (fillTrace s.cfg.cmd (BitVec.ofNat 16 s.cfg.textHome) s.cfg.textSize
    ++ fillTrace s.cfg.cmd (BitVec.ofNat 16 s.cfg.graphicHome) s.cfg.graphicSize).reverse ++ transfers s.trace
  mem : ∀ a, v.memByte a = if s.cfg.textHome ≤ a ∧ a < s.cfg.graphicHome + s.cfg.graphicSize then 0 else s.memByte a

/-- CLOSE comes to its last step with both areas zero (R300). -/
theorem close_comes_to_quiesce {s : State} (hready : ReadyToDraw s) :
    ∃ t v, exec .close s = .next t ∧ Reaches t (v.goto [.quiesce]) ∧ Live v ∧ Blanked s v := by
  obtain ⟨hs, hclean⟩ := hready
  have hr := Config.ramSize_le hs.1
  have hgraphic := Config.graphic_le hs.1
  obtain ⟨htpos, hgpos, _, hside⟩ := Config.areas_bounds hs.1
  have htext : (BitVec.ofNat 16 s.cfg.textHome).toNat = s.cfg.textHome := Nat.mod_eq_of_lt (by omega)
  have hgraph : (BitVec.ofNat 16 s.cfg.graphicHome).toNat = s.cfg.graphicHome := Nat.mod_eq_of_lt (by omega)
  obtain ⟨w₁, hgo₁, hw₁⟩ := Goes.fill (s := s.begun .close) (BitVec.ofNat 16 s.cfg.textHome) s.cfg.textSize
    (fill (BitVec.ofNat 16 s.cfg.graphicHome) s.cfg.graphicSize ++ [.quiesce]) hclean.2.2.2 (by rw [htext]; exact Config.text_le hs.1) hr
  have hcfg₁ : w₁.cfg = s.cfg := hw₁.cfg
  obtain ⟨w₂, hgo₂, hw₂⟩ := Goes.fill (s := w₁) (BitVec.ofNat 16 s.cfg.graphicHome) s.cfg.graphicSize [.quiesce] (by rw [hw₁.dev])
    (by rw [hgraph, hcfg₁]; exact hgraphic) (by rw [hcfg₁]; exact hr)
  obtain ⟨v, hreach, ha, hl⟩ := (hgo₁.trans hgo₂) _ (.refl _) (live_begun .close hs)
  have hs₁ := hw₁.streamed (Nat.ne_of_gt htpos)
  have hs₂ := hw₂.streamed (Nat.ne_of_gt hgpos)
  obtain ⟨x₁, he₁⟩ := hs₁.eng
  obtain ⟨x₂, he₂⟩ := hs₂.eng
  have hfree : w₂.free = s.free := hs₂.free.trans hs₁.free
  refine ⟨_, v, startOperation_eq s, hreach, hl, ha.cfg.trans (hs₂.cfg.trans hs₁.cfg), ha.host.trans (hs₂.host.trans hs₁.host),
    ha.responses.trans (hs₂.responses.trans hs₁.responses), by rw [ha.resets, hfree], by rw [ha.memGen, hfree], ?_, fun j h1 h2 => ?_, ?_, fun a => ?_⟩
  · rw [ha.eng_eq, he₂, he₁]
  · rw [ha.x, hs₂.x j h1 h2]
    exact hs₁.x j h1 h2
  · rw [ha.trace, hs₂.trace, hs₁.trace, hcfg₁, transfers_append, transfers_append, transfers_streamTrace, transfers_streamTrace, fillTrace_eq,
      fillTrace_eq, List.reverse_append, List.append_assoc]
    rfl
  · rw [ha.memByte, hs₂.memByte_zeroes (by omega), hs₁.memByte_zeroes (by omega)]
    by_cases hg : s.cfg.graphicHome ≤ a ∧ a < s.cfg.graphicHome + s.cfg.graphicSize
    · rw [if_pos hg, if_pos (by omega)]
    · rw [if_neg hg]
      exact if_congr (by omega) rfl rfl

/-- Settles O31: two runs of zeroes side by side, then the reset. -/
theorem closeBlanksAndReleasesTheBus : Obligations.CloseBlanksAndReleasesTheBus := by
  unfold Obligations.CloseBlanksAndReleasesTheBus
  intro s hready
  obtain ⟨t, v, ht, hreach, hl, hv⟩ := close_comes_to_quiesce hready
  refine ⟨t, (v.resetDevice.setBus Bus.quiescent).finish, ht, hreach.trans (.one (step_quiesce hl)), hv.cfg, rfl, ?_, hv.x, ?_, rfl, rfl, rfl, hv.trace,
    ?_, ?_, fun a => ?_⟩
  · show { v.eng with st := .idle, seq := [] } = _
    rw [hv.eng]
    rfl
  · show v.dev.hardwareReset v.free.resets v.cfg.resetKeepsMem = _
    rw [hv.resets]
    rfl
  · show { v.host with rspValid := true, rspCode := 0 } = _
    rw [hv.host]
  · show { code := 0, data := v.eng.res, bof := v.eng.bof.extractLsb' 0 3 } :: v.responses = _
    rw [hv.eng, hv.responses]
    rfl
  · have hmem : (v.resetDevice.setBus Bus.quiescent).finish.memByte a
        = if s.cfg.resetKeepsMem then v.memByte a else Config.unwrittenByte (s.free.memGen + 1) a := by
      rw [← hv.cfg, ← hv.memGen]
      exact memByte_resetDevice v a
    rw [hmem, hv.mem]

end Sys2Proof.Machine
end

section
/-! The shapes: what RECT, CIRC and LINE leave at their end (45_rectangle.md R270; 46_circle.md R280, R281; 47_line.md R290, R291). -/

namespace Sys2Proof.Machine

/-! ## Operations that plot points -/

/-- An operation whose steps plot at least one point, run to its end (R240). -/
theorem plots_ends {s w : State} {i : Instr} {m : Micro} {rest : List Micro} {c : Bool} {regs : List (Fin 16)} {pts : List (Int × Int)}
    (hready : ReadyToDraw s) (hgo : Goes (s.begun i) (m :: rest) w []) (hplots : Plots c regs (s.begun i) pts w) (hne : pts ≠ [])
    (hin : ∀ p ∈ pts, inGraphic s.cfg p.1 p.2 = true) :
    ∃ t u, startOperation i (m :: rest) s = .next t ∧ Reaches t u ∧ Responsive u ∧ DrawingFrame s u i (regs ++ [ADDR]) ∧ Drawn s u pts c
      ∧ (transfers u.trace).length = (transfers s.trace).length + 7 * pts.length
      ∧ ∀ {x y : Int}, pts.getLast? = some (x, y) → u.dev.ap = deviceAddress (graphicAddress s.cfg x y) + 1 := by
  obtain ⟨hs, hclean⟩ := hready
  obtain ⟨t, u, ht, hreach, hend, hresp⟩ := startOperation_ends hs hgo
  refine ⟨t, u, ht, hreach, hresp, .of_plots hclean hend hplots hne, .of_plots hclean hend hplots (plottable_of_inGraphic hs.1 hin), ?_, fun hlast => ?_⟩
  · rw [hend.trace]
    exact hplots.count
  · rw [hend.dev]
    exact (hplots.last hclean.2.2.2 _ hlast).1

/-- A size that is not negative, as the number its field holds (R106). -/
theorem toInt_toNat {v : Half} (h : 0 ≤ v.toInt) : v.toInt.toNat = v.toNat := by
  have hcond := BitVec.toInt_eq_toNat_cond v
  split at hcond <;> omega

/-- The color bit of the latch is the operand's (R107). -/
theorem begun_color {s : State} {i : Instr} {color : Bool} {opc : Byte} {a b c d : Half} (h : encode i = descriptorOf opc (colorField color) a b c d) :
    (s.begun i).eng.color = color := by
  show (encode i).aux.getLsbD 0 = color
  rw [h, descriptorOf_aux, colorField_bit]

/-! ## RECT -/

theorem length_rectPoints (x y w h : Int) : (rectPoints x y w h).length = 2 * (w.toNat + h.toNat) := by
  simp only [rectPoints, List.length_append, List.length_flatMap, List.length_cons, List.length_nil, List.map_const', List.length_range,
    List.sum_replicate, smul_eq_mul]
  omega

/-- RECT ends at the corner opposite its start (R270). -/
theorem getLast_rectPoints {x y w h : Int} (hw : 1 ≤ w) : (rectPoints x y w h).getLast? = some (x + w - 1, y + h - 1) := by
  obtain ⟨n, hn⟩ : ∃ n, w.toNat = n + 1 := ⟨w.toNat - 1, by omega⟩
  rw [rectPoints, hn, List.range_succ, List.flatMap_append, List.flatMap_singleton, List.getLast?_append, List.getLast?_append,
    List.getLast?_cons_cons, List.getLast?_singleton, Option.some_or, Option.some_or]
  exact congrArg some (Prod.ext (by simp only; omega) rfl)

theorem holds_begun_rect (s : State) (x y w h : Half) (color : Bool) : HoldsRect x y w h color (s.begun (.rect x y w h color)) := by
  refine ⟨descriptorOf_a .., descriptorOf_b .., descriptorOf_c .., descriptorOf_d .., ?_⟩
  exact begun_color rfl

/-- Settles O40. -/
theorem rectDrawsTheOutline : Obligations.RectDrawsTheOutline := by
  unfold Obligations.RectDrawsTheOutline
  intro s x y w h color hready hin
  obtain ⟨hw, hh, hadm⟩ := rect_admitted hready.1.1 hin
  have hholds := holds_begun_rect s x y w h color
  obtain ⟨v, hgo, hplots⟩ := Goes.rect [] hholds hready.2.2.2.2 (by unfold operand; omega) (by unfold operand; omega)
    (plottable_of_inGraphic hready.1.1 hadm)
  have hne : rectPoints x.toInt y.toInt w.toInt h.toInt ≠ [] := fun he => by
    have := getLast_rectPoints (x := x.toInt) (y := y.toInt) (h := h.toInt) hw
    rw [he] at this
    cases this
  obtain ⟨t, u, ht, hreach, _, hframe, hdrawn, hcount, hap⟩ := plots_ends hready hgo hplots hne hadm
  refine ⟨t, u, (if_pos hin).trans ht, hreach, hframe, hdrawn, hcount.trans ?_, hap (getLast_rectPoints hw)⟩
  unfold operand
  rw [length_rectPoints, toInt_toNat (by omega), toInt_toNat (by omega)]
  omega

/-! ## CIRC -/

theorem holds_begun_circ (s : State) (cx cy r : Half) (color : Bool) : HoldsCircle cx cy r color (s.begun (.circ cx cy r color)) := by
  refine ⟨descriptorOf_a .., descriptorOf_b .., descriptorOf_c .., ?_⟩
  exact begun_color rfl

/-- Settles O42. -/
theorem circDrawsTheCircle : Obligations.CircDrawsTheCircle := by
  unfold Obligations.CircDrawsTheCircle
  intro s cx cy r color hready hin
  obtain ⟨h0, hr, hadm⟩ := circle_admitted hready.1.1 hin
  have hholds := holds_begun_circ s cx cy r color
  obtain ⟨v, hgo, hplots⟩ := Goes.circle [] hholds hready.2.2.2.2 h0 hr (plottable_of_inGraphic hready.1.1 hadm)
  have hne := circlePoints_ne_nil (cx := cx.toInt) (cy := cy.toInt) h0
  obtain ⟨t, u, ht, hreach, _, hframe, hdrawn, hcount, hap⟩ := plots_ends hready hgo hplots hne hadm
  refine ⟨t, u, (if_pos hin).trans ht, hreach, hframe, hdrawn, hcount, fun p hp => hap hp, ?_, hne⟩
  have hsteps : (r.toInt + 1).toNat = r.toNat + 1 := by rw [Int.toNat_add h0 (by omega), toInt_toNat h0]; rfl
  rw [← hsteps]
  exact length_circlePoints_le ..

/-! ## LINE -/

theorem holds_begun_line (s : State) (x1 y1 x2 y2 : Half) (color : Bool) : HoldsLine x1 y1 x2 y2 color (s.begun (.line x1 y1 x2 y2 color)) := by
  refine ⟨descriptorOf_a .., descriptorOf_b .., descriptorOf_c .., descriptorOf_d .., ?_⟩
  exact begun_color rfl

/-- Settles O44. -/
theorem lineDrawsTheLine : Obligations.LineDrawsTheLine := by
  unfold Obligations.LineDrawsTheLine
  intro s x1 y1 x2 y2 color hready hin
  obtain ⟨hsize, hadm⟩ := line_admitted hready.1.1 hin
  have hholds := holds_begun_line s x1 y1 x2 y2 color
  obtain ⟨v, hgo, hplots⟩ := Goes.line [] hholds hready.2.2.2.2 hsize (plottable_of_inGraphic hready.1.1 hadm)
  obtain ⟨t, u, ht, hreach, _, hframe, hdrawn, hcount, hap⟩ := plots_ends hready hgo hplots (List.cons_ne_nil _ _) hadm
  obtain ⟨hlen, hlast⟩ := linePoints_ends x1.toInt y1.toInt x2.toInt y2.toInt
  exact ⟨t, u, (if_pos hin).trans ht, hreach, hframe, hdrawn, hcount.trans (by rw [← hlen]; rfl), hap hlast⟩

end Sys2Proof.Machine
end

section
/-! INIT (40_protocol.md R156): the hardware reset, then the twenty transfers that program the device. -/

namespace Sys2Proof.Machine

/-! ## The values the transfers carry -/

/-- A small number sent with a high byte of zero (R122). -/
theorem assemble_byteOf {n : Nat} (h : n ≤ 255) : assemble (byteOf n) 0 = BitVec.ofNat 16 n := by
  refine BitVec.eq_of_toNat_eq ?_
  simp only [assemble, byteOf, BitVec.toNat_append, BitVec.toNat_ofNat]
  simp
  omega

/-- The display planes INIT enables (R119, R156). -/
def displayPlanes (g : Config) : Nibble := g.dmGraphic + g.dmText + (if g.cursorOn then g.dmCursor else 0)

/-- The planes fit in the argument of the display-mode command (R119). -/
theorem displayByte_eq {g : Config} (h : g.commandsOK = true) : displayByte g = g.cmd.displayMode + (displayPlanes g).setWidth 8 := by
  obtain ⟨_, _, _, _, _, hsum⟩ := Config.commandsOK_iff.mp h
  have hplanes : (displayPlanes g).setWidth 8 = g.dmGraphic.setWidth 8 + g.dmText.setWidth 8 + (if g.cursorOn then g.dmCursor.setWidth 8 else 0) := by
    refine BitVec.eq_of_toNat_eq ?_
    cases hc : g.cursorOn <;> simp [displayPlanes, hc, BitVec.toNat_add] <;> omega
  rw [displayByte, hplanes, ← BitVec.add_assoc, ← BitVec.add_assoc]

theorem decodeCommand_displayByte {g : Config} (h : g.commandsOK = true) :
    decodeCommand g.cmd (displayByte g) = some (.displayMode (displayPlanes g)) := by
  rw [displayByte_eq h]
  exact decodeCommand_displayMode_nibble h _

/-! ## The transfers -/

section
variable {s : State} {d : Device} {k₀ : Byte} {ts : List Transaction}

/-- A further `Send2` after a write (R147); `d'` is what the command makes of the device. -/
theorem Goes.sendNext {lo hi k : Byte} {c : DeviceCommand} (d' : Device) (rest : List Micro) (h0 : d.nop = 0)
    (hk : decodeCommand s.cfg.cmd k = some c) (hc : c.operands = 2)
    (hd : ({ d with d1 := lo, d2 := hi, nop := 2 } : Device).runCommand s.free.memGen c = d') :
    Goes (s.sent d true k₀ ts) (Machine.send2 lo hi k ++ rest) (s.sent d' true k (ts ++ send2Trace lo hi k)) rest := by
  have := Goes.send2 (s := s.sent d true k₀ ts) (lo := lo) (hi := hi) rest h0 hk hc
  rwa [sent_sent, sent_dev, sent_free, hd] at this

/-- A further `WriteCmd` of a mode command after a write (R144). -/
theorem Goes.modeNext {k : Byte} {c : DeviceCommand} (d' : Device) (rest : List Micro) (h0 : d.nop = 0)
    (hk : decodeCommand s.cfg.cmd k = some c) (hc : c.operands = 0) (hm : c.accessesMemory = false) (hd : d.runCommand s.free.memGen c = d') :
    Goes (s.sent d true k₀ ts) (Machine.writeCmd k ++ rest) (s.sent d' true k (ts ++ [.commandWrite k])) rest := by
  have := Goes.writeCmd (s := s.sent d true k₀ ts) (k := k) rest hk (h0.trans hc.symm) (by simp [hm])
  rwa [sent_sent, sent_dev, sent_free, hd] at this

end

/-- The device as INIT programs it. -/
def Device.programmed (d : Device) (g : Config) : Device :=
  { d with
    th := BitVec.ofNat 16 g.textHome, ta := BitVec.ofNat 16 g.textArea
    gh := BitVec.ofNat 16 g.graphicHome, ga := BitVec.ofNat 16 g.graphicArea
    offs := BitVec.ofNat 8 g.offsetReg, ap := 0, disp := displayPlanes g, mode := g.msOr
    d1 := 0, d2 := 0, nop := 0, rdv := false, rdy := .busy }

/-- Steps 2 to 7 of INIT (R156), the device after each. -/
theorem Goes.initTransfers {s : State} (hok : s.cfg.ok = true) (h0 : s.dev.nop = 0) :
    Goes s (Machine.initTransfers s.cfg) (s.sent (s.dev.programmed s.cfg) true (modeByte s.cfg) (initTrace s.cfg)) [] := by
  have hcmd := Config.commands_of_ok hok
  have hk := decodeCommand_commandByte hcmd
  have harea := Config.textArea_le hok
  let th := BitVec.ofNat 16 s.cfg.textHome
  let gh := BitVec.ofNat 16 s.cfg.graphicHome
  let ta := BitVec.ofNat 16 s.cfg.textArea
  let ga := BitVec.ofNat 16 s.cfg.graphicArea
  let offs := byteOf s.cfg.offsetReg
  let d₁ := ({ s.dev with th := th } : Device).afterSend2 (loByte th) (hiByte th)
  let d₂ := ({ s.dev with th := th, ta := ta } : Device).afterSend2 (byteOf s.cfg.textArea) 0
  let d₃ := ({ s.dev with th := th, ta := ta, gh := gh } : Device).afterSend2 (loByte gh) (hiByte gh)
  let d₄ := ({ s.dev with th := th, ta := ta, gh := gh, ga := ga } : Device).afterSend2 (byteOf s.cfg.graphicArea) 0
  let d₅ := ({ s.dev with th := th, ta := ta, gh := gh, ga := ga, offs := offs } : Device).afterSend2 offs 0
  let d₆ := ({ s.dev with th := th, ta := ta, gh := gh, ga := ga, offs := offs, ap := 0 } : Device).afterSend2 0 0
  let d₇ := ({ s.dev with th := th, ta := ta, gh := gh, ga := ga, offs := offs, ap := 0, disp := displayPlanes s.cfg } : Device).afterSend2 0 0
  have hfirst (rest : List Micro) : Goes s (sendAddr th s.cfg.cmd.setTextHome ++ rest)
      (s.sent d₁ true s.cfg.cmd.setTextHome (send2Trace (loByte th) (hiByte th) s.cfg.cmd.setTextHome)) rest := by
    have := Goes.send2 (s := s) (lo := loByte th) (hi := hiByte th) rest h0 (hk .setTextHome) rfl
    rwa [show Device.runCommand _ _ _ = d₁ by simp only [Device.runCommand, Device.applyCommand, assemble_bytes]; rfl] at this
  simp only [Machine.initTransfers, List.append_assoc]
  refine Goes.trans (hfirst _) ?_
  refine Goes.trans (Goes.sendNext d₂ _ rfl (hk .setTextArea) rfl ?ta) ?_
  case ta =>
    simp only [Device.runCommand, Device.applyCommand, assemble_byteOf harea]
    rfl
  refine Goes.trans (Goes.sendNext d₃ _ rfl (hk .setGraphicHome) rfl ?gh) ?_
  case gh =>
    simp only [Device.runCommand, Device.applyCommand, assemble_bytes]
    rfl
  refine Goes.trans (Goes.sendNext d₄ _ rfl (hk .setGraphicArea) rfl ?ga) ?_
  case ga =>
    have : s.cfg.graphicArea ≤ 255 := harea
    simp only [Device.runCommand, Device.applyCommand, assemble_byteOf this]
    rfl
  refine Goes.trans (Goes.sendNext d₅ _ rfl (hk .setOffsetRegister) rfl rfl) ?_
  refine Goes.trans (Goes.sendNext d₆ _ rfl (hk .setAddressPointer) rfl ?ap) ?_
  case ap =>
    have : assemble 0 0 = 0 := by decide
    simp only [Device.runCommand, Device.applyCommand, this]
    rfl
  refine Goes.trans (Goes.modeNext d₇ _ rfl (decodeCommand_displayByte hcmd) rfl rfl rfl) ?_
  exact Goes.modeNext (s.dev.programmed s.cfg) [] rfl (hk (.modeSet s.cfg.msOr)) rfl rfl rfl

/-! ## The operation -/

/-- A hardware reset makes no free choice (R49, R53). -/
theorem Responsive.restarted {s : State} (h : Responsive s) : Responsive s.restarted := h.same rfl fun _ => rfl

/-- A programmed device is what `Initialised` speaks of (R377). -/
theorem initialised_of_programmed {s : State} {d : Device} (hok : s.cfg.ok = true) (hst : s.eng.st = .idle) (hseq : s.eng.seq = [])
    (hreset : s.bus.reset = .deasserted) (hdev : s.dev = d.programmed s.cfg) : Initialised s := by
  have htext := Config.text_le hok
  have hgraphic := Config.graphic_le hok
  have hram := Config.ramSize_le hok
  have harea := Config.textArea_le hok
  have hoffs := Config.offsetReg_le hok
  obtain ⟨hpos, hgpos, _, _⟩ := Config.areas_bounds hok
  unfold Initialised CleanEntry
  rw [hdev]
  exact ⟨⟨hst, hseq, hreset, rfl⟩, Nat.mod_eq_of_lt (by omega), Nat.mod_eq_of_lt (by omega), Nat.mod_eq_of_lt (by omega),
    Nat.mod_eq_of_lt (show s.cfg.textArea < _ by omega), Nat.mod_eq_of_lt (by omega), rfl, rfl⟩

/-- What INIT leaves, and that the device goes on answering (R156). -/
theorem init_ends {s : State} (hok : s.cfg.ok = true) (hrst : s.host.rst = []) (hresp : Responsive s) :
    ∃ t u, exec .init s = .next t ∧ Reaches t u ∧ Responsive u
      ∧ Alike u (s.resetDevice.ended .init s.eng (s.resetDevice.dev.programmed s.cfg)
        ({ s.bus with reset := .deasserted }.afterWrite true (modeByte s.cfg)) (initTrace s.cfg)) := by
  have hlive : Live (s.begun .init).restarted := ⟨rfl, hok, hrst, rfl, Responsive.restarted (s := s.begun .init) hresp⟩
  obtain ⟨u, hreach, hend, hu⟩ := (Goes.initTransfers (s := (s.begun .init).restarted) hok rfl).ends hlive
  exact ⟨_, u, startOperation_eq s, (init_reaches hrst).trans hreach, hu, hend.ended rfl rfl rfl rfl rfl rfl rfl rfl⟩

/-- Settles O30. -/
theorem initProgramsTheDevice : Obligations.InitProgramsTheDevice := by
  unfold Obligations.InitProgramsTheDevice
  intro s hok hrst hresp
  obtain ⟨t, u, hexec, hreach, _, hu⟩ := init_ends hok hrst hresp
  have hcfg : u.cfg = s.cfg := hu.cfg
  refine ⟨t, u, hexec, hreach, ?_, hu, fun a => (hu.memByte a).trans (memByte_resetDevice s a)⟩
  exact initialised_of_programmed (hcfg ▸ hok) hu.st hu.seq (by rw [hu.bus]; rfl) (by rw [hcfg]; exact hu.dev)

end Sys2Proof.Machine
end

section
/-! Sequences of operations the host presents (41_device_commands.md R195; 43_pixel_memory.md R247; 44_text.md R261; 70_reset_and_hazards.md R353, R366). -/

namespace Sys2Proof.Machine

/-! ## One operation after the other -/

/-- `s` with `ds` for the descriptors the host has still to present. -/
def State.taking (s : State) (ds : List Descriptor) : State := s.setHost { s.host with req := ds }

/-- An idle engine takes the next descriptor and executes its operation (R48, R110). -/
theorem step_presented {s : State} {i : Instr} {ds : List Descriptor} (hrst : s.host.rst = []) (hst : s.eng.st = .idle)
    (hreq : s.host.req = encode i :: ds) (hwf : i.wellFormed = true) : step s = exec i (s.taking ds) := by
  rw [step_idle_accept hrst hst hreq, acceptDescriptor_of_ok _ (decodeOfEncodeIsIdentity i hwf)]
  rfl

/-- What the next operation finds after one that ended with the device `d`, the result registers of `e` and no poll pending. -/
structure Done (s u : State) (e : Engine) (d : Device) : Prop where
  serving : Serving u
  st : u.eng.st = .idle
  seq : u.eng.seq = []
  req : u.host.req = s.host.req
  cfg : u.cfg = s.cfg
  dev : u.dev = d
  memGen : u.free.memGen = s.free.memGen
  res : u.eng.res = e.res
  bof : u.eng.bof = e.bof
  err : u.eng.err = e.err
  responses : u.responses = { code := 0, data := e.res, bof := e.bof.extractLsb' 0 3 } :: s.responses

theorem Done.of_alike {s u : State} {i : Instr} {e : Engine} {d : Device} {b : Bus} {ts : List Transaction} (hok : s.cfg.ok = true)
    (hrst : s.host.rst = []) (hb : b.reset = .deasserted) (hresp : Responsive u) (hu : Alike u (s.ended i e d b ts)) : Done s u e d := by
  have hcfg : u.cfg = s.cfg := hu.cfg
  have herr : u.eng.err = e.err := by rw [hu.eng_eq]; rfl
  have hhost : u.host = { s.host with rspValid := true, rspCode := 0 } := hu.host
  exact ⟨⟨hcfg ▸ hok, by rw [hhost]; exact hrst, by rw [hu.bus]; exact hb, hresp⟩, hu.st, hu.seq, by rw [hhost], hcfg, hu.dev, hu.memGen, hu.res, hu.bof,
    herr, hu.responses⟩

/-- After an operation that left the operand latch empty the next drawing operation may follow (R377). -/
theorem Done.readyToDraw {s u : State} {e : Engine} {d : Device} (h : Done s u e d) (hn : d.nop = 0) : ReadyToDraw u :=
  ⟨h.serving, h.st, h.seq, h.serving.2.2.1, by rw [h.dev]; exact hn⟩

theorem Done.memByte {s u : State} {e : Engine} {d : Device} (h : Done s u e d) (a : Nat) : u.memByte a = Memory.byte d.mem s.free.memGen a := by
  rw [State.memByte, h.dev, h.memGen]

theorem Done.length_responses {s u : State} {e : Engine} {d : Device} (h : Done s u e d) : u.responses.length = s.responses.length + 1 := by
  rw [h.responses]
  rfl

/-- An operation the host presents runs to its end. -/
theorem RunsTo.presented {s : State} {i : Instr} {ds : List Descriptor} {e : Engine} {d : Device} {b : Bus} {ts : List Transaction}
    (hs : Serving s) (hst : s.eng.st = .idle) (hreq : s.host.req = encode i :: ds) (hwf : i.wellFormed = true) (h : RunsTo (s.taking ds) i e d b ts)
    (hb : b.reset = s.bus.reset) : ∃ u, Reaches s u ∧ Done (s.taking ds) u e d := by
  obtain ⟨t, u, hexec, hreach, hresp, hu⟩ := h
  exact ⟨u, .head ((step_presented hs.2.1 hst hreq hwf).trans hexec) hreach, .of_alike hs.1 hs.2.1 (hb.trans hs.2.2.1) hresp hu⟩

/-! ## Characters -/

/-- What a WCH the host presents leaves (R260). -/
structure CharacterWritten (s u : State) (ch : Byte) (ds : List Descriptor) : Prop where
  reach : Reaches s u
  ready : ReadyToDraw u
  req : u.host.req = ds
  cfg : u.cfg = s.cfg
  ap : u.dev.ap = s.dev.ap + 1
  mem : ∀ m, u.memByte m = if m = s.dev.ap.toNat then ch - 32 else s.memByte m
  responses : u.responses.length = s.responses.length + 1

theorem wch_presented {s : State} {ch : Byte} {ds : List Descriptor} (hready : ReadyToDraw s) (hreq : s.host.req = encode (.wch ch) :: ds)
    (hp : s.dev.ap.toNat < s.cfg.ramSize) : ∃ u, CharacterWritten s u ch ds := by
  obtain ⟨u, hreach, hu⟩ := (wch_runsTo (s := s.taking ds) (ch := ch) hready hp).presented hready.1 hready.2.1 hreq rfl rfl
  refine ⟨u, hreach, hu.readyToDraw rfl, hu.req, hu.cfg, by rw [hu.dev]; rfl, fun m => ?_, hu.length_responses⟩
  rw [hu.memByte]
  exact Memory.byte_store ..

/-- Settles O49. -/
theorem sapThenWchWritesTheCell : Obligations.SapThenWchWritesTheCell := by
  unfold Obligations.SapThenWchWritesTheCell
  intro s x y ch later hready hin hreq
  obtain ⟨haddr, hlt⟩ := deviceAddress_text hready.1.1 hin
  obtain ⟨u, hreach, hu⟩ := (sap_runsTo (s := s.taking (encode (.wch ch) :: later)) hready hin).presented hready.1 hready.2.1 hreq rfl rfl
  have hcfg : u.cfg = s.cfg := hu.cfg
  have hap : u.dev.ap = deviceAddress (textAddress s.cfg x.toInt y.toInt) := by rw [hu.dev]; rfl
  have hsame (m : Nat) : u.memByte m = s.memByte m := hu.memByte m
  obtain ⟨w, hw⟩ := wch_presented (hu.readyToDraw rfl) hu.req (by rw [hap, hcfg]; omega)
  refine ⟨w, hreach.trans hw.reach, hw.ready, hw.req, ?_, ?_, fun m hm => ?_⟩
  · rw [hw.mem, if_pos (by rw [hap]; omega)]
  · have hone : (1 : Half).toNat = 1 := rfl
    rw [hw.ap, hap, BitVec.toNat_add, hone]
    omega
  · rw [hw.mem, if_neg (by rw [hap]; omega), hsame]

theorem expandString_cons {c : Nat} {rest : List Nat} {ops : List Instr} (h : expandString (c :: rest) = some ops) :
    c ≤ 255 ∧ ∃ more, expandString rest = some more ∧ ops = .wch (BitVec.ofNat 8 c) :: more := by
  rw [expandString] at h
  split at h
  next hc =>
    obtain ⟨more, hmore, rfl⟩ := Option.map_eq_some_iff.mp h
    exact ⟨hc, more, hmore, rfl⟩
  next => cases h

/-- Settles O50, by induction on the string: its first character goes to the pointer, the rest one further. -/
theorem stringIsWrittenCellByCell : Obligations.StringIsWrittenCellByCell := by
  unfold Obligations.StringIsWrittenCellByCell
  intro s text
  induction text generalizing s with
  | nil =>
    intro ops later hready hexp hreq _
    obtain rfl : [] = ops := Option.some.inj hexp
    exact ⟨s, .refl s, hready, hreq, rfl, rfl, nofun, fun _ _ => rfl, (BitVec.add_zero _).symm⟩
  | cons c rest ih =>
    intro ops later hready hexp hreq hfits
    obtain ⟨hc, more, hmore, rfl⟩ := expandString_cons hexp
    simp only [List.length_cons] at hfits ⊢
    obtain ⟨u, hu⟩ := wch_presented hready hreq (by omega)
    have hr := Config.ramSize_le hready.1.1
    have hap : u.dev.ap.toNat = s.dev.ap.toNat + 1 ∨ rest.length = 0 ∧ u.dev.ap.toNat = 0 := by
      have hone : (1 : Half).toNat = 1 := rfl
      rw [hu.ap, BitVec.toNat_add, hone]
      omega
    obtain ⟨w, hreach, hw, hwreq, hlen, hresp, hchars, hsame, hwap⟩ := ih u more later hu.ready hmore hu.req (by rw [hu.cfg]; omega)
    refine ⟨w, hu.reach.trans hreach, hw, hwreq, congrArg (· + 1) hlen, by rw [hresp, hu.responses]; omega, fun n d hd => ?_, fun m hm => ?_, ?_⟩
    · cases n with
      | zero =>
        obtain rfl : c = d := Option.some.inj hd
        refine ⟨hc, ?_⟩
        rw [Nat.add_zero, hsame _ (by omega), hu.mem, if_pos rfl]
      | succ n =>
        obtain ⟨hd255, hbyte⟩ := hchars n d hd
        have hn : n < rest.length := Nat.lt_of_succ_lt_succ (List.getElem?_eq_some_iff.mp hd).1
        refine ⟨hd255, ?_⟩
        rw [← hbyte, show s.dev.ap.toNat + (n + 1) = u.dev.ap.toNat + n by omega]
    · rw [hsame m (by omega), hu.mem, if_neg (by omega)]
    · rw [hwap, hu.ap, BitVec.add_assoc, Nat.add_comm, BitVec.ofNat_add]
      rfl

/-! ## The raw read -/

section
variable {s : State} {ds : List Descriptor} (hs : Serving s) (hst : s.eng.st = .idle)
include hs hst

theorem wrd_presented {v : Byte} (hreq : s.host.req = encode (.wrd v) :: ds) (hn : s.dev.nop ≠ 2) :
    ∃ u, Reaches s u ∧ Done (s.taking ds) u s.eng (s.dev.afterData v) :=
  (wrd_runsTo (s := s.taking ds) hs hn).presented hs hst hreq rfl rfl

theorem wrc_presented {k : Byte} {c : DeviceCommand} (hreq : s.host.req = encode (.wrc k) :: ds) (hk : decodeCommand s.cfg.cmd k = some c)
    (hn : s.dev.nop = c.operands) (hp : c.accessesMemory = true → s.dev.ap.toNat < s.cfg.ramSize) :
    ∃ u, Reaches s u ∧ Done (s.taking ds) u s.eng (s.dev.runCommand s.free.memGen c) :=
  (wrc_runsTo (s := s.taking ds) hs hk hn hp).presented hs hst hreq rfl rfl

/-- RDD with a read pending (R154, R174). -/
theorem rdd_presented (hreq : s.host.req = encode .rdd :: ds) (hv : s.dev.rdv = true) :
    ∃ u, Reaches s u ∧ Done (s.taking ds) u { s.eng with res := s.dev.rdl.setWidth 16 } { s.dev with rdv := false, rdy := .busy } :=
  RunsTo.presented hs hst hreq rfl (.of_goes (s := s.taking ds) hs rfl (Goes.readRes (s := (s.taking ds).begun .rdd) [] hv)
    ((Alike.refl _).ended (ts := [.dataRead s.dev.rdl]) rfl rfl rfl rfl rfl rfl rfl rfl)) rfl

end

/-- Settles O48, operation by operation; each device is the one before but for what the operation did. -/
theorem rawReadReturnsTheByte : Obligations.RawReadReturnsTheByte := by
  unfold Obligations.RawReadReturnsTheByte
  intro s a later ⟨hs, hst, _, _, hn⟩ hpop hreq
  have hk := decodeCommand_commandByte (Config.commands_of_ok hs.1)
  obtain ⟨u₁, hreach₁, h₁⟩ := wrd_presented hs hst hreq (by rw [hn]; decide)
  have hd₁ : u₁.dev = { s.dev with d1 := loByte a, nop := 1, rdy := .busy } := h₁.dev.trans (Device.afterData_first _ hn)
  obtain ⟨u₂, hreach₂, h₂⟩ := wrd_presented h₁.serving h₁.st h₁.req (by rw [hd₁]; exact show (1 : Fin 3) ≠ 2 by decide)
  have hd₂ : u₂.dev = { s.dev with d1 := loByte a, d2 := hiByte a, nop := 2, rdy := .busy } := by
    rw [h₂.dev, hd₁]
    rfl
  have hcfg₂ : u₂.cfg = s.cfg := h₂.cfg.trans h₁.cfg
  obtain ⟨u₃, hreach₃, h₃⟩ := wrc_presented (c := .setAddressPointer) h₂.serving h₂.st h₂.req (by rw [hcfg₂]; exact hk .setAddressPointer)
    (by rw [hd₂]; rfl) nofun
  have hd₃ : u₃.dev = { s.dev with ap := a, d1 := loByte a, d2 := hiByte a, nop := 0, rdv := false, rdy := .busy } := by
    rw [h₃.dev, hd₂]
    simp only [Device.runCommand, Device.applyCommand, assemble_bytes]
  have hcfg₃ : u₃.cfg = s.cfg := h₃.cfg.trans hcfg₂
  have hgen₃ : u₃.free.memGen = s.free.memGen := h₃.memGen.trans (h₂.memGen.trans h₁.memGen)
  obtain ⟨u₄, hreach₄, h₄⟩ := wrc_presented (c := .dataReadNonvar) h₃.serving h₃.st h₃.req (by rw [hcfg₃]; exact hk .dataReadNonvar)
    (by rw [hd₃]; rfl) (fun _ => by rw [hd₃, hcfg₃]; exact hpop)
  have hd₄ : u₄.dev = { s.dev with
      ap := a, d1 := loByte a, d2 := hiByte a, nop := 0, rdl := s.memByte a.toNat, rdv := true, rdy := .busy } := by
    rw [h₄.dev, hd₃, hgen₃]
    rfl
  have hgen₄ : u₄.free.memGen = s.free.memGen := h₄.memGen.trans hgen₃
  have hbof₄ : u₄.eng.bof = s.eng.bof := by rw [h₄.bof, h₃.bof, h₂.bof, h₁.bof]
  obtain ⟨u, hreach₅, h₅⟩ := rdd_presented h₄.serving h₄.st h₄.req (by rw [hd₄])
  have hres : u.eng.res = (s.memByte a.toNat).setWidth 16 := by rw [h₅.res, hd₄]
  refine ⟨u, hreach₁.trans (hreach₂.trans (hreach₃.trans (hreach₄.trans hreach₅))), h₅.readyToDraw (by rw [hd₄]), h₅.req, hres, ?_, ?_, ?_,
    fun m => ?_⟩
  · rw [h₅.dev, hd₄]
  · rw [h₅.responses, List.take_succ_cons, List.take_zero, hd₄, hbof₄]
  · have l₁ : u₁.responses.length = s.responses.length + 1 := h₁.length_responses
    have l₂ : u₂.responses.length = u₁.responses.length + 1 := h₂.length_responses
    have l₃ : u₃.responses.length = u₂.responses.length + 1 := h₃.length_responses
    have l₄ : u₄.responses.length = u₃.responses.length + 1 := h₄.length_responses
    have l₅ : u.responses.length = u₄.responses.length + 1 := h₅.length_responses
    omega
  · rw [h₅.memByte, hd₄]
    show Memory.byte s.dev.mem u₄.free.memGen m = _
    rw [hgen₄]
    rfl

/-! ## Setting and clearing a pixel -/

/-- After a drawing operation the next may follow (R377). -/
theorem DrawingFrame.readyToDraw {s u : State} {i : Instr} {regs : List (Fin 16)} (h : DrawingFrame s u i regs) (hs : ReadyToDraw s)
    (hr : Responsive u) : ReadyToDraw u := by
  obtain ⟨⟨hok, hrst, hreset, _⟩, _⟩ := hs
  obtain ⟨hcfg, hst, hseq, _, _, _, _, _, _, _, _, _, _, _, _, _, _, _, _, _, _, _, _, hnop, _, _, hbus, hhost, _⟩ := h
  have hreset' : u.bus.reset = .deasserted := by rw [hbus]; exact hreset
  exact ⟨⟨hcfg ▸ hok, by rw [hhost]; exact hrst, hreset', hr⟩, hst, hseq, hreset', hnop⟩

/-- What a SPX leaves, as far as the next operation and the pixels go (R240, R241). -/
structure PixelDrawn (s u : State) (x y : Int) (c : Bool) : Prop where
  ready : ReadyToDraw u
  cfg : u.cfg = s.cfg
  req : u.host.req = s.host.req
  res : u.eng.res = s.eng.res
  bof : u.eng.bof = s.eng.bof
  responses : u.responses = { code := 0, data := s.eng.res, bof := s.eng.bof.extractLsb' 0 3 } :: s.responses
  transfers : (transfers u.trace).length = (transfers s.trace).length + 7
  drawn : Drawn s u [(x, y)] c

theorem spx_ends {s : State} {x y : Half} (c : Bool) (hready : ReadyToDraw s) (hin : inGraphic s.cfg x.toInt y.toInt = true) :
    ∃ t u, exec (.spx x y c) s = .next t ∧ Reaches t u ∧ PixelDrawn s u x.toInt y.toInt c := by
  obtain ⟨haddr, hram⟩ := deviceAddress_graphic hready.1.1 hin
  have hgo := Goes.setPixel (s := s.begun (.spx x y c)) x.toInt y.toInt c [] hready.2.2.2.2
    (show (s.plotAddress x.toInt y.toInt).toNat < s.cfg.ramSize by unfold State.plotAddress; omega)
  have hplots : Plots c [] (s.begun (.spx x y c)) [(x.toInt, y.toInt)] _ := .plot x.toInt y.toInt .nil
  obtain ⟨t, u, ht, hreach, hresp, hframe, hdrawn, hcount, _⟩ := plots_ends hready hgo hplots (List.cons_ne_nil _ _) (by simpa using hin)
  have hu := hframe.readyToDraw hready hresp
  obtain ⟨hcfg, _, _, hres, hbof, _, _, _, _, _, _, _, _, _, _, _, _, _, _, _, _, _, _, _, _, _, _, hhost, _, _, hresponses⟩ := hframe
  exact ⟨t, u, (if_pos hin).trans ht, hreach, hu, hcfg, by rw [hhost], hres, hbof, hresponses, hcount, hdrawn⟩

theorem PixelDrawn.pixel_self {s u : State} {x y : Int} {c : Bool} (h : PixelDrawn s u x y c) : pixel u x y = c :=
  h.drawn.1 (x, y) (List.mem_singleton_self _)

/-- Two pixels never share a bit (R214), so another pixel stays (R247). -/
theorem PixelDrawn.pixel_other {s u : State} {x y x' y' : Int} {c : Bool} (h : PixelDrawn s u x y c) (hok : s.cfg.ok = true)
    (hin : inGraphic s.cfg x y = true) (hin' : inGraphic s.cfg x' y' = true) (hne : (x', y') ≠ (x, y)) : pixel u x' y' = pixel s x' y' := by
  have ha := (graphicAddress_bounds hok hin').1
  have hb := (bitOffset_bounds hok (x := x')).1
  rw [pixel, h.cfg]
  refine h.drawn.2 _ _ fun p hp hsame => hne ?_
  obtain rfl := List.mem_singleton.mp hp
  simp only at hsame
  obtain ⟨rfl, rfl⟩ := pixel_injective hok hin' hin (by omega) (by omega)
  rfl

/-- Settles O47. -/
theorem pixelRoundTrip : Obligations.PixelRoundTrip := by
  unfold Obligations.PixelRoundTrip
  intro s x y hready hin
  obtain ⟨t, u, hexec, hreach, hu⟩ := spx_ends true hready hin
  have hin' : inGraphic u.cfg x.toInt y.toInt = true := by rw [hu.cfg]; exact hin
  obtain ⟨t', w, hexec', hreach', hw⟩ := spx_ends false hu.ready hin'
  refine ⟨t, u, t', w, hexec, hreach, hu.ready, hu.req, hu.responses, hu.transfers, hu.pixel_self, hexec', hreach', hw.ready, hw.req.trans hu.req, ?_, ?_,
    hw.pixel_self, fun x' y' hin₂ hne => ?_⟩
  · rw [hw.responses, hu.responses, hu.res, hu.bof]
  · rw [hw.transfers, hu.transfers]
  · rw [hw.pixel_other hu.ready.1.1 hin' (by rw [hu.cfg]; exact hin₂) hne, hu.pixel_other hready.1.1 hin hin₂ hne]

/-! ## Boot -/

/-- A clear leaves the programmed registers (R377). -/
theorem DrawingFrame.initialised {s u : State} {i : Instr} {regs : List (Fin 16)} (h : DrawingFrame s u i regs) (hs : Initialised s)
    (hready : ReadyToDraw u) : Initialised u := by
  obtain ⟨hcfg, _, _, _, _, _, _, _, _, _, _, _, _, _, _, _, hoffs, hth, hta, hgh, hga, hdisp, hmode, _⟩ := h
  obtain ⟨_, hs⟩ := hs
  refine ⟨hready.2, ?_⟩
  rw [hth, hta, hgh, hga, hoffs, hdisp, hmode, hcfg]
  exact hs

/-- A clear the host presents (R242 to R244). -/
theorem clear_presented {s : State} {i : Instr} {ds : List Descriptor} {first size : Nat} (hready : ReadyToDraw s) (hinit : Initialised s)
    (hreq : s.host.req = encode i :: ds) (hwf : i.wellFormed = true)
    (harea : ClearsArea s.cfg i first size) :
    ∃ u, Reaches s u ∧ ReadyToDraw u ∧ Initialised u ∧ u.cfg = s.cfg ∧ u.host.req = ds ∧ u.eng.err = s.eng.err
      ∧ ∀ b, u.memByte b = if first ≤ b ∧ b < first + size then 0 else s.memByte b := by
  have hready' : ReadyToDraw (s.taking ds) := hready
  obtain ⟨hexec, hpos, hb⟩ := exec_of_clearsArea (s := s.taking ds) hready.1.1 harea
  have hr : (s.taking ds).cfg.ramSize ≤ 65536 := Config.ramSize_le hready.1.1
  obtain ⟨t, u, w, ht, hreach, hresp, hend, hw⟩ := fill_ends hready' hexec hpos hb
  obtain ⟨hframe, _, _, _⟩ := Streamed.drawingFrame hend hw
  have hu := hframe.readyToDraw hready' hresp
  have hinit' : Initialised u := hframe.initialised (s := s.taking ds) hinit hu
  obtain ⟨hcfg, _, _, _, _, herr, _, _, _, _, _, _, _, _, _, _, _, _, _, _, _, _, _, _, _, _, _, hhost, _⟩ := hframe
  exact ⟨u, .head ((step_presented hready.1.2.1 hready.2.1 hreq hwf).trans ht) hreach, hu, hinit', hcfg, by rw [hhost]; rfl, herr,
    fun b => (hend.memByte b).trans (hw.memByte_zeroes (by omega) b)⟩

/-- INIT as the first operation the host presents (R156, R353). -/
theorem init_presented {s : State} {ds : List Descriptor} (hok : s.cfg.ok = true) (hrst : s.host.rst = []) (hresp : Responsive s)
    (hst : s.eng.st = .idle) (hreq : s.host.req = encode .init :: ds) :
    ∃ u, Reaches s u ∧ ReadyToDraw u ∧ Initialised u ∧ u.cfg = s.cfg ∧ u.host.req = ds ∧ u.eng.err = s.eng.err := by
  obtain ⟨t, u, hexec, hreach, hresp', hu⟩ := init_ends (s := s.taking ds) hok hrst hresp
  have hdone := Done.of_alike (s := (s.taking ds).resetDevice) hok hrst rfl hresp' hu
  have hcfg : u.cfg = s.cfg := hdone.cfg
  exact ⟨u, .head ((step_presented hrst hst hreq rfl).trans hexec) hreach, hdone.readyToDraw rfl,
    initialised_of_programmed (hcfg ▸ hok) hdone.st hdone.seq hdone.serving.2.2.1 (by rw [hcfg]; exact hdone.dev), hcfg, hdone.req, hdone.err⟩

/-- Settles O51: the text area stays clear while the graphic area beside it is cleared. -/
theorem bootClearsTheScreen : Obligations.BootClearsTheScreen := by
  unfold Obligations.BootClearsTheScreen
  intro s later ⟨hst, _, herr, _⟩ hok hrst hresp hreq
  obtain ⟨u₁, hreach₁, hready₁, hinit₁, hcfg₁, hreq₁, herr₁⟩ := init_presented hok hrst hresp hst hreq
  obtain ⟨u₂, hreach₂, hready₂, hinit₂, hcfg₂, hreq₂, herr₂, hmem₂⟩ := clear_presented hready₁ hinit₁ hreq₁ rfl (.inl ⟨rfl, rfl, rfl⟩)
  obtain ⟨u, hreach, hready, hinit, hcfg, hreq, herr₃, hmem⟩ := clear_presented hready₂ hinit₂ hreq₂ rfl (.inr (.inl ⟨rfl, rfl, rfl⟩))
  refine ⟨u, hreach₁.trans (hreach₂.trans hreach), hinit, hready, fun a hlow hhigh => ?_, fun a hlow hhigh => ?_, hreq, ?_⟩
  · rw [hcfg] at hlow hhigh
    obtain ⟨_, _, _, hside⟩ := Config.areas_bounds hready₂.1.1
    rw [hmem, if_neg (by omega), hmem₂, ← hcfg₂, if_pos ⟨hlow, hhigh⟩]
  · rw [hcfg] at hlow hhigh
    rw [hmem, if_pos ⟨hlow, hhigh⟩]
  · rw [herr₃, herr₂, herr₁, herr]

end Sys2Proof.Machine
end
